-- ==== Sys2Proof/Word.lean ====
section
/-! DEFINITION. The words PBDE works with: stream bits, bytes, and the fixed-width fields of a packet
(30_encoding.md R73 to R78). Every other number of PBDE is a natural (00_scope.md R10). -/

namespace Sys2Proof

/-- A stretch of the packet stream, first-read bit first (00_scope.md R8). -/
abbrev Bits := List Bool

/-- An input character as the host wrote it (10_state.md R37). -/
abbrev Byte := BitVec 8

/-- Field V of a packet (30_encoding.md R73). -/
abbrev Version := BitVec 3

/-- Field T of a packet (30_encoding.md R73). -/
abbrev TypeId := BitVec 3

/-- Field L of format OPL, counting bits (30_encoding.md R76). -/
abbrev LenField := BitVec 15

/-- Field N of format OPC, counting packets (30_encoding.md R77). -/
abbrev CountField := BitVec 11

end Sys2Proof
end

