-- ==== Sys2Proof/Config.lean ====
section
/-! DEFINITION. What an implementation of PBDE fixes (00_scope.md R6, R7), and the one free value. -/

namespace Sys2Proof

/-- The command that detects a comparison whose child count is not 2 (00_scope.md R6, 90_conflicts.md C2). -/
inductive ArityStage where
  | decode
  | evaluate
deriving DecidableEq, Repr

/-- The registers a host can name (10_state.md R42). -/
inductive HostReg where
  | cmd
  | status
  | err
  | errPos
  | result
  | inLen
  | inBuf (index : Nat)
deriving DecidableEq, Repr

/-- A bus address where the platform places a host register, or a part of one that is wider than the bus
(20_memory.md R56, R60). -/
structure BusWindow where
  /-- The bus address. -/
  address : Nat
  /-- The access size there, in bits. -/
  size : Nat
  /-- The register's bit that the access shows lowest. -/
  lo : Nat
  /-- The register. -/
  reg : HostReg
deriving DecidableEq, Repr

/-- BUS_MAP: "bus addresses, bus width and access sizes of the host registers" (00_scope.md R6). That it is a list
of windows is a DESIGN CHOICE (log 13). -/
structure BusMap where
  /-- The bus width, in bits. -/
  width : Nat
  windows : List BusWindow
deriving DecidableEq, Repr

/-- The implementation parameters of 00_scope.md R6. -/
structure Params where
  /-- VALUE_WIDTH `W`: `none` is the unbounded width. -/
  valueWidth : Option Nat
  /-- IN_CAP, in bytes. -/
  inCap : Nat
  /-- MAX_DEPTH: `none` is no limit. -/
  maxDepth : Option Nat
  /-- ARITY_CHECK_STAGE. -/
  arityStage : ArityStage
  /-- BUS_MAP. -/
  busMap : BusMap
deriving DecidableEq, Repr

/-- The legal values of the parameters: 00_scope.md R6's ranges and R7's constraint `4 × IN_CAP < 2^W`. BUS_MAP
is legal whatever it is: "any platform map". -/
def Params.legal (p : Params) : Bool :=
  (match p.valueWidth with
    | none => true
    | some w => decide (64 ≤ w) && decide (4 * p.inCap < 2 ^ w)) &&
  decide (1 ≤ p.inCap) &&
  (match p.maxDepth with
    | none => true
    | some d => decide (1 ≤ d))

namespace Config

/-- DESIGN CHOICE (log 2), unsafe. The spec gives IN_CAP no default; the host programs of
95_test_vectors.md section 3 run with 64. -/
def defaultInCap : Nat := 64

/-- DESIGN CHOICE (log 13), unsafe. The spec leaves BUS_MAP open and gives it no default: a bus of 32 bits with nothing
placed on it, so that the host reaches the registers by name. -/
def defaultBusMap : BusMap :=
  { width := 32, windows := [] }

/-- The parameters a machine has unless it is built with others: the spec's defaults (00_scope.md R6). -/
def defaultParams : Params :=
  { valueWidth := some 64, inCap := defaultInCap, maxDepth := none, arityStage := .decode,
    busMap := defaultBusMap }

/-- FREE VALUE (log 5), safe. The byte that the `n`-th draw for an UNWRITTEN cell of IN_BUF gives:
"an arbitrary byte value (a draw with no law)" (20_memory.md R51). It has no body, so nothing can be
proved of its value. -/
opaque drawByte : Nat → Byte

end Config

end Sys2Proof
end

