-- ==== Sys2Proof/Syntax.lean ====
section
/-! DEFINITION. The abstract syntax: one constructor of `Instr` per row of spec/opcode_table.json
(30_encoding.md R81, R83, R86). -/

namespace Sys2Proof

/-- The seven Operator opcodes (30_encoding.md R81). Type id 4 is the Literal's and has no constructor. -/
inductive Opcode where
  | sum
  | prod
  | min
  | max
  | gt
  | lt
  | eq
deriving DecidableEq, Repr

/-- The host commands (43_host_commands.md R193). -/
inductive Command where
  | decode
  | sumVersions
  | evaluate
deriving DecidableEq, Repr

/-- An instruction: one of the 15 packet forms of 30_encoding.md R81 with the fields of its pattern
(V, and L or N), or one of the 3 command codes of R83. A Literal's groups are not part of its
pattern (R86): it reads them from the stream. -/
inductive Instr where
  | lit (ver : Version)
  | sumLen (ver : Version) (len : LenField)
  | sumCnt (ver : Version) (count : CountField)
  | prodLen (ver : Version) (len : LenField)
  | prodCnt (ver : Version) (count : CountField)
  | minLen (ver : Version) (len : LenField)
  | minCnt (ver : Version) (count : CountField)
  | maxLen (ver : Version) (len : LenField)
  | maxCnt (ver : Version) (count : CountField)
  | gtLen (ver : Version) (len : LenField)
  | gtCnt (ver : Version) (count : CountField)
  | ltLen (ver : Version) (len : LenField)
  | ltCnt (ver : Version) (count : CountField)
  | eqLen (ver : Version) (len : LenField)
  | eqCnt (ver : Version) (count : CountField)
  | decode
  | sumVersions
  | evaluate
deriving DecidableEq, Repr

/-- How an instruction reaches the block: as stream bits (formats LIT, OPL, OPC) or as the 8-bit value
written to CMD (format CMD), 30_encoding.md R86. -/
inductive Encoded where
  | stream (bits : Bits)
  | cmd (code : BitVec 8)
deriving DecidableEq, Repr

/-- Why the decoder reads no instruction. -/
inductive DecodeReject where
  /-- The stream ends inside the pattern; `offset` is where in the packet the failing read starts
  (40_conversion_and_reader.md R106). -/
  | truncated (offset : Nat)
  /-- A CMD value other than 1, 2 and 3 (10_state.md R22). -/
  | reservedCommand (code : BitVec 8)
deriving DecidableEq, Repr

/-- The instruction that a command in PENDING runs (43_host_commands.md R195 to R197). -/
def Command.toInstr : Command → Instr
  | .decode => .decode
  | .sumVersions => .sumVersions
  | .evaluate => .evaluate

/-- Opcodes 5, 6 and 7, which take exactly two children (42_evaluate.md R174 to R176). -/
def Opcode.isComparison : Opcode → Bool
  | .gt => true
  | .lt => true
  | .eq => true
  | .sum => false
  | .prod => false
  | .min => false
  | .max => false

/-- The form with length type 0 of an opcode: the rows `.LEN` (30_encoding.md R81). -/
def Opcode.lenForm (ver : Version) (len : LenField) : Opcode → Instr
  | .sum => .sumLen ver len
  | .prod => .prodLen ver len
  | .min => .minLen ver len
  | .max => .maxLen ver len
  | .gt => .gtLen ver len
  | .lt => .ltLen ver len
  | .eq => .eqLen ver len

/-- The form with length type 1 of an opcode: the rows `.CNT` (30_encoding.md R81). -/
def Opcode.cntForm (ver : Version) (count : CountField) : Opcode → Instr
  | .sum => .sumCnt ver count
  | .prod => .prodCnt ver count
  | .min => .minCnt ver count
  | .max => .maxCnt ver count
  | .gt => .gtCnt ver count
  | .lt => .ltCnt ver count
  | .eq => .eqCnt ver count

end Sys2Proof
end

