-- ==== Sys2Proof/WellFormed.lean ====
section
/-! DEFINITION. Which packet headers can head a packet that DECODE accepts and EVALUATE gives a value.
Every field width is carried by its type; every value of every field has an encoding and a meaning
(30_encoding.md R82), so neither the decoder nor `exec` asks for well-formedness. -/

namespace Sys2Proof

/-- The fewest children an Operator with this opcode can have: two for a comparison (42_evaluate.md R174
to R176), one for any other (10_state.md R31 (c)). -/
def Opcode.minChildren (op : Opcode) : Nat :=
  if op.isComparison then 2 else 1

/-- Length type 0: `L` leaves room for the fewest children, each of at least 11 bits
(30_encoding.md R79, R82 (d)). -/
def wfLen (op : Opcode) (len : LenField) : Bool :=
  decide (11 * op.minChildren ≤ len.toNat)

/-- Length type 1: `N` is not 0, and is 2 for a comparison (30_encoding.md R82 (d)). -/
def wfCount (op : Opcode) (count : CountField) : Bool :=
  if op.isComparison then decide (count.toNat = 2) else decide (1 ≤ count.toNat)

/-- The well-formed instructions. -/
def Instr.wf : Instr → Bool
  | .lit _ => true
  | .sumLen _ l => wfLen .sum l
  | .sumCnt _ n => wfCount .sum n
  | .prodLen _ l => wfLen .prod l
  | .prodCnt _ n => wfCount .prod n
  | .minLen _ l => wfLen .min l
  | .minCnt _ n => wfCount .min n
  | .maxLen _ l => wfLen .max l
  | .maxCnt _ n => wfCount .max n
  | .gtLen _ l => wfLen .gt l
  | .gtCnt _ n => wfCount .gt n
  | .ltLen _ l => wfLen .lt l
  | .ltCnt _ n => wfCount .lt n
  | .eqLen _ l => wfLen .eq l
  | .eqCnt _ n => wfCount .eq n
  | .decode => true
  | .sumVersions => true
  | .evaluate => true

end Sys2Proof
end

