-- ==== Sys2Proof/Decode.lean ====
section
/-! DEFINITION. The decoder of packet patterns and command codes (30_encoding.md R73 to R86), total and
rejecting by name, and after it the encoder. -/

namespace Sys2Proof

/-! ## Bit strings and numbers -/

/-- The number a bit string spells, first bit most significant (20_memory.md R55). -/
def natOfBits (bs : Bits) : Nat :=
  bs.foldl (fun v b => 2 * v + b.toNat) 0

/-- The `n` low bits of `v`, most significant first: the string that `natOfBits` reads back. -/
def bitsOfNat : Nat → Nat → Bits
  | 0, _ => []
  | n + 1, v => v.testBit n :: bitsOfNat n v

/-- Take an `n`-bit field off the front of a bit string: its value and what follows it; `none` when
fewer than `n` bits are left (40_conversion_and_reader.md R105, R106). -/
def takeField (n : Nat) (bs : Bits) : Option (Nat × Bits) :=
  if bs.length < n then none else some (natOfBits (bs.take n), bs.drop n)

/-! ## Opcode and command numbers -/

/-- The number of an opcode, field T (30_encoding.md R81). -/
def Opcode.code : Opcode → TypeId
  | .sum => 0
  | .prod => 1
  | .min => 2
  | .max => 3
  | .gt => 5
  | .lt => 6
  | .eq => 7

/-- The opcode that a type id names; `none` for 4, the Literal's (30_encoding.md R73, R81). -/
def Opcode.ofTypeId (t : TypeId) : Option Opcode :=
  if t = 0 then some .sum
  else if t = 1 then some .prod
  else if t = 2 then some .min
  else if t = 3 then some .max
  else if t = 5 then some .gt
  else if t = 6 then some .lt
  else if t = 7 then some .eq
  else none

/-- The code of a command (30_encoding.md R83). -/
def Command.code : Command → BitVec 8
  | .decode => 0x01
  | .sumVersions => 0x02
  | .evaluate => 0x03

/-! ## The decoder -/

/-- Decode a value written to CMD: 1, 2 and 3 are commands, every other code is reserved
(10_state.md R22, 30_encoding.md R83). -/
def decodeCommand (c : BitVec 8) : Except DecodeReject Command :=
  if c = 0x01 then .ok .decode
  else if c = 0x02 then .ok .sumVersions
  else if c = 0x03 then .ok .evaluate
  else .error (.reservedCommand c)

/-- Decode what follows a header (30_encoding.md R80): type id 4 is the Literal; any other type id is an
Operator whose bit I selects OPL with L or OPC with N. -/
def decodeForm (ver : Version) (tid : TypeId) (rest : Bits) : Except DecodeReject Instr :=
  match Opcode.ofTypeId tid with
  | none => .ok (.lit ver)
  | some op =>
    match takeField 1 rest with
    | none => .error (.truncated 6)
    | some (i, rest) =>
      if i = 0 then
        match takeField 15 rest with
        | none => .error (.truncated 7)
        | some (l, _) => .ok (op.lenForm ver (BitVec.ofNat 15 l))
      else
        match takeField 11 rest with
        | none => .error (.truncated 7)
        | some (n, _) => .ok (op.cntForm ver (BitVec.ofNat 11 n))

/-- Decode the packet pattern at the front of a bit string: header V and T (30_encoding.md R73), then the
form. -/
def decodePacket (bs : Bits) : Except DecodeReject Instr :=
  match takeField 3 bs with
  | none => .error (.truncated 0)
  | some (v, rest) =>
    match takeField 3 rest with
    | none => .error (.truncated 3)
    | some (t, rest) => decodeForm (BitVec.ofNat 3 v) (BitVec.ofNat 3 t) rest

/-- The decoder: total, rejecting by name. -/
def decode : Encoded → Except DecodeReject Instr
  | .stream bs => decodePacket bs
  | .cmd c =>
    match decodeCommand c with
    | .ok k => .ok k.toInstr
    | .error e => .error e

/-! ## The encoder -/

/-- Header H (30_encoding.md R73). -/
def headerBits (ver : Version) (tid : TypeId) : Bits :=
  bitsOfNat 3 ver.toNat ++ bitsOfNat 3 tid.toNat

/-- Format OPL up to its children (30_encoding.md R76). -/
def oplBits (op : Opcode) (ver : Version) (len : LenField) : Bits :=
  headerBits ver op.code ++ (false :: bitsOfNat 15 len.toNat)

/-- Format OPC up to its children (30_encoding.md R77). -/
def opcBits (op : Opcode) (ver : Version) (count : CountField) : Bits :=
  headerBits ver op.code ++ (true :: bitsOfNat 11 count.toNat)

/-- The words of an instruction (30_encoding.md R74, R76, R77, R83). -/
def encode : Instr → Encoded
  | .lit v => .stream (headerBits v 4)
  | .sumLen v l => .stream (oplBits .sum v l)
  | .sumCnt v n => .stream (opcBits .sum v n)
  | .prodLen v l => .stream (oplBits .prod v l)
  | .prodCnt v n => .stream (opcBits .prod v n)
  | .minLen v l => .stream (oplBits .min v l)
  | .minCnt v n => .stream (opcBits .min v n)
  | .maxLen v l => .stream (oplBits .max v l)
  | .maxCnt v n => .stream (opcBits .max v n)
  | .gtLen v l => .stream (oplBits .gt v l)
  | .gtCnt v n => .stream (opcBits .gt v n)
  | .ltLen v l => .stream (oplBits .lt v l)
  | .ltCnt v n => .stream (opcBits .lt v n)
  | .eqLen v l => .stream (oplBits .eq v l)
  | .eqCnt v n => .stream (opcBits .eq v n)
  | .decode => .cmd Command.decode.code
  | .sumVersions => .cmd Command.sumVersions.code
  | .evaluate => .cmd Command.evaluate.code

/-! ## Words of the opcode table -/

/-- Read a word that the opcode table numbers (30_encoding.md R86) as an encoding. A packet row's word is
its pattern of `width` bits, first bit most significant, so the width has to be known: 6, 18 and 22
are exact widths; 8 bits are a command code when they are 1, 2 or 3, a LIT pattern when they fit 6
bits, and a (reserved) command code otherwise. 24 bits hold an OPC pattern (18 bits) or an OPL
pattern (22 bits): the OPC pattern is taken when bit 11, its I, is set, bits 14 to 12, its T, are
not 4, and nothing stands above bit 17 (DESIGN CHOICE, log 10). -/
def tableWord (nbits w : Nat) : Encoded :=
  if nbits = 6 then .stream (bitsOfNat 6 w)
  else if nbits ≤ 8 then
    if w = 1 ∨ w = 2 ∨ w = 3 ∨ 64 ≤ w then .cmd (BitVec.ofNat 8 w) else .stream (bitsOfNat 6 w)
  else if nbits = 18 then .stream (bitsOfNat 18 w)
  else if nbits = 22 then .stream (bitsOfNat 22 w)
  else if w < 2 ^ 18 ∧ w.testBit 11 ∧ (w >>> 12) % 8 ≠ 4 then .stream (bitsOfNat 18 w)
  else .stream (bitsOfNat 22 w)

/-- The instruction the decoder reads from a word of the opcode table. -/
def decodeTableWord (nbits w : Nat) : Option Instr :=
  match decode (tableWord nbits w) with
  | .ok i => some i
  | .error _ => none

end Sys2Proof
end

