-- ==== Sys2Proof/Machine/State.lean ====
section
/-! DEFINITION. The state of PBDE as plain data (10_state.md R20 to R41), the model's own fields marked as
such, and the reset state. -/

namespace Sys2Proof.Machine

/-! ## The Packet tree -/

mutual

/-- A node of the decoded tree (10_state.md R30). The opcode is any 3-bit value here; that it is never 4
is an invariant (R31 (b)). -/
inductive Packet where
  | lit (version : Version) (value : Nat)
  | op (version : Version) (opcode : TypeId) (children : Packets)
deriving DecidableEq, Repr

/-- An ordered sequence of packets: the children of an Operator (10_state.md R30). -/
inductive Packets where
  | nil
  | cons (first : Packet) (rest : Packets)
deriving DecidableEq, Repr

end

/-! ## Host-visible registers -/

/-- STATUS.STATE (10_state.md R23). -/
inductive RunState where
  | idle
  | ok
  | error
  | busy
deriving DecidableEq, Repr

/-- The fields of STATUS (10_state.md R23). -/
structure Status where
  state : RunState
  treeValid : Bool
  rejected : Bool
  lastCmd : BitVec 4
deriving DecidableEq, Repr

/-- The fields of ERR (10_state.md R28). -/
structure Err where
  code : BitVec 4
  detail : BitVec 4
deriving DecidableEq, Repr

/-- The structural sub-codes (10_state.md R28). -/
inductive Detail where
  | operatorOpcode4
  | cmpArity
  | len0Overshoot
  | zeroChildren
  | depthLimit
deriving DecidableEq, Repr

/-- The error classes (60_exceptions.md R221). Only StructuralError has a sub-code. -/
inductive ErrorClass where
  | hexDecode
  | truncatedStream
  | structural (d : Detail)
  | overflow
  | noTree
deriving DecidableEq, Repr

/-- IN_BUF (10_state.md R37) as the list of its written bytes by index. An index that is not listed is
UNWRITTEN. -/
abbrev Memory := List Host.Cell

/-- The one canonical form of a memory: indices strictly rising. No entry can equal what an unlisted index
holds, since that is no byte. -/
def Memory.wf : Memory → Bool
  | [] => true
  | [_] => true
  | c :: c' :: rest => decide (c.1 < c'.1) && Memory.wf (c' :: rest)

/-! ## The decoder's stack -/

/-- A frame of the decoder (41_packet_decode.md R141), one constructor per state of R140. A constructor
has the fields of R141 that its state has written; the others are unset there (log 8). -/
inductive Frame where
  /-- ReadHeader: nothing is set yet. -/
  | readHeader
  /-- LiteralGroupLoop: `ver`, and the value accumulated so far. -/
  | literalGroupLoop (ver : Version) (acc : Nat)
  /-- OperatorLengthModeSelect: `ver`, and `tid`, which is an opcode here. -/
  | operatorLengthModeSelect (ver : Version) (op : Opcode)
  /-- FixedBitLengthChildrenLoop: the children end at stream index `target`. -/
  | fixedBitLengthChildrenLoop (ver : Version) (op : Opcode) (target : Nat) (children : Packets)
  /-- CountedChildrenLoop: `remaining` children are still to come. -/
  | countedChildrenLoop (ver : Version) (op : Opcode) (remaining : Nat) (children : Packets)
  /-- Done: the packet is complete. -/
  | done (result : Packet)
deriving DecidableEq, Repr

/-! ## The host's side -/

/-- The registers a host write has no effect on (10_state.md R42). -/
inductive ReadOnlyReg where
  | status
  | err
  | errPos
  | result
deriving DecidableEq, Repr

/-- What the host does in one step (43_host_commands.md R204); `idle` leaves the step to the engine. A register is
reached by its name, or on the bus, at the address where BUS_MAP places it (20_memory.md R50, R60). -/
inductive HostAction where
  | idle
  | read (r : HostReg)
  | writeCmd (code : BitVec 8)
  | writeInLen (n : Nat)
  | writeInBuf (index : Nat) (v : Byte)
  | writeReadOnly (r : ReadOnlyReg) (v : Nat)
  | busRead (address : Nat)
  | busWrite (address v : Nat)
  | reset
deriving DecidableEq, Repr

/-! ## Stops -/

/-- Where the model stops with a fault. No behaviour the spec describes ends so (log 11). -/
inductive Fault where
  /-- A host access to IN_BUF at an index of IN_CAP or more, raised by the host's access. "such addresses do
  not exist" (93_implementation_defined.md entry 17). Safe: the spec gives no effect. -/
  | noSuchInputByte (index : Nat)
  /-- A frame met where the decoder never puts it: a packet form executed under a top frame that is not
  waiting for it, or a finished packet whose parent collects no children. Raised by the packet forms
  and by the Done step. No run reaches it. Safe: the spec gives no effect. -/
  | frameOutOfPlace
  /-- An Operator evaluated over a number of children its opcode gives no value for: SUM, PROD, MIN or MAX of
  none, a comparison of other than two that the arity check let pass. Raised by EVALUATE. No run reaches it
  (42_evaluate.md R166). Safe: the spec gives no value. -/
  | operandCount
deriving DecidableEq, Repr

/-- Why the model gives an instruction no meaning. -/
inductive Refusal where
  /-- The arm has no meaning yet, raised by `exec`. Safe. No arm of this model raises it. -/
  | notModelled (mnemonic : String)
deriving DecidableEq, Repr

/-! ## The state -/

/-- The complete state of PBDE: the record of 10_state.md R20 and nothing else. BITLEN is the length of `bits`
(log 16). -/
structure Block where
  /-- STATUS (10_state.md R23). -/
  status : Status
  /-- ERR (10_state.md R28). -/
  err : Err
  /-- ERR_POS (10_state.md R29). -/
  errPos : Nat
  /-- RESULT (10_state.md R35). -/
  result : Nat
  /-- IN_LEN (10_state.md R36). -/
  inLen : Nat
  /-- IN_BUF (10_state.md R37). -/
  inBuf : Memory
  /-- BITS (10_state.md R32). -/
  bits : Bits
  /-- CURSOR (10_state.md R33). -/
  cursor : Nat
  /-- TREE (10_state.md R34). -/
  tree : Option Packet
  /-- PENDING (10_state.md R20). -/
  pending : Option Command
  /-- FRAMES (10_state.md R38), the top frame FIRST. -/
  frames : List Frame
deriving DecidableEq, Repr

/-- What 10_state.md R20 does not count as state but a step reads and writes (log 20): the running command's S, and
the model's account of the host and of the draws. -/
structure Outside where
  /-- S, the input as it was when the running DECODE was accepted (20_memory.md R51; log 7). -/
  snap : List Byte
  /-- The MODEL's: the host's coming actions, one for each step (log 3). -/
  host : List HostAction
  /-- The MODEL's: what the host's latest read returned (log 4). -/
  rdata : Option Nat
  /-- The MODEL's: how many arbitrary bytes have been drawn (log 5). -/
  draws : Nat
deriving DecidableEq, Repr

/-- All that a step depends on, as its one argument (log 20): the block's state, what stands outside it, and the
parameters. `stepBlock` is the step with the three apart. -/
structure State extends Block, Outside where
  /-- The parameters of 00_scope.md R6: the argument of the model, which no step changes (log 2). -/
  par : Params
deriving DecidableEq, Repr

/-- BITLEN, the length of BITS (10_state.md R32; log 16). -/
def Block.bitlen (b : Block) : Nat := b.bits.length

/-- The block right after reset (10_state.md R41, 70_reset_and_hazards.md R250). BITS and CURSOR are unspecified
there; empty and 0 are DESIGN CHOICES (log 6), unsafe. -/
def Block.reset : Block :=
  { status := { state := .idle, treeValid := false, rejected := false, lastCmd := 0 }
    err := { code := 0, detail := 0 }
    errPos := 0
    result := 0
    inLen := 0
    inBuf := []
    bits := []
    cursor := 0
    tree := none
    pending := none
    frames := [] }

/-- Outside the block after reset. An empty S is a DESIGN CHOICE (log 7), unsafe; the model's own fields have the
values of log 3 to log 5. -/
def Outside.reset : Outside :=
  { snap := []
    host := []
    rdata := none
    draws := 0 }

/-- Right after reset: the block as 10_state.md R41 says, with the parameters it is built with (log 2, log 13). -/
def State.reset : State :=
  { Block.reset, Outside.reset with par := Config.defaultParams }

end Sys2Proof.Machine
end

