-- ==== Sys2Proof/Machine/Flags.lean ====
section
/-! DEFINITION. The words of STATUS and ERR, the codes in them, and the range check against W. PBDE has no
condition codes (10_state.md R40): these are all its flags. -/

namespace Sys2Proof.Machine

/-- The code of STATUS.STATE (10_state.md R23). -/
def RunState.code : RunState → BitVec 2
  | .idle => 0
  | .ok => 1
  | .error => 2
  | .busy => 3

/-- STATUS as the host reads it: LAST_CMD in [7:4], REJECTED in [3], TREE_VALID in [2], STATE in [1:0]
(10_state.md R23). -/
def Status.word (st : Status) : BitVec 8 :=
  st.lastCmd ++ BitVec.ofBool st.rejected ++ BitVec.ofBool st.treeValid ++ st.state.code

/-- ERR as the host reads it: DETAIL in [7:4], CODE in [3:0] (10_state.md R28). -/
def Err.word (e : Err) : BitVec 8 :=
  e.detail ++ e.code

/-- The code of a structural sub-code (10_state.md R28). -/
def Detail.code : Detail → BitVec 4
  | .operatorOpcode4 => 1
  | .cmpArity => 2
  | .len0Overshoot => 3
  | .zeroChildren => 4
  | .depthLimit => 5

/-- The code of an error class (60_exceptions.md R221, R226). -/
def ErrorClass.code : ErrorClass → BitVec 4
  | .hexDecode => 1
  | .truncatedStream => 2
  | .structural _ => 3
  | .overflow => 4
  | .noTree => 5

/-- The sub-code of an error class, 0 unless it is structural (60_exceptions.md R226). -/
def ErrorClass.detailCode : ErrorClass → BitVec 4
  | .structural d => d.code
  | .hexDecode => 0
  | .truncatedStream => 0
  | .overflow => 0
  | .noTree => 0

/-- What ERR holds after an error completion (43_host_commands.md R194). -/
def ErrorClass.toErr (e : ErrorClass) : Err :=
  { code := e.code, detail := e.detailCode }

/-- ERR after an OK completion and after reset: CODE NONE, DETAIL 0. -/
def noErr : Err :=
  { code := 0, detail := 0 }

/-- An exact value fits the width W: it is below `2^W`, or W is unbounded (42_evaluate.md R164,
41_packet_decode.md R126). -/
def fits (p : Params) (v : Nat) : Bool :=
  match p.valueWidth with
  | none => true
  | some w => decide (v < 2 ^ w)

/-- Depth `d` is within MAX_DEPTH (41_packet_decode.md R135). -/
def depthAllowed (p : Params) (d : Nat) : Bool :=
  match p.maxDepth with
  | none => true
  | some m => decide (d ≤ m)

end Sys2Proof.Machine
end

