-- ==== Sys2Proof/Machine/Ops.lean ====
section
/-! DEFINITION. The named operations over IN_BUF, the packet lists and the registers: the snapshot, accepting
and rejecting a command, ending a command with a result, and ending it with an error, which is how PBDE
takes an exception (60_exceptions.md R220, R226, R230). There is no return from an error (R231). -/

namespace Sys2Proof.Machine

/-! ## IN_BUF -/

/-- What IN_BUF holds at an index: a byte, or UNWRITTEN as `none` (10_state.md R37). -/
def Memory.read : Memory → Nat → Option Byte
  | [], _ => none
  | c :: rest, a => if c.1 = a then some c.2 else Memory.read rest a

/-- Store a byte at an index, keeping the indices rising (20_memory.md R52). -/
def Memory.write : Memory → Nat → Byte → Memory
  | [], a, v => [(a, v)]
  | c :: rest, a, v =>
    if a < c.1 then (a, v) :: c :: rest
    else if a = c.1 then (a, v) :: rest
    else c :: Memory.write rest a v

/-- Every listed index is below a bound. -/
def Memory.below (m : Memory) (n : Nat) : Bool :=
  m.all fun c => decide (c.1 < n)

/-- IN_BUF at an index, UNWRITTEN as `none`. -/
def Block.readByte (b : Block) (a : Nat) : Option Byte :=
  b.inBuf.read a

/-- A byte with an UNWRITTEN one drawn: the byte, and the draw counter after it (20_memory.md R51; log 5). -/
def settle (b : Option Byte) (draws : Nat) : Byte × Nat :=
  match b with
  | some v => (v, draws)
  | none => (Config.drawByte draws, draws + 1)

/-- Read `n` bytes of IN_BUF from index `a` upwards, once each, in increasing order (20_memory.md R51). -/
def readRun (m : Memory) : (n a draws : Nat) → List Byte × Nat
  | 0, _, draws => ([], draws)
  | n + 1, a, draws =>
    let first := settle (m.read a) draws
    let rest := readRun m n (a + 1) first.2
    (first.1 :: rest.1, rest.2)

/-- Take the snapshot S of the input (20_memory.md R51). -/
def takeSnapshot (s : State) : State :=
  let r := readRun s.inBuf s.inLen 0 s.draws
  { s with snap := r.1, draws := r.2 }

/-! ## Packet lists -/

/-- `append(cs, p)` (00_scope.md R11). -/
def Packets.snoc : Packets → Packet → Packets
  | .nil, p => .cons p .nil
  | .cons q qs, p => .cons q (Packets.snoc qs p)

/-- `len(cs)` (00_scope.md R11). -/
def Packets.length : Packets → Nat
  | .nil => 0
  | .cons _ ps => Packets.length ps + 1

mutual

/-- The number of packets in a tree. -/
def Packet.size : Packet → Nat
  | .lit _ _ => 1
  | .op _ _ cs => Packets.size cs + 1

/-- The number of packets in a sequence of trees. -/
def Packets.size : Packets → Nat
  | .nil => 0
  | .cons p ps => Packet.size p + Packets.size ps

end

/-! ## Accepting and rejecting (43_host_commands.md R190 to R192) -/

/-- Reject a host write: set REJECTED and change nothing else (10_state.md R26). -/
def Block.reject (b : Block) : Block :=
  { b with status := { b.status with rejected := true } }

/-- A rejection changes the block only. -/
def reject (s : State) : State :=
  { s with toBlock := s.toBlock.reject }

/-- Accept a command (43_host_commands.md R191). A DECODE discards the old tree at once. -/
def Block.accept (c : Command) (b : Block) : Block :=
  let b' := { b with
    status := { b.status with state := .busy, rejected := false, lastCmd := c.code.setWidth 4 }
    pending := some c }
  match c with
  | .decode => { b' with tree := none, status := { b'.status with treeValid := false } }
  | .sumVersions => b'
  | .evaluate => b'

/-- Accept a command; a DECODE takes the snapshot at once (43_host_commands.md R191). -/
def accept (c : Command) (s : State) : State :=
  let s' := { s with toBlock := s.toBlock.accept c }
  match c with
  | .decode => takeSnapshot s'
  | .sumVersions => s'
  | .evaluate => s'

/-! ## Completing (43_host_commands.md R194) -/

/-- `complete_ok(result)`: all outputs at once. -/
def Block.completeOk (r : Nat) (b : Block) : Block :=
  { b with
    err := noErr
    errPos := 0
    result := r
    status := { b.status with state := .ok }
    pending := none }

/-- A completion changes the block only. -/
def completeOk (r : Nat) (s : State) : State :=
  { s with toBlock := s.toBlock.completeOk r }

/-- `raise E(detail, pos)`, the one way an error is taken: `complete_error` (43_host_commands.md R194,
60_exceptions.md R226). FRAMES is discarded (41_packet_decode.md R151). TREE stays as it is: NONE in a
DECODE, kept in a query (60_exceptions.md R227). -/
def Block.raise (e : ErrorClass) (pos : Nat) (b : Block) : Block :=
  { b with
    err := e.toErr
    errPos := pos
    result := 0
    status := { b.status with state := .error }
    pending := none
    frames := [] }

/-- Taking an error changes the block only. -/
def raise (e : ErrorClass) (pos : Nat) (s : State) : State :=
  { s with toBlock := s.toBlock.raise e pos }

/-- A DECODE that succeeds: TREE and TREE_VALID are written in the completion event
(43_host_commands.md R195). -/
def Block.completeDecode (p : Packet) (b : Block) : Block :=
  let b' := b.completeOk b.cursor
  { b' with tree := some p, status := { b'.status with treeValid := true }, frames := [] }

/-- A DECODE's completion changes the block only. -/
def completeDecode (p : Packet) (s : State) : State :=
  { s with toBlock := s.toBlock.completeDecode p }

/-! ## Reset (70_reset_and_hazards.md R250, R251) -/

/-- The reset event: the block's state takes its reset value, and no S is left of an aborted DECODE. The
parameters, the host's own side and the draw counter are not the block's state and stay (log 18). -/
def resetEvent (s : State) : State :=
  { s with toBlock := Block.reset, snap := [] }

end Sys2Proof.Machine
end

