-- ==== Sys2Proof/Machine/Operands.lean ====
section
/-! DEFINITION. The operands of a packet: the bit reader's fixed-width read (40_conversion_and_reader.md
section 2), the only way a field of the stream is read. -/

namespace Sys2Proof.Machine

/-- `read_bits(n)` at a stream index: the big-endian value of the next `n` bits, `none` when fewer are
left (40_conversion_and_reader.md R105, R106). -/
def readAt (bits : Bits) (cursor n : Nat) : Option Nat :=
  if bits.length < cursor + n then none
  else some (natOfBits ((bits.drop cursor).take n))

/-- `read_bits(n)` on the state: the value, and the state with CURSOR advanced; `none` is the truncation, which
leaves CURSOR where it is (40_conversion_and_reader.md R105, R106). -/
def readBits (n : Nat) (s : State) : Option (Nat × State) :=
  match readAt s.bits s.cursor n with
  | none => none
  | some v => some (v, { s with cursor := s.cursor + n })

/-- The truncation a failing read raises, at the CURSOR of that read (40_conversion_and_reader.md R106). -/
def raiseTruncated (s : State) : State :=
  raise .truncatedStream s.cursor s

end Sys2Proof.Machine
end

