-- ==== Sys2Proof/Machine/Convert.lean ====
section
/-! DEFINITION. The Hex-to-Bit Converter over the snapshot S (40_conversion_and_reader.md section 1,
30_encoding.md section 1). -/

namespace Sys2Proof.Machine

/-- The whitespace set WS (40_conversion_and_reader.md R100). -/
def isSpace (b : Byte) : Bool :=
  (decide (0x09 ≤ b.toNat) && decide (b.toNat ≤ 0x0D)) || decide (b.toNat = 0x20)

/-- The value of a hex digit; `none` for every other byte (30_encoding.md R70). -/
def hexval (b : Byte) : Option Nat :=
  let c := b.toNat
  if 0x30 ≤ c ∧ c ≤ 0x39 then some (c - 0x30)
  else if 0x41 ≤ c ∧ c ≤ 0x46 then some (c - 0x41 + 10)
  else if 0x61 ≤ c ∧ c ≤ 0x66 then some (c - 0x61 + 10)
  else none

/-- How many whitespace bytes a text begins with: the index `a` of TRIM (40_conversion_and_reader.md R100). -/
def leadingSpaces (S : List Byte) : Nat :=
  (S.takeWhile isSpace).length

/-- The trimmed region `S[a .. b)`: whitespace removed from both ends and nowhere else
(40_conversion_and_reader.md R100). -/
def trimmed (S : List Byte) : List Byte :=
  ((S.dropWhile isSpace).reverse.dropWhile isSpace).reverse

/-- HEXCHECK and CONVERT of a region that starts at IN_BUF index `j`: its bits, four for each digit, most
significant first, or the index of its first byte that is no hex digit
(40_conversion_and_reader.md R101, R102). -/
def convertFrom : (j : Nat) → List Byte → Except Nat Bits
  | _, [] => .ok []
  | j, b :: rest =>
    match hexval b with
    | none => .error j
    | some d =>
      match convertFrom (j + 1) rest with
      | .error e => .error e
      | .ok bs => .ok (bitsOfNat 4 d ++ bs)

/-- TRIM, HEXCHECK and CONVERT of a snapshot (40_conversion_and_reader.md R100 to R103). -/
def convertInput (S : List Byte) : Except Nat Bits :=
  convertFrom (leadingSpaces S) (trimmed S)

/-- The start of a DECODE: convert the snapshot, set CURSOR to 0 and open the outermost packet's frame
(40_conversion_and_reader.md R103, R104, 41_packet_decode.md R142); a bad byte ends the DECODE with
HEX_DECODE at its index (R101). -/
def startDecode (s : State) : State :=
  match convertInput s.snap with
  | .error j => raise .hexDecode j s
  | .ok bs => { s with bits := bs, cursor := 0, frames := [.readHeader] }

end Sys2Proof.Machine
end

