-- ==== Sys2Proof/Machine/Framing.lean ====
section
/-! DEFINITION. The decoder's micro-steps on the top frame (41_packet_decode.md R143 to R151), shared by the
packet forms. In each, `fs` is what lies under the top frame. -/

namespace Sys2Proof.Machine

/-- The outcome type of a step of PBDE. -/
abbrev Result := Host.Outcome State Fault Refusal

/-- The step in ReadHeader (41_packet_decode.md R143): V and T, then the state they select. -/
def headerStep (fs : List Frame) (s : State) : State :=
  match readBits 3 s with
  | none => raiseTruncated s
  | some (v, s1) =>
    match readBits 3 s1 with
    | none => raiseTruncated s1
    | some (t, s2) =>
      match Opcode.ofTypeId (BitVec.ofNat 3 t) with
      | none => { s2 with frames := .literalGroupLoop (BitVec.ofNat 3 v) 0 :: fs }
      | some op => { s2 with frames := .operatorLengthModeSelect (BitVec.ofNat 3 v) op :: fs }

/-- The step in LiteralGroupLoop (41_packet_decode.md R144): one group, its continuation bit and its
nibble read separately (R123), and the overflow check on the exact value (R126). -/
def literalGroup (ver : Version) (acc : Nat) (fs : List Frame) (s : State) : State :=
  match readBits 1 s with
  | none => raiseTruncated s
  | some (c, s1) =>
    match readBits 4 s1 with
    | none => raiseTruncated s1
    | some (g, s2) =>
      if fits s.par (16 * acc + g) then
        if c = 0 then { s2 with frames := .done (.lit ver (16 * acc + g)) :: fs }
        else { s2 with frames := .literalGroupLoop ver (16 * acc + g) :: fs }
      else raise .overflow s2.cursor s2

/-- OperatorLengthModeSelect with `I = 0` (41_packet_decode.md R145, R128, R130): past I and L, `target` is
CURSOR + L. -/
def openByLength (op : Opcode) (ver : Version) (len : LenField) (s : State) : Result :=
  match s.frames with
  | .operatorLengthModeSelect _ _ :: fs =>
    let here := s.cursor + 16
    .next { s with
      cursor := here
      frames := .fixedBitLengthChildrenLoop ver op (here + len.toNat) .nil :: fs }
  | _ => .fault .frameOutOfPlace

/-- OperatorLengthModeSelect with `I = 1` (41_packet_decode.md R145, R129): past I and N, N children are to
come. -/
def openByCount (op : Opcode) (ver : Version) (count : CountField) (s : State) : Result :=
  match s.frames with
  | .operatorLengthModeSelect _ _ :: fs =>
    .next { s with
      cursor := s.cursor + 12
      frames := .countedChildrenLoop ver op count.toNat .nil :: fs }
  | _ => .fault .frameOutOfPlace

/-- Push a child (41_packet_decode.md R148): the depth check of R135, then a new frame on top. -/
def pushChild (s : State) : State :=
  if depthAllowed s.par (s.frames.length + 1) then { s with frames := .readHeader :: s.frames }
  else raise (.structural .depthLimit) s.cursor s

/-- Complete a frame (41_packet_decode.md R149): ZERO_CHILDREN first, then CMP_ARITY when it is DECODE's to
check. -/
def completeFrame (ver : Version) (op : Opcode) (children : Packets) (fs : List Frame)
    (s : State) : State :=
  if children = .nil then raise (.structural .zeroChildren) s.cursor s
  else if s.par.arityStage = .decode ∧ op.isComparison ∧ children.length ≠ 2 then
    raise (.structural .cmpArity) s.cursor s
  else { s with frames := .done (.op ver op.code children) :: fs }

/-- The step in FixedBitLengthChildrenLoop (41_packet_decode.md R146). -/
def lengthLoop (ver : Version) (op : Opcode) (target : Nat) (children : Packets)
    (fs : List Frame) (s : State) : State :=
  if s.cursor < target then pushChild s else completeFrame ver op children fs s

/-- The step in CountedChildrenLoop (41_packet_decode.md R147). -/
def countLoop (ver : Version) (op : Opcode) (remaining : Nat) (children : Packets)
    (fs : List Frame) (s : State) : State :=
  if 0 < remaining then pushChild s else completeFrame ver op children fs s

/-- The step in Done (41_packet_decode.md R150): leave the frame. The outermost packet ends the DECODE;
any other goes to its parent, which under length type 0 checks for overshoot. -/
def leaveFrame (p : Packet) (fs : List Frame) (s : State) : Result :=
  match fs with
  | [] => .next (completeDecode p s)
  | .fixedBitLengthChildrenLoop v op target cs :: gs =>
    if target < s.cursor then .next (raise (.structural .len0Overshoot) s.cursor s)
    else .next { s with frames := .fixedBitLengthChildrenLoop v op target (cs.snoc p) :: gs }
  | .countedChildrenLoop v op remaining cs :: gs =>
    .next { s with frames := .countedChildrenLoop v op (remaining - 1) (cs.snoc p) :: gs }
  | _ => .fault .frameOutOfPlace

end Sys2Proof.Machine
end

