-- ==== Sys2Proof/Machine/Arithmetic.lean ====
section
/-! DEFINITION. SUM and PROD: their value rules (42_evaluate.md R170, R171), exact, and their two packet forms
each (41_packet_decode.md R127 to R130). The overflow check on the exact value is EVALUATE's (R164). -/

namespace Sys2Proof.Machine

/-- The value of SUM; of no children it has none (42_evaluate.md R170, R166 (c); log 11). -/
def sumValue : List Nat → Option Nat
  | [] => none
  | x :: xs => some (xs.foldl (fun r y => r + y) x)

/-- The value of PROD; of no children it has none (42_evaluate.md R171, R166 (c); log 11). -/
def prodValue : List Nat → Option Nat
  | [] => none
  | x :: xs => some (xs.foldl (fun r y => r * y) x)

/-- SUM.LEN: open a SUM whose children fill `len` bits. Its value rule is `sumValue`. -/
def execSumLen (ver : Version) (len : LenField) (s : State) : Result :=
  openByLength .sum ver len s

/-- SUM.CNT: open a SUM of `count` children. Its value rule is `sumValue`. -/
def execSumCnt (ver : Version) (count : CountField) (s : State) : Result :=
  openByCount .sum ver count s

/-- PROD.LEN: open a PROD whose children fill `len` bits. Its value rule is `prodValue`. -/
def execProdLen (ver : Version) (len : LenField) (s : State) : Result :=
  openByLength .prod ver len s

/-- PROD.CNT: open a PROD of `count` children. Its value rule is `prodValue`. -/
def execProdCnt (ver : Version) (count : CountField) (s : State) : Result :=
  openByCount .prod ver count s

end Sys2Proof.Machine
end

