-- ==== Sys2Proof/Machine/Comparison.lean ====
section
/-! DEFINITION. GT, LT and EQ: their value rules (42_evaluate.md R174 to R176) and their two packet forms each
(41_packet_decode.md R127 to R130). -/

namespace Sys2Proof.Machine

/-- The value of GT; of other than two children it has none (42_evaluate.md R174). -/
def gtValue : List Nat → Option Nat
  | [x, y] => some (if y < x then 1 else 0)
  | _ => none

/-- The value of LT; of other than two children it has none (42_evaluate.md R175). -/
def ltValue : List Nat → Option Nat
  | [x, y] => some (if x < y then 1 else 0)
  | _ => none

/-- The value of EQ; of other than two children it has none (42_evaluate.md R176). -/
def eqValue : List Nat → Option Nat
  | [x, y] => some (if x = y then 1 else 0)
  | _ => none

/-- GT.LEN: open a GT whose children fill `len` bits. Its value rule is `gtValue`. -/
def execGtLen (ver : Version) (len : LenField) (s : State) : Result :=
  openByLength .gt ver len s

/-- GT.CNT: open a GT of `count` children. Its value rule is `gtValue`. -/
def execGtCnt (ver : Version) (count : CountField) (s : State) : Result :=
  openByCount .gt ver count s

/-- LT.LEN: open an LT whose children fill `len` bits. Its value rule is `ltValue`. -/
def execLtLen (ver : Version) (len : LenField) (s : State) : Result :=
  openByLength .lt ver len s

/-- LT.CNT: open an LT of `count` children. Its value rule is `ltValue`. -/
def execLtCnt (ver : Version) (count : CountField) (s : State) : Result :=
  openByCount .lt ver count s

/-- EQ.LEN: open an EQ whose children fill `len` bits. Its value rule is `eqValue`. -/
def execEqLen (ver : Version) (len : LenField) (s : State) : Result :=
  openByLength .eq ver len s

/-- EQ.CNT: open an EQ of `count` children. Its value rule is `eqValue`. -/
def execEqCnt (ver : Version) (count : CountField) (s : State) : Result :=
  openByCount .eq ver count s

end Sys2Proof.Machine
end

