-- ==== Sys2Proof/Machine/Extrema.lean ====
section
/-! DEFINITION. MIN and MAX: their value rules (42_evaluate.md R172, R173) and their two packet forms each
(41_packet_decode.md R127 to R130). -/

namespace Sys2Proof.Machine

/-- The value of MIN; of no children it has none (42_evaluate.md R172, R166 (c)). -/
def minValue : List Nat → Option Nat
  | [] => none
  | x :: xs => some (xs.foldl (fun r y => if y < r then y else r) x)

/-- The value of MAX; of no children it has none (42_evaluate.md R173, R166 (c)). -/
def maxValue : List Nat → Option Nat
  | [] => none
  | x :: xs => some (xs.foldl (fun r y => if r < y then y else r) x)

/-- MIN.LEN: open a MIN whose children fill `len` bits. Its value rule is `minValue`. -/
def execMinLen (ver : Version) (len : LenField) (s : State) : Result :=
  openByLength .min ver len s

/-- MIN.CNT: open a MIN of `count` children. Its value rule is `minValue`. -/
def execMinCnt (ver : Version) (count : CountField) (s : State) : Result :=
  openByCount .min ver count s

/-- MAX.LEN: open a MAX whose children fill `len` bits. Its value rule is `maxValue`. -/
def execMaxLen (ver : Version) (len : LenField) (s : State) : Result :=
  openByLength .max ver len s

/-- MAX.CNT: open a MAX of `count` children. Its value rule is `maxValue`. -/
def execMaxCnt (ver : Version) (count : CountField) (s : State) : Result :=
  openByCount .max ver count s

end Sys2Proof.Machine
end

