-- ==== Sys2Proof/Machine/Literal.lean ====
section
/-! DEFINITION. LIT (41_packet_decode.md R122, R144; 42_evaluate.md R169). -/

namespace Sys2Proof.Machine

/-- LIT: a group of the Literal that the top frame is reading (41_packet_decode.md R122 to R126, R144). The
step repeats it until the group whose continuation bit is 0. -/
def execLit (ver : Version) (s : State) : Result :=
  match s.frames with
  | .literalGroupLoop _ acc :: fs => .next (literalGroup ver acc fs s)
  | _ => .fault .frameOutOfPlace

end Sys2Proof.Machine
end

