-- ==== Sys2Proof/Machine/Evaluate.lean ====
section
/-! DEFINITION. The two traversals of a tree: the version sum (42_evaluate.md section 1) and the value
(sections 2 and 3). -/

namespace Sys2Proof.Machine

mutual

/-- `sum_of_versions(p)` (42_evaluate.md R160). -/
def sumOfVersions : Packet → Nat
  | .lit v _ => v.toNat
  | .op v _ cs => v.toNat + sumOfVersionsAll cs

/-- The version sums of a sequence of packets, added up. -/
def sumOfVersionsAll : Packets → Nat
  | .nil => 0
  | .cons p ps => sumOfVersions p + sumOfVersionsAll ps

end

/-- OPFN: the exact value of an opcode over its children's values, in order (42_evaluate.md R165, R170 to
R176); `none` where the rules give the opcode no value for that many children: none at all, or, for a
comparison, other than two (log 11). -/
def opValue : Opcode → List Nat → Option Nat
  | .sum, xs => sumValue xs
  | .prod, xs => prodValue xs
  | .min, xs => minValue xs
  | .max, xs => maxValue xs
  | .gt, xs => gtValue xs
  | .lt, xs => ltValue xs
  | .eq, xs => eqValue xs

/-- How an evaluation ends without a value: an error with its pre-order index (42_evaluate.md R167), or an
Operator its rules give no value, which is in no tree a DECODE builds (R166). -/
inductive EvalStop where
  | raised (e : ErrorClass) (pos : Nat)
  | noValue
deriving DecidableEq, Repr

mutual

/-- `evaluate(p)` for the packet with pre-order index `idx` (42_evaluate.md R164 to R169): the node checks,
then the children in order, then the combination and the overflow check. -/
def evaluate (par : Params) (idx : Nat) : Packet → Except EvalStop Nat
  | .lit _ val => .ok val
  | .op _ t cs =>
    match Opcode.ofTypeId t with
    | none => .error (.raised (.structural .operatorOpcode4) idx)
    | some op =>
      if par.arityStage = .evaluate ∧ op.isComparison ∧ cs.length ≠ 2 then
        .error (.raised (.structural .cmpArity) idx)
      else
        match evaluateAll par (idx + 1) cs with
        | .error e => .error e
        | .ok xs =>
          match opValue op xs with
          | none => .error .noValue
          | some r => if fits par r then .ok r else .error (.raised .overflow idx)

/-- Evaluate a sequence of packets left to right, the first having pre-order index `idx`
(42_evaluate.md R167, R168). -/
def evaluateAll (par : Params) (idx : Nat) : Packets → Except EvalStop (List Nat)
  | .nil => .ok []
  | .cons p ps =>
    match evaluate par idx p with
    | .error e => .error e
    | .ok x =>
      match evaluateAll par (idx + p.size) ps with
      | .error e => .error e
      | .ok xs => .ok (x :: xs)

end

end Sys2Proof.Machine
end

