-- ==== Sys2Proof/Machine/Commands.lean ====
section
/-! DEFINITION. The work of the three commands once accepted (43_host_commands.md R195 to R197). -/

namespace Sys2Proof.Machine

/-- DECODE (43_host_commands.md R195): its conversion and the opening of the outermost packet. The
micro-steps on the frames follow (41_packet_decode.md R142). -/
def execDecode (s : State) : Result :=
  .next (startDecode s)

/-- SUM_VERSIONS (43_host_commands.md R196, R199). -/
def execSumVersions (s : State) : Result :=
  match s.tree with
  | none => .next (raise .noTree 0 s)
  | some p => .next (completeOk (sumOfVersions p) s)

/-- EVALUATE (43_host_commands.md R197, R199). -/
def execEvaluate (s : State) : Result :=
  match s.tree with
  | none => .next (raise .noTree 0 s)
  | some p =>
    match evaluate s.par 0 p with
    | .ok v => .next (completeOk v s)
    | .error (.raised e pos) => .next (raise e pos s)
    | .error .noValue => .fault .operandCount

end Sys2Proof.Machine
end

