-- ==== Sys2Proof/Machine/Dispatch.lean ====
section
/-! DEFINITION. The dispatch: one arm per constructor of `Instr`, each one call of its meaning. -/

namespace Sys2Proof.Machine

def exec (i : Instr) (s : State) : Host.Outcome State Fault Refusal :=
  match i with
  | .lit ver => Sys2Proof.Machine.execLit ver s
  | .sumLen ver len => Sys2Proof.Machine.execSumLen ver len s
  | .sumCnt ver count => Sys2Proof.Machine.execSumCnt ver count s
  | .prodLen ver len => Sys2Proof.Machine.execProdLen ver len s
  | .prodCnt ver count => Sys2Proof.Machine.execProdCnt ver count s
  | .minLen ver len => Sys2Proof.Machine.execMinLen ver len s
  | .minCnt ver count => Sys2Proof.Machine.execMinCnt ver count s
  | .maxLen ver len => Sys2Proof.Machine.execMaxLen ver len s
  | .maxCnt ver count => Sys2Proof.Machine.execMaxCnt ver count s
  | .gtLen ver len => Sys2Proof.Machine.execGtLen ver len s
  | .gtCnt ver count => Sys2Proof.Machine.execGtCnt ver count s
  | .ltLen ver len => Sys2Proof.Machine.execLtLen ver len s
  | .ltCnt ver count => Sys2Proof.Machine.execLtCnt ver count s
  | .eqLen ver len => Sys2Proof.Machine.execEqLen ver len s
  | .eqCnt ver count => Sys2Proof.Machine.execEqCnt ver count s
  | .decode => Sys2Proof.Machine.execDecode s
  | .sumVersions => Sys2Proof.Machine.execSumVersions s
  | .evaluate => Sys2Proof.Machine.execEvaluate s

end Sys2Proof.Machine
end

