-- ==== Sys2Proof/Machine/Fetch.lean ====
section
/-! DEFINITION. What a step does before it executes an instruction: the host's accesses
(43_host_commands.md R190, R201 to R204), and the engine's fetch, which finds in PENDING and in the top
frame the instruction to execute, or a micro-step that is no instruction's own. -/

namespace Sys2Proof.Machine

/-! ## Host accesses -/

/-- STATUS.STATE is BUSY. -/
def Block.isBusy (b : Block) : Bool :=
  decide (b.status.state = .busy)

/-- A host write to CMD: accepted or rejected (43_host_commands.md R190 to R192). -/
def writeCmd (code : BitVec 8) (s : State) : State :=
  if s.isBusy then reject s
  else
    match decodeCommand code with
    | .error _ => reject s
    | .ok c => accept c s

/-- A host write to IN_LEN (43_host_commands.md R201). -/
def writeInLen (n : Nat) (s : State) : State :=
  if s.isBusy then reject s
  else if n ≤ s.par.inCap then { s with inLen := n }
  else reject s

/-- A host write to IN_BUF at an index below IN_CAP (43_host_commands.md R202). -/
def writeInBuf (a : Nat) (v : Byte) (s : State) : State :=
  if s.isBusy then reject s
  else { s with inBuf := s.inBuf.write a v }

/-- The value a register shows the host, and the draw counter after it (43_host_commands.md R203, 10_state.md
R42). A read of an UNWRITTEN byte of IN_BUF returns a drawn byte (log 5). -/
def readReg (r : HostReg) (s : State) : Nat × Nat :=
  match r with
  | .cmd => (0, s.draws)
  | .status => (s.status.word.toNat, s.draws)
  | .err => (s.err.word.toNat, s.draws)
  | .errPos => (s.errPos, s.draws)
  | .result => (s.result, s.draws)
  | .inLen => (s.inLen, s.draws)
  | .inBuf a =>
    let b := settle (s.readByte a) s.draws
    (b.1.toNat, b.2)

/-- A host read: the value goes to the host and no state of the block changes (43_host_commands.md R203). -/
def hostRead (r : HostReg) (s : State) : State :=
  let v := readReg r s
  { s with rdata := some v.1, draws := v.2 }

/-- A host write of a number to a register as a whole (43_host_commands.md R190, R201, R202,
70_reset_and_hazards.md R266). DESIGN CHOICE (log 13), unsafe: where the number is wider than the register, CMD and
a byte of IN_BUF take its low 8 bits, and IN_LEN takes all of it, for R201 to judge. -/
def writeReg (r : HostReg) (v : Nat) (s : State) : State :=
  match r with
  | .cmd => writeCmd (BitVec.ofNat 8 v) s
  | .inLen => writeInLen v s
  | .inBuf a => writeInBuf a (BitVec.ofNat 8 v) s
  | .status => s
  | .err => s
  | .errPos => s
  | .result => s

/-- What the platform places at a bus address; `none` is an address that is not PBDE's. Of several windows at one
address the first one counts (log 13). -/
def busWindow (m : BusMap) (address : Nat) : Option BusWindow :=
  m.windows.find? fun w => decide (w.address = address)

/-- How many bits an access through a window carries: its access size, and no more than the bus is wide. -/
def busCarried (m : BusMap) (w : BusWindow) : Nat :=
  min w.size m.width

/-- A host read on the bus: the part of the register that BUS_MAP places at the address (20_memory.md R56). At an
address that is not PBDE's it is no access of the block, and no value of the block's is read (log 13). DESIGN CHOICE
(log 13), unsafe: nothing is latched, so that each part of a register read in several accesses is of the value the
register has at that access. -/
def busRead (address : Nat) (s : State) : State :=
  match busWindow s.par.busMap address with
  | none => { s with rdata := none }
  | some w =>
    let v := readReg w.reg s
    { s with rdata := some (v.1 / 2 ^ w.lo % 2 ^ busCarried s.par.busMap w), draws := v.2 }

/-- A host write on the bus: a write of the register that BUS_MAP places at the address, as a whole (20_memory.md
R57), the bits that the access does not carry being 0. At an address that is not PBDE's it is no access of the
block (log 13). -/
def busWrite (address v : Nat) (s : State) : State :=
  match busWindow s.par.busMap address with
  | none => s
  | some w => writeReg w.reg (v % 2 ^ busCarried s.par.busMap w * 2 ^ w.lo) s

/-- The IN_BUF index of a register, if it is a byte of IN_BUF. -/
def regIndex : HostReg → Option Nat
  | .inBuf a => some a
  | .cmd => none
  | .status => none
  | .err => none
  | .errPos => none
  | .result => none
  | .inLen => none

/-- The IN_BUF index a host action reaches, if it reaches one. -/
def HostAction.index (m : BusMap) : HostAction → Option Nat
  | .idle => none
  | .read r => regIndex r
  | .writeCmd _ => none
  | .writeInLen _ => none
  | .writeInBuf a _ => some a
  | .writeReadOnly _ _ => none
  | .busRead address => (busWindow m address).bind fun w => regIndex w.reg
  | .busWrite address _ => (busWindow m address).bind fun w => regIndex w.reg
  | .reset => none

/-- The effect of a host access that exists. `idle` is none; a write to a read-only register has no effect
(10_state.md R42, 70_reset_and_hazards.md R266). -/
def hostEffect (a : HostAction) (s : State) : State :=
  match a with
  | .idle => s
  | .read r => hostRead r s
  | .writeCmd c => writeCmd c s
  | .writeInLen n => writeInLen n s
  | .writeInBuf i v => writeInBuf i v s
  | .writeReadOnly _ _ => s
  | .busRead address => busRead address s
  | .busWrite address v => busWrite address v s
  | .reset => resetEvent s

/-- A host access (43_host_commands.md R204). One to an IN_BUF index of IN_CAP or more does not exist
(10_state.md R37; log 11). -/
def hostAccess (a : HostAction) (s : State) : Result :=
  match a.index s.par.busMap with
  | none => .next (hostEffect a s)
  | some i => if i < s.par.inCap then .next (hostEffect a s) else .fault (.noSuchInputByte i)

/-! ## The engine -/

/-- What the engine's turn is. -/
inductive Turn where
  /-- Execute this instruction. -/
  | run (i : Instr)
  /-- A step that is no instruction's own. -/
  | internal (r : Result)

/-- The turn of a decoder whose top frame is `f` (41_packet_decode.md R140). A LIT is fetched with its header
read, at each group; an Operator form is fetched where its bit I and its L or N are next in the
stream (R145; log 9). A stream that ends inside them raises the truncation at the failing read, and the hidden
CURSOR is left there: past I when it is L or N that is cut (DESIGN CHOICE, log 12). -/
def frameTurn (f : Frame) (fs : List Frame) (s : State) : Turn :=
  match f with
  | .readHeader => .internal (.next (headerStep fs s))
  | .literalGroupLoop ver _ => .run (.lit ver)
  | .operatorLengthModeSelect ver op =>
    match decodeForm ver op.code (s.bits.drop s.cursor) with
    | .ok i => .run i
    | .error (.truncated off) =>
      .internal (.next (raiseTruncated { s with cursor := s.cursor + off - 6 }))
    | .error (.reservedCommand _) => .internal (.fault .frameOutOfPlace)
  | .fixedBitLengthChildrenLoop ver op target cs => .internal (.next (lengthLoop ver op target cs fs s))
  | .countedChildrenLoop ver op remaining cs => .internal (.next (countLoop ver op remaining cs fs s))
  | .done p => .internal (leaveFrame p fs s)

/-- The engine's turn: nothing when no command is pending (60_exceptions.md R245); the running DECODE's next
micro-step; else the work of the command in PENDING (43_host_commands.md R204). -/
def engineTurn (s : State) : Turn :=
  match s.pending with
  | none => .internal (.next s)
  | some .decode =>
    match s.frames with
    | [] => .run .decode
    | f :: fs => frameTurn f fs s
  | some .sumVersions => .run .sumVersions
  | some .evaluate => .run .evaluate

/-! ## Placing an instruction -/

/-- Place an encoded instruction where the engine fetches its next one, with no host access coming (log 9,
log 10). A command: accepted into PENDING (43_host_commands.md R191), or, when its code is reserved, the
host's next access. A packet: at the front of BITS with zeros after it, in a DECODE that has read its
header (41_packet_decode.md R143). -/
def placeEncoded (e : Encoded) (s : State) : State :=
  match e with
  | .cmd code =>
    match decodeCommand code with
    | .ok c => accept c { s with host := [], frames := [] }
    | .error _ => { s with host := [.writeCmd code] }
  | .stream bs =>
    headerStep [] { s with
      host := []
      status := { s.status with state := .busy }
      pending := some .decode
      bits := bs ++ List.replicate 22 false
      cursor := 0 }

end Sys2Proof.Machine
end

