-- ==== Sys2Proof/Machine/Step.lean ====
section
/-! DEFINITION. One step of PBDE: a host access, or the engine's turn (43_host_commands.md R204,
41_packet_decode.md R140). -/

namespace Sys2Proof.Machine

/-- The engine's turn as a step. -/
def engineStep (s : State) : Host.Outcome State Fault Refusal :=
  match engineTurn s with
  | .run i => exec i s
  | .internal r => r

/-- One step. It takes the next host action; `idle`, or having none, gives the step to the engine (log 3). -/
def step (s : State) : Host.Outcome State Fault Refusal :=
  match s.host with
  | [] => engineStep s
  | .idle :: rest => engineStep { s with host := rest }
  | a :: rest => hostAccess a { s with host := rest }

/-- The same step as 10_state.md R20 has it: the state is the block's record, the parameters are an argument
(00_scope.md R6), and what stands outside the block comes and goes beside it (log 20). -/
def stepBlock (par : Params) (o : Outside) (b : Block) : Host.Outcome (Block × Outside) Fault Refusal :=
  match step { b, o with par := par } with
  | .next t => .next (t.toBlock, t.toOutside)
  | .fault r => .fault r
  | .refused r => .refused r

/-- The state with a word of the opcode table placed where the very next step runs it (log 9, log 10). -/
def State.withFetchWord (s : State) (nbits w : Nat) : State :=
  placeEncoded (tableWord nbits w) s

end Sys2Proof.Machine
end

