-- ==== Sys2Proof/Machine/Assembly.lean ====
section
/-! DEFINITION. The packet assembly of 30_encoding.md R85 as abstract syntax: the bits, the padded stream and
the hex text it stands for, and the packet it describes. -/

namespace Sys2Proof.Machine

mutual

/-- A packet of the assembly notation (30_encoding.md R85). `none` in `groups`, `len` and `count` is the
absent `groups=`, `L=` and `N=`. -/
inductive Asm where
  | lit (ver : Version) (value : Nat) (groups : Option Nat)
  | opl (op : Opcode) (ver : Version) (len : Option LenField) (children : Asms)
  | opc (op : Opcode) (ver : Version) (count : Option CountField) (children : Asms)
deriving DecidableEq, Repr

/-- The children of an assembled Operator. -/
inductive Asms where
  | nil
  | cons (first : Asm) (rest : Asms)
deriving DecidableEq, Repr

end

/-- The fewest groups that hold a value: `max(1, ceil(bitlength(VALUE) / 4))` (30_encoding.md R85). -/
def fewestGroups (value : Nat) : Nat :=
  if value = 0 then 1 else Nat.log2 value / 4 + 1

/-- `g` groups of a value, most significant nibble first, the last with `C = 0` (30_encoding.md R74). DESIGN CHOICE
(log 17): of a value that needs more groups than `g`, the `g` low nibbles; no groups when `g` is 0. -/
def groupBits : (g value : Nat) → Bits
  | 0, _ => []
  | k + 1, value => decide (0 < k) :: bitsOfNat 4 (value / 16 ^ k) ++ groupBits k value

/-- How many children are written. -/
def Asms.length : Asms → Nat
  | .nil => 0
  | .cons _ as => Asms.length as + 1

mutual

/-- The bits of an assembled packet (30_encoding.md R85). DESIGN CHOICE (log 17): an absent `L=` or `N=` whose number
is too large for its field leaves the number's low bits in the field. -/
def Asm.bits : Asm → Bits
  | .lit v value groups => headerBits v 4 ++ groupBits (groups.getD (fewestGroups value)) value
  | .opl op v len cs =>
    let body := Asms.bits cs
    oplBits op v (len.getD (BitVec.ofNat 15 body.length)) ++ body
  | .opc op v count cs => opcBits op v (count.getD (BitVec.ofNat 11 cs.length)) ++ Asms.bits cs

/-- The bits of a sequence of assembled packets, one after another. -/
def Asms.bits : Asms → Bits
  | .nil => []
  | .cons a as => Asm.bits a ++ Asms.bits as

end

mutual

/-- The packet an assembled packet describes. -/
def Asm.packet : Asm → Packet
  | .lit v value _ => .lit v value
  | .opl op v _ cs => .op v op.code (Asms.packets cs)
  | .opc op v _ cs => .op v op.code (Asms.packets cs)

/-- The packets a sequence of assembled packets describes. -/
def Asms.packets : Asms → Packets
  | .nil => .nil
  | .cons a as => .cons (Asm.packet a) (Asms.packets as)

end

/-- The padding of a stream: `P` bits of 0, by default the fewest that fill the last hex digit
(30_encoding.md R85). -/
def padBits (used : Nat) (pad : Option Nat) : Bits :=
  List.replicate (pad.getD ((4 - used % 4) % 4)) false

/-- The bits of an assembled stream: the outermost packet, then its padding (30_encoding.md R85). -/
def Asm.stream (a : Asm) (pad : Option Nat) : Bits :=
  a.bits ++ padBits a.bits.length pad

/-- The upper-case character of a digit value below 16 (30_encoding.md R70, R85). -/
def hexChar (d : Nat) : Byte :=
  if d < 10 then BitVec.ofNat 8 (0x30 + d) else BitVec.ofNat 8 (0x41 + (d - 10))

/-- A bit string as hex characters, four bits each (30_encoding.md R85). DESIGN CHOICE (log 17): bits short of a whole
digit, which an explicit `pad P` can leave, give no character. -/
def hexText : Bits → List Byte
  | a :: b :: c :: d :: rest => hexChar (natOfBits [a, b, c, d]) :: hexText rest
  | _ => []

/-- The characters of an assembled stream (30_encoding.md R85). -/
def Asm.text (a : Asm) (pad : Option Nat) : List Byte :=
  hexText (a.stream pad)

end Sys2Proof.Machine
end

