-- ==== Sys2Proof/Machine/CommandLevel.lean ====
section
/-! DEFINITION. The command level of DECODE (00_scope.md R5): the recursive functions of 41_packet_decode.md
section 1, which the micro-steps of `step` agree with (R152). They take fuel so that they are plain
structural recursion; `decodeStream` gives them enough. -/

namespace Sys2Proof.Machine

/-- How a command-level read ends without a packet. -/
inductive ReadStop where
  | raised (e : ErrorClass) (pos : Nat)
  | outOfFuel
deriving DecidableEq, Repr

/-- `read_bits(n)` at a cursor: the value and the cursor after it (40_conversion_and_reader.md R105, R106). -/
def readField (bits : Bits) (n cursor : Nat) : Except ReadStop (Nat × Nat) :=
  match readAt bits cursor n with
  | none => .error (.raised .truncatedStream cursor)
  | some v => .ok (v, cursor + n)

/-- `read_literal(version)` from the value accumulated so far (41_packet_decode.md R122, R126). -/
def readLiteral (par : Params) (bits : Bits) (ver : Version) :
    (fuel value cursor : Nat) → Except ReadStop (Packet × Nat)
  | 0, _, _ => .error .outOfFuel
  | k + 1, value, cursor =>
    match readField bits 1 cursor with
    | .error e => .error e
    | .ok (c, cursor) =>
      match readField bits 4 cursor with
      | .error e => .error e
      | .ok (g, cursor) =>
        if fits par (16 * value + g) then
          if c = 0 then .ok (.lit ver (16 * value + g), cursor)
          else readLiteral par bits ver k (16 * value + g) cursor
        else .error (.raised .overflow cursor)

/-- `complete_operator` (41_packet_decode.md R133). -/
def completeOperator (par : Params) (ver : Version) (op : Opcode) (children : Packets)
    (cursor : Nat) : Except ReadStop (Packet × Nat) :=
  if children = .nil then .error (.raised (.structural .zeroChildren) cursor)
  else if par.arityStage = .decode ∧ op.isComparison ∧ children.length ≠ 2 then
    .error (.raised (.structural .cmpArity) cursor)
  else .ok (.op ver op.code children, cursor)

mutual

/-- `read_packet(d)` (41_packet_decode.md R121, R127, R135). -/
def readPacket (par : Params) (bits : Bits) :
    (fuel d cursor : Nat) → Except ReadStop (Packet × Nat)
  | 0, _, _ => .error .outOfFuel
  | k + 1, d, cursor =>
    if depthAllowed par d then
      match readField bits 3 cursor with
      | .error e => .error e
      | .ok (v, cursor) =>
        match readField bits 3 cursor with
        | .error e => .error e
        | .ok (t, cursor) =>
          match Opcode.ofTypeId (BitVec.ofNat 3 t) with
          | none => readLiteral par bits (BitVec.ofNat 3 v) k 0 cursor
          | some op =>
            match readChildren par bits k d cursor with
            | .error e => .error e
            | .ok (cs, cursor) => completeOperator par (BitVec.ofNat 3 v) op cs cursor
    else .error (.raised (.structural .depthLimit) cursor)
termination_by structural fuel => fuel

/-- The length-type bit of `read_operator` and the framing it selects (41_packet_decode.md R127 to R130). -/
def readChildren (par : Params) (bits : Bits) :
    (fuel d cursor : Nat) → Except ReadStop (Packets × Nat)
  | 0, _, _ => .error .outOfFuel
  | k + 1, d, cursor =>
    match readField bits 1 cursor with
    | .error e => .error e
    | .ok (i, cursor) =>
      if i = 0 then
        match readField bits 15 cursor with
        | .error e => .error e
        | .ok (l, cursor) => readByLength par bits k d (cursor + l) .nil cursor
      else
        match readField bits 11 cursor with
        | .error e => .error e
        | .ok (n, cursor) => readByCount par bits k d n .nil cursor
termination_by structural fuel => fuel

/-- The loop of `read_children_by_length` (41_packet_decode.md R128). -/
def readByLength (par : Params) (bits : Bits) :
    (fuel d target : Nat) → (children : Packets) → (cursor : Nat) → Except ReadStop (Packets × Nat)
  | 0, _, _, _, _ => .error .outOfFuel
  | k + 1, d, target, cs, cursor =>
    if cursor < target then
      match readPacket par bits k (d + 1) cursor with
      | .error e => .error e
      | .ok (p, cursor) =>
        if target < cursor then .error (.raised (.structural .len0Overshoot) cursor)
        else readByLength par bits k d target (cs.snoc p) cursor
    else .ok (cs, cursor)
termination_by structural fuel => fuel

/-- The loop of `read_children_by_count` (41_packet_decode.md R129). -/
def readByCount (par : Params) (bits : Bits) :
    (fuel d remaining : Nat) → (children : Packets) → (cursor : Nat) → Except ReadStop (Packets × Nat)
  | 0, _, _, _, _ => .error .outOfFuel
  | k + 1, d, remaining, cs, cursor =>
    if 0 < remaining then
      match readPacket par bits k (d + 1) cursor with
      | .error e => .error e
      | .ok (p, cursor) => readByCount par bits k d (remaining - 1) (cs.snoc p) cursor
    else .ok (cs, cursor)
termination_by structural fuel => fuel

end

/-- `decode_stream()` (41_packet_decode.md R120): the outermost packet and how many bits it consumed. Every
call but the first two of a packet reads bits of its own, so the length of the stream bounds the depth
of calls. -/
def decodeStream (par : Params) (bits : Bits) : Except ReadStop (Packet × Nat) :=
  readPacket par bits (bits.length + 4) 1 0

/-- The completion of a DECODE whose stream ended so (43_host_commands.md R194, R195). DESIGN CHOICE (log 12), unsafe
for the hidden CURSOR: after an error it keeps the CURSOR of the state given, the start of the decode phase,
since `decodeStream` answers no cursor with an error. -/
def completeStream (r : Except ReadStop (Packet × Nat)) (s : State) : Option State :=
  match r with
  | .ok (p, consumed) => some (completeDecode p { s with cursor := consumed })
  | .error (.raised e pos) => some (raise e pos s)
  | .error .outOfFuel => none

end Sys2Proof.Machine
end

