-- ==== Sys2Proof/Safety.lean ====
section
/-! DEFINITION. What counts as a sound state of PBDE: the invariants the spec gives of its registers
(10_state.md R23 to R29), its tree (R31), its decoder (41_packet_decode.md R141, R153) and the width of its
values (00_scope.md R7), and which host programs stay inside the spec's address range. -/

namespace Sys2Proof.Machine

/-! ## Trees (10_state.md R31) -/

mutual

/-- The nesting depth of a tree, 1 for a packet without children (00_scope.md R13). -/
def Packet.depth : Packet → Nat
  | .lit _ _ => 1
  | .op _ _ cs => Packets.depth cs + 1

/-- The greatest depth among a sequence of trees. -/
def Packets.depth : Packets → Nat
  | .nil => 0
  | .cons p ps => max (Packet.depth p) (Packets.depth ps)

end

mutual

/-- R31 (b) to (e) for one tree: opcodes other than 4, at least one child, two for a comparison when DECODE
checks that, Literal values below `2^W`. R31 (a) and (f) hold by type. -/
def Packet.valid (par : Params) : Packet → Bool
  | .lit _ v => fits par v
  | .op _ t cs =>
    (match Opcode.ofTypeId t with
      | none => false
      | some op =>
        decide (cs ≠ .nil) &&
        decide (par.arityStage = .decode → op.isComparison = true → cs.length = 2)) &&
    Packets.valid par cs

/-- R31 for every tree of a sequence. -/
def Packets.valid (par : Params) : Packets → Bool
  | .nil => true
  | .cons p ps => Packet.valid par p && Packets.valid par ps

end

/-- TREE holds a valid tree, no deeper than MAX_DEPTH, of at most `floor(4 × IN_CAP / 11)` packets
(10_state.md R31, R34, 41_packet_decode.md R135). -/
def treeOk (s : State) : Bool :=
  match s.tree with
  | none => true
  | some p =>
    p.valid s.par && depthAllowed s.par p.depth && decide (11 * p.size ≤ 4 * s.par.inCap)

/-! ## Registers (10_state.md R23 to R29, R36, R37) -/

/-- ERR holds a produced value: a CODE of at most 5, a DETAIL from 1 to 5 for STRUCTURAL and 0 otherwise
(10_state.md R28). -/
def errOk (e : Err) : Bool :=
  decide (e.code.toNat ≤ 5) &&
  (if e.code = 3 then decide (1 ≤ e.detail.toNat) && decide (e.detail.toNat ≤ 5)
   else decide (e.detail = 0))

/-- The registers agree with one another: BUSY exactly when PENDING holds a command (R23), TREE_VALID exactly
when TREE holds a tree (R25), LAST_CMD the command in progress (R27) and 0 exactly in IDLE (R24), no tree
during a DECODE (R25), ERR as R28, ERR_POS 0 and OK together (R29), RESULT 0 with an error (R35), IN_LEN at
most IN_CAP (R36), and IN_BUF in its canonical form below IN_CAP (R37). -/
def registersOk (s : State) : Bool :=
  decide (s.status.state = .busy ↔ s.pending ≠ none) &&
  decide (s.status.treeValid = s.tree.isSome) &&
  decide (∀ c ∈ s.pending, s.status.lastCmd = c.code.setWidth 4) &&
  decide (s.status.lastCmd = 0 ↔ s.status.state = .idle) &&
  decide (s.status.lastCmd.toNat ≤ 3) &&
  decide (s.pending = some .decode → s.tree = none) &&
  errOk s.err &&
  decide (s.err = noErr → s.errPos = 0) &&
  decide (s.err ≠ noErr → s.result = 0) &&
  decide (s.status.state = .ok → s.err = noErr) &&
  decide (s.status.state = .error → s.err ≠ noErr) &&
  decide (s.status.state = .idle → s.err = noErr ∧ s.result = 0 ∧ s.tree = none) &&
  decide (s.inLen ≤ s.par.inCap) &&
  s.inBuf.wf &&
  s.inBuf.below s.par.inCap

/-! ## The decoder (41_packet_decode.md R141 to R150) -/

/-- A frame that has a child open above it: it collects children, and a counted one still expects this
child (41_packet_decode.md R146 to R148). -/
def Frame.awaits : Frame → Bool
  | .fixedBitLengthChildrenLoop _ _ _ _ => true
  | .countedChildrenLoop _ _ n _ => decide (0 < n)
  | _ => false

/-- The packets a frame holds are valid and fit under MAX_DEPTH when `under` frames lie below it, its
accumulated value fits W, and its counters fit their fields (41_packet_decode.md R141). -/
def Frame.sound (par : Params) (under : Nat) : Frame → Bool
  | .readHeader => true
  | .literalGroupLoop _ acc => fits par acc
  | .operatorLengthModeSelect _ _ => true
  | .fixedBitLengthChildrenLoop _ _ _ cs =>
    cs.valid par && depthAllowed par (under + 1 + cs.depth)
  | .countedChildrenLoop _ _ n cs =>
    cs.valid par && depthAllowed par (under + 1 + cs.depth) && decide (n + cs.length ≤ 2047)
  | .done p => p.valid par && depthAllowed par (under + p.depth)

/-- Stream bits that a frame has surely consumed, 11 for each packet it holds (30_encoding.md R79). -/
def Frame.weight : Frame → Nat
  | .readHeader => 0
  | .literalGroupLoop _ _ => 6
  | .operatorLengthModeSelect _ _ => 6
  | .fixedBitLengthChildrenLoop _ _ _ cs => 11 + 11 * cs.size
  | .countedChildrenLoop _ _ _ cs => 11 + 11 * cs.size
  | .done p => 11 * p.size

/-- The weight of a stack. -/
def stackWeight : List Frame → Nat
  | [] => 0
  | f :: fs => f.weight + stackWeight fs

/-- Every frame of a stack is sound at its depth, and every frame but the top one awaits the child above it. -/
def stackOk (par : Params) : List Frame → Bool
  | [] => true
  | f :: fs => f.sound par fs.length && fs.all Frame.awaits && stackOk par fs

/-- A length-type-0 frame on top has not been passed: CURSOR is at most its target (41_packet_decode.md
R146). -/
def topBeforeTarget (s : State) : Bool :=
  match s.frames with
  | .fixedBitLengthChildrenLoop _ _ target _ :: _ => decide (s.cursor ≤ target)
  | _ => true

/-- The decoder is at work only in a DECODE; its input fits IN_CAP; CURSOR is inside the stream
(10_state.md R33); the stack is sound, no higher than MAX_DEPTH (R38), and holds no more packets than the
bits read allow (30_encoding.md R79). -/
def decoderOk (s : State) : Bool :=
  if s.pending = some .decode then
    if s.frames = [] then decide (s.snap.length ≤ s.par.inCap)
    else
      decide (s.bitlen ≤ 4 * s.par.inCap) &&
      decide (s.cursor ≤ s.bitlen) &&
      depthAllowed s.par s.frames.length &&
      stackOk s.par s.frames &&
      topBeforeTarget s &&
      decide (stackWeight s.frames ≤ s.cursor)
  else decide (s.frames = [])

/-! ## The whole invariant -/

/-- RESULT and ERR_POS are below `2^W` (10_state.md R20). -/
def valuesOk (s : State) : Bool :=
  fits s.par s.result && fits s.par s.errPos

/-- The invariant of PBDE. -/
def Inv (s : State) : Bool :=
  s.par.legal && registersOk s && treeOk s && decoderOk s && valuesOk s

/-- Every IN_BUF index the host is going to name exists (10_state.md R37). -/
def hostOk (s : State) : Bool :=
  s.host.all fun a =>
    match a.index s.par.busMap with
    | none => true
    | some i => decide (i < s.par.inCap)

/-! ## Runs -/

/-- `n` steps, stopping at the first fault or refusal. -/
def runSteps : Nat → State → Result
  | 0, s => .next s
  | n + 1, s =>
    match step s with
    | .next t => runSteps n t
    | .fault r => .fault r
    | .refused r => .refused r

/-- The stream bits that have not been read yet, `BIT[CURSOR .. BITLEN)` (00_scope.md R8). -/
def Block.ahead (b : Block) : Bits :=
  b.bits.drop b.cursor

/-- The engine has the step, in a DECODE whose top frame is `f` over `fs`. -/
def State.decoding (s : State) (f : Frame) (fs : List Frame) : Prop :=
  s.host = [] ∧ s.pending = some .decode ∧ s.frames = f :: fs

/-- A sequence of packets as a list. -/
def Packets.toList : Packets → List Packet
  | .nil => []
  | .cons p ps => p :: Packets.toList ps

/-! ## Assembled packets DECODE accepts -/

mutual

/-- The nesting depth of an assembled packet. -/
def Asm.depth : Asm → Nat
  | .lit _ _ _ => 1
  | .opl _ _ _ cs => Asms.depth cs + 1
  | .opc _ _ _ cs => Asms.depth cs + 1

/-- The greatest depth among assembled packets. -/
def Asms.depth : Asms → Nat
  | .nil => 0
  | .cons a as => max (Asm.depth a) (Asms.depth as)

end

/-- The children an Operator must have (10_state.md R31 (c), (d)). -/
def arityOk (par : Params) (op : Opcode) (n : Nat) : Bool :=
  decide (0 < n) && decide (par.arityStage = .decode → op.isComparison = true → n = 2)

mutual

/-- An assembled packet that breaks no rule: its value fits W and its groups, its children's bits fit L, their
number fits N, no explicit L or N differs from the truth, and its arity is right. -/
def Asm.wf (par : Params) : Asm → Bool
  | .lit _ value groups =>
    fits par value && decide (fewestGroups value ≤ groups.getD (fewestGroups value))
  | .opl op _ len cs =>
    arityOk par op cs.length && decide (cs.bits.length < 2 ^ 15) &&
    decide (∀ l ∈ len, l.toNat = cs.bits.length) && Asms.wf par cs
  | .opc op _ count cs =>
    arityOk par op cs.length && decide (cs.length < 2 ^ 11) &&
    decide (∀ n ∈ count, n.toNat = cs.length) && Asms.wf par cs

/-- Every packet of a sequence breaks no rule. -/
def Asms.wf (par : Params) : Asms → Bool
  | .nil => true
  | .cons a as => Asm.wf par a && Asms.wf par as

end

end Sys2Proof.Machine
end

