-- ==== Sys2Proof/Certificates/Slice0/Obligations.lean ====
section
/-! DEFINITION. The statements for the provers. Each is about all states unless it says otherwise. -/

open Sys2Proof Sys2Proof.Machine

/-! ## Encoding (30_encoding.md) -/

/-- Decoding the words of an instruction gives the instruction back, for all 18 constructors and every value
of their fields (30_encoding.md R73, R74, R76, R77, R83). -/
def Obligations.DecodeOfEncodeIsIdentity : Prop :=
  ∀ i : Instr, decode (encode i) = .ok i

/-- What the decoder reads an instruction from begins with that instruction's words, so no two instructions
share a pattern and no bit of a pattern is ignored (30_encoding.md R81, R86). -/
def Obligations.DecodedWordsAreTheEncoding : Prop :=
  (∀ (bs : Bits) (i : Instr), decode (.stream bs) = .ok i →
    ∃ pattern rest : Bits, encode i = .stream pattern ∧ bs = pattern ++ rest) ∧
  (∀ (c : BitVec 8) (i : Instr), decode (.cmd c) = .ok i → encode i = .cmd c)

/-- Words written out from the spec's encodings decode to the instructions they stand for: the headers of the
source's vectors S1, S2 and S3 (95_test_vectors.md section 1.3), SUM.LEN with `L = 100` (V-O11), EQ.CNT with
`N = 2` (V-E15), and the three command codes (30_encoding.md R83). -/
def Obligations.WrittenWordsDecode : Prop :=
  decodeTableWord 6 0b110100 = some (.lit 6) ∧
  decodeTableWord 22 0b0011100000000000011011 = some (.ltLen 1 27) ∧
  decodeTableWord 18 0b111011100000000011 = some (.maxCnt 7 3) ∧
  decodeTableWord 22 0b0000000000000001100100 = some (.sumLen 0 100) ∧
  decodeTableWord 18 0b000111100000000010 = some (.eqCnt 0 2) ∧
  decodeTableWord 8 0x01 = some .decode ∧
  decodeTableWord 8 0x02 = some .sumVersions ∧
  decodeTableWord 8 0x03 = some .evaluate

/-- The assembled text of any packet that breaks no rule, with any padding that fills its last digit and any
whitespace around it, decodes to exactly that packet, and RESULT is the packet's length in bits (30_encoding.md
R85, 41_packet_decode.md R120, R134, 43_host_commands.md R195). The character codes are the spec's general
knowledge (log 14), and the number of steps is the model's choice of step (log 1). The hidden BITS and CURSOR
that a completion leaves behind are the model's choice (log 12). -/
def Obligations.AssembledPacketDecodesToItself : Prop :=
  ∀ (s : State) (a : Asm) (pad : Option Nat) (w1 w2 : List Byte),
    s.par.legal = true → a.wf s.par = true → depthAllowed s.par a.depth = true →
    (a.stream pad).length % 4 = 0 →
    (∀ b ∈ w1, b ∈ [0x09#8, 0x0A#8, 0x0B#8, 0x0C#8, 0x0D#8, 0x20#8]) →
    (∀ b ∈ w2, b ∈ [0x09#8, 0x0A#8, 0x0B#8, 0x0C#8, 0x0D#8, 0x20#8]) →
    s.host = [] → s.pending = some .decode → s.frames = [] →
    s.snap = w1 ++ a.text pad ++ w2 →
    runSteps ((a.stream pad).length + 2) s =
      .next (completeDecode a.packet { s with bits := a.stream pad, cursor := a.bits.length })

/-! ## The step -/

/-- A step runs the instruction it fetches. With no host access the step is the engine's turn, and an `idle`
entry gives it the engine's turn after removing the entry. The engine's turn is `exec` of LIT where the top
frame reads a Literal's groups, `exec` of the decoded form where the header's bits in the frame and the unread
stream decode to it, and `exec` of the pending command where no packet is open. Which instruction a turn runs,
and that a conversion and a query are one step each, are the model's choices (log 1, log 3, log 9). -/
def Obligations.StepRunsTheFetchedInstruction : Prop :=
  (∀ s : State, s.host = [] → step s = engineStep s) ∧
  (∀ (s : State) (rest : List HostAction), s.host = .idle :: rest →
    step s = engineStep { s with host := rest }) ∧
  (∀ (s : State) (v : Version) (acc : Nat) (fs : List Frame),
    s.pending = some .decode → s.frames = .literalGroupLoop v acc :: fs →
    engineStep s = exec (.lit v) s) ∧
  (∀ (s : State) (v : Version) (op : Opcode) (fs : List Frame) (i : Instr),
    s.pending = some .decode → s.frames = .operatorLengthModeSelect v op :: fs →
    decode (.stream (headerBits v op.code ++ s.ahead)) = .ok i →
    engineStep s = exec i s) ∧
  (∀ (s : State) (c : Command), s.pending = some c → s.frames = [] →
    engineStep s = exec c.toInstr s)

/-- When no command is pending, the engine's step changes nothing (60_exceptions.md R245). -/
def Obligations.EngineRestsWhenNothingIsPending : Prop :=
  ∀ s : State, s.host = [] → s.pending = none → step s = .next s

/-! ## The packet forms (41_packet_decode.md) -/

/-- The step in ReadHeader reads V and T and selects the Literal's loop for `T = 4` and the Operator's for the
seven opcodes (41_packet_decode.md R143). The spec marks R143 as derived from R121. -/
def Obligations.HeaderStepReadsVersionAndType : Prop :=
  (∀ (s : State) (fs : List Frame) (v : Version) (rest : Bits),
    s.decoding .readHeader fs → s.ahead = headerBits v 4 ++ rest →
    step s = .next { s with cursor := s.cursor + 6, frames := .literalGroupLoop v 0 :: fs }) ∧
  (∀ (s : State) (fs : List Frame) (v : Version) (op : Opcode) (rest : Bits),
    s.decoding .readHeader fs → s.ahead = headerBits v op.code ++ rest →
    step s = .next { s with
      cursor := s.cursor + 6, frames := .operatorLengthModeSelect v op :: fs })

/-- A stream that ends inside a header ends the DECODE with TRUNCATED_STREAM, at the packet's first bit when V
is cut and 3 bits later when T is (41_packet_decode.md R121, 40_conversion_and_reader.md R106). The hidden
CURSOR left behind is not claimed. That the error keeps the hidden BITS is the model's choice (log 12). -/
def Obligations.TruncatedHeaderRaises : Prop :=
  ∀ (s : State) (fs : List Frame), s.decoding .readHeader fs →
    (s.ahead.length < 3 →
      ∃ c, step s = .next (raise .truncatedStream s.cursor { s with cursor := c })) ∧
    (3 ≤ s.ahead.length → s.ahead.length < 6 →
      ∃ c, step s = .next (raise .truncatedStream (s.cursor + 3) { s with cursor := c }))

/-- LIT reads one group: the exact value `16 × acc + g` ends the Literal when C is 0 and goes on when C is 1,
and is an OVERFLOW at CURSOR after the group when it does not fit W (41_packet_decode.md R144). The spec marks
R144 as derived from R122; that `exec` of LIT is this step is the model's choice (log 9). The hidden CURSOR that
the OVERFLOW leaves behind, after the group, is the model's choice (log 12). -/
def Obligations.LitReadsOneGroup : Prop :=
  ∀ (s : State) (v v' : Version) (acc : Nat) (fs : List Frame) (c : Bool) (g : BitVec 4) (rest : Bits),
    s.frames = .literalGroupLoop v' acc :: fs →
    s.ahead = c :: (bitsOfNat 4 g.toNat ++ rest) →
    (fits s.par (16 * acc + g.toNat) = true → c = true →
      exec (.lit v) s = .next { s with
        cursor := s.cursor + 5, frames := .literalGroupLoop v (16 * acc + g.toNat) :: fs }) ∧
    (fits s.par (16 * acc + g.toNat) = true → c = false →
      exec (.lit v) s = .next { s with
        cursor := s.cursor + 5, frames := .done (.lit v (16 * acc + g.toNat)) :: fs }) ∧
    (fits s.par (16 * acc + g.toNat) = false →
      exec (.lit v) s =
        .next (raise .overflow (s.cursor + 5) { s with cursor := s.cursor + 5 }))

/-- A stream that ends inside a group ends the DECODE with TRUNCATED_STREAM: at the continuation bit when it is
missing, one bit later when the nibble is cut (41_packet_decode.md R123, 40_conversion_and_reader.md R106). That
the error keeps the hidden BITS is the model's choice (log 12). -/
def Obligations.TruncatedGroupRaises : Prop :=
  ∀ (s : State) (v v' : Version) (acc : Nat) (fs : List Frame),
    s.frames = .literalGroupLoop v' acc :: fs →
    (s.ahead.length = 0 →
      ∃ c, exec (.lit v) s = .next (raise .truncatedStream s.cursor { s with cursor := c })) ∧
    (1 ≤ s.ahead.length → s.ahead.length < 5 →
      ∃ c, exec (.lit v) s = .next (raise .truncatedStream (s.cursor + 1) { s with cursor := c }))

/-- Each of the seven `.LEN` forms, where the top frame awaits a length type, moves CURSOR past I and L and
opens its own opcode's loop with `target` = CURSOR after L, plus L; nothing else changes (41_packet_decode.md
R128, R130). That `exec` of a form is this step is the model's choice (log 9). -/
def Obligations.LenFormsOpenAFixedLengthLoop : Prop :=
  ∀ (s : State) (v v' : Version) (op' : Opcode) (fs : List Frame) (l : LenField),
    s.frames = .operatorLengthModeSelect v' op' :: fs →
    let opened (op : Opcode) : State := { s with
      cursor := s.cursor + 16
      frames := .fixedBitLengthChildrenLoop v op (s.cursor + 16 + l.toNat) .nil :: fs }
    exec (.sumLen v l) s = .next (opened .sum) ∧
    exec (.prodLen v l) s = .next (opened .prod) ∧
    exec (.minLen v l) s = .next (opened .min) ∧
    exec (.maxLen v l) s = .next (opened .max) ∧
    exec (.gtLen v l) s = .next (opened .gt) ∧
    exec (.ltLen v l) s = .next (opened .lt) ∧
    exec (.eqLen v l) s = .next (opened .eq)

/-- Each of the seven `.CNT` forms, where the top frame awaits a length type, moves CURSOR past I and N and
opens its own opcode's loop with N children to come; nothing else changes (41_packet_decode.md R129). That
`exec` of a form is this step is the model's choice (log 9). -/
def Obligations.CntFormsOpenACountedLoop : Prop :=
  ∀ (s : State) (v v' : Version) (op' : Opcode) (fs : List Frame) (n : CountField),
    s.frames = .operatorLengthModeSelect v' op' :: fs →
    let opened (op : Opcode) : State := { s with
      cursor := s.cursor + 12
      frames := .countedChildrenLoop v op n.toNat .nil :: fs }
    exec (.sumCnt v n) s = .next (opened .sum) ∧
    exec (.prodCnt v n) s = .next (opened .prod) ∧
    exec (.minCnt v n) s = .next (opened .min) ∧
    exec (.maxCnt v n) s = .next (opened .max) ∧
    exec (.gtCnt v n) s = .next (opened .gt) ∧
    exec (.ltCnt v n) s = .next (opened .lt) ∧
    exec (.eqCnt v n) s = .next (opened .eq)

/-- The step in OperatorLengthModeSelect reads I, then L or N, from the stream, and opens the loop it selects
(41_packet_decode.md R145). The spec marks R145 as derived from R127 to R129. -/
def Obligations.LengthModeStepReadsItsField : Prop :=
  (∀ (s : State) (v : Version) (op : Opcode) (fs : List Frame) (l : LenField) (rest : Bits),
    s.decoding (.operatorLengthModeSelect v op) fs →
    s.ahead = false :: (bitsOfNat 15 l.toNat ++ rest) →
    step s = .next { s with
      cursor := s.cursor + 16
      frames := .fixedBitLengthChildrenLoop v op (s.cursor + 16 + l.toNat) .nil :: fs }) ∧
  (∀ (s : State) (v : Version) (op : Opcode) (fs : List Frame) (n : CountField) (rest : Bits),
    s.decoding (.operatorLengthModeSelect v op) fs →
    s.ahead = true :: (bitsOfNat 11 n.toNat ++ rest) →
    step s = .next { s with
      cursor := s.cursor + 12
      frames := .countedChildrenLoop v op n.toNat .nil :: fs })

/-- A stream that ends inside I, L or N ends the DECODE with TRUNCATED_STREAM: at I when it is missing, one bit
later when L or N is cut (41_packet_decode.md R127 to R129, 40_conversion_and_reader.md R106). That the error
keeps the hidden BITS is the model's choice (log 12). -/
def Obligations.TruncatedLengthFieldRaises : Prop :=
  ∀ (s : State) (v : Version) (op : Opcode) (fs : List Frame),
    s.decoding (.operatorLengthModeSelect v op) fs →
    (s.ahead = [] →
      ∃ c, step s = .next (raise .truncatedStream s.cursor { s with cursor := c })) ∧
    (∀ bs, s.ahead = false :: bs → bs.length < 15 →
      ∃ c, step s = .next (raise .truncatedStream (s.cursor + 1) { s with cursor := c })) ∧
    (∀ bs, s.ahead = true :: bs → bs.length < 11 →
      ∃ c, step s = .next (raise .truncatedStream (s.cursor + 1) { s with cursor := c }))

/-- The children loops push a child while there is one to come and complete their frame otherwise; a push that
would pass MAX_DEPTH is a DEPTH_LIMIT at CURSOR (41_packet_decode.md R146 to R148). The spec marks these rules
as derived from R128, R129 and R135. The hidden BITS and CURSOR that the error leaves behind are the model's
choice (log 12). -/
def Obligations.ChildrenLoopsPushOrComplete : Prop :=
  (∀ (s : State) (v : Version) (op : Opcode) (target : Nat) (cs : Packets) (fs : List Frame),
    s.decoding (.fixedBitLengthChildrenLoop v op target cs) fs →
    (s.cursor < target → depthAllowed s.par (s.frames.length + 1) = true →
      step s = .next { s with frames := .readHeader :: s.frames }) ∧
    (s.cursor < target → depthAllowed s.par (s.frames.length + 1) = false →
      step s = .next (raise (.structural .depthLimit) s.cursor s)) ∧
    (s.cursor = target → step s = .next (completeFrame v op cs fs s))) ∧
  (∀ (s : State) (v : Version) (op : Opcode) (n : Nat) (cs : Packets) (fs : List Frame),
    s.decoding (.countedChildrenLoop v op n cs) fs →
    (0 < n → depthAllowed s.par (s.frames.length + 1) = true →
      step s = .next { s with frames := .readHeader :: s.frames }) ∧
    (0 < n → depthAllowed s.par (s.frames.length + 1) = false →
      step s = .next (raise (.structural .depthLimit) s.cursor s)) ∧
    (n = 0 → step s = .next (completeFrame v op cs fs s)))

/-- Completing a frame: no children is ZERO_CHILDREN; a comparison without exactly two is CMP_ARITY when DECODE
checks that; else the frame is done with its Operator (41_packet_decode.md R149). The spec marks R149 as derived
from R133. The hidden BITS and CURSOR that the error leaves behind are the model's choice (log 12). -/
def Obligations.CompletionChecksChildren : Prop :=
  ∀ (s : State) (v : Version) (op : Opcode) (cs : Packets) (fs : List Frame),
    (cs.toList = [] →
      completeFrame v op cs fs s = raise (.structural .zeroChildren) s.cursor s) ∧
    (cs.toList ≠ [] → s.par.arityStage = .decode → op.isComparison = true → cs.toList.length ≠ 2 →
      completeFrame v op cs fs s = raise (.structural .cmpArity) s.cursor s) ∧
    (cs.toList ≠ [] →
      (s.par.arityStage = .evaluate ∨ op.isComparison = false ∨ cs.toList.length = 2) →
      completeFrame v op cs fs s = { s with frames := .done (.op v op.code cs) :: fs })

/-- Leaving a finished packet: the outermost one completes the DECODE with TREE the packet and RESULT the
CURSOR; a child is appended to its parent's children, which raises LEN0_OVERSHOOT when CURSOR has passed a
length-type-0 parent's target, and counts down a counted parent (41_packet_decode.md R150). The spec marks R150
as derived from R128 and R129; that the outermost packet's Done step is the completion event is the model's
reading (log 19). The hidden BITS and CURSOR that a completion leaves behind are the model's choice (log 12). -/
def Obligations.DoneStepHandsThePacketOn : Prop :=
  (∀ (s : State) (p : Packet), s.decoding (.done p) [] →
    step s = .next { s with
      tree := some p, err := noErr, errPos := 0, result := s.cursor, pending := none, frames := []
      status := { s.status with state := .ok, treeValid := true } }) ∧
  (∀ (s : State) (p : Packet) (v : Version) (op : Opcode) (target : Nat) (cs : Packets)
      (fs : List Frame),
    s.decoding (.done p) (.fixedBitLengthChildrenLoop v op target cs :: fs) →
    (s.cursor ≤ target → ∃ cs', cs'.toList = cs.toList ++ [p] ∧
      step s = .next { s with frames := .fixedBitLengthChildrenLoop v op target cs' :: fs }) ∧
    (target < s.cursor → step s = .next (raise (.structural .len0Overshoot) s.cursor s))) ∧
  (∀ (s : State) (p : Packet) (v : Version) (op : Opcode) (n : Nat) (cs : Packets)
      (fs : List Frame),
    s.decoding (.done p) (.countedChildrenLoop v op (n + 1) cs :: fs) →
    ∃ cs', cs'.toList = cs.toList ++ [p] ∧
      step s = .next { s with frames := .countedChildrenLoop v op n cs' :: fs })

/-- An Operator of `L = 0` or `N = 0`, whatever its opcode, is opened by its step and then ends the DECODE with
ZERO_CHILDREN at CURSOR, the end of the field (41_packet_decode.md R131). -/
def Obligations.EmptyOperatorIsZeroChildren : Prop :=
  (∀ (s : State) (v : Version) (op : Opcode) (fs : List Frame) (rest : Bits),
    s.decoding (.operatorLengthModeSelect v op) fs →
    s.ahead = false :: (List.replicate 15 false ++ rest) →
    ∃ t, runSteps 2 s = .next (raise (.structural .zeroChildren) (s.cursor + 16) t) ∧
      t.tree = s.tree ∧ t.inBuf = s.inBuf) ∧
  (∀ (s : State) (v : Version) (op : Opcode) (fs : List Frame) (rest : Bits),
    s.decoding (.operatorLengthModeSelect v op) fs →
    s.ahead = true :: (List.replicate 11 false ++ rest) →
    ∃ t, runSteps 2 s = .next (raise (.structural .zeroChildren) (s.cursor + 12) t) ∧
      t.tree = s.tree ∧ t.inBuf = s.inBuf)

/-- The two levels agree (41_packet_decode.md R152) within the bound of R153: from the start of the decode
phase, `BITLEN + 1` micro-steps end the DECODE exactly as the recursive `decode_stream` says, up to the hidden
CURSOR. The spec marks both rules as derived; that the last micro-step is the completion event is the model's
reading (log 19). That a completion keeps the hidden BITS is the model's choice (log 12). -/
def Obligations.MicroStepsAgreeWithRecursiveDecoder : Prop :=
  ∀ s : State, s.par.legal = true → s.decoding .readHeader [] → s.cursor = 0 →
    ∃ (t : State) (c : Nat), completeStream (decodeStream s.par s.bits) s = some t ∧
      runSteps (s.bitlen + 1) s = .next { t with cursor := c }

/-- What follows the outermost packet never matters: with the packet's own bits kept and anything at all after
them, the decode is the same (41_packet_decode.md R134, 30_encoding.md R72). -/
def Obligations.PaddingIsIgnored : Prop :=
  ∀ (par : Params) (bs pad : Bits) (p : Packet) (used : Nat),
    decodeStream par bs = .ok (p, used) →
    used ≤ bs.length ∧ decodeStream par (bs.take used ++ pad) = .ok (p, used)

/-- Inside a DECODE the stream does not change and CURSOR never decreases and never passes BITLEN (10_state.md
R33, 20_memory.md R63). What is said of the hidden BITS and CURSOR after a step that ends the DECODE is the
model's choice (log 12). -/
def Obligations.CursorOnlyMovesForward : Prop :=
  ∀ (s t : State) (f : Frame) (fs : List Frame),
    s.decoding f fs → s.cursor ≤ s.bitlen → step s = .next t →
    t.bits = s.bits ∧ s.cursor ≤ t.cursor ∧ t.cursor ≤ t.bitlen

/-! ## Conversion (40_conversion_and_reader.md section 1) -/

/-- The hex digits and their values, and no other byte (30_encoding.md R70). The codes and the values are the
spec's general knowledge (93_implementation_defined.md G1, G2; log 14). -/
def Obligations.HexDigitValues : Prop :=
  (∀ d : Fin 10, hexval (BitVec.ofNat 8 (0x30 + d.val)) = some d.val) ∧
  (∀ d : Fin 6, hexval (BitVec.ofNat 8 (0x41 + d.val)) = some (10 + d.val) ∧
    hexval (BitVec.ofNat 8 (0x61 + d.val)) = some (10 + d.val)) ∧
  (∀ b : Byte, b.toNat < 0x30 ∨ (0x39 < b.toNat ∧ b.toNat < 0x41) ∨
    (0x46 < b.toNat ∧ b.toNat < 0x61) ∨ 0x66 < b.toNat → hexval b = none)

/-- DECODE of whitespace, hex digits and whitespace builds four bits for each digit, most significant first,
sets CURSOR to 0 and opens the outermost packet (40_conversion_and_reader.md R100, R102, R104,
41_packet_decode.md R142). The whitespace codes are the spec's general knowledge (log 14), and that the
conversion is one step of its own is the model's choice (log 1). -/
def Obligations.DecodeConvertsTheTrimmedDigits : Prop :=
  ∀ (s : State) (w1 w2 : List Byte) (ds : List (Byte × Nat)),
    (∀ b ∈ w1, b ∈ [0x09#8, 0x0A#8, 0x0B#8, 0x0C#8, 0x0D#8, 0x20#8]) →
    (∀ b ∈ w2, b ∈ [0x09#8, 0x0A#8, 0x0B#8, 0x0C#8, 0x0D#8, 0x20#8]) →
    (∀ d ∈ ds, hexval d.1 = some d.2) →
    s.snap = w1 ++ ds.map Prod.fst ++ w2 →
    exec .decode s = .next { s with
      bits := (ds.map fun d =>
        [d.2.testBit 3, d.2.testBit 2, d.2.testBit 1, d.2.testBit 0]).flatten
      cursor := 0
      frames := [.readHeader] }

/-- A byte of the trimmed region that is no hex digit ends the DECODE with HEX_DECODE at its index in IN_BUF,
the first such byte counting, wherever it stands in the region (40_conversion_and_reader.md R101, R103).
Whitespace at the ends is trimmed and no other byte is (R100). The character codes are the spec's general
knowledge (log 14). The hidden BITS and CURSOR that the error leaves behind are the model's choice (log 12). -/
def Obligations.FirstBadByteIsHexDecodeError : Prop :=
  ∀ (s : State) (w1 w2 ds rest : List Byte) (b : Byte),
    (∀ x ∈ w1, x ∈ [0x09#8, 0x0A#8, 0x0B#8, 0x0C#8, 0x0D#8, 0x20#8]) →
    (∀ x ∈ w2, x ∈ [0x09#8, 0x0A#8, 0x0B#8, 0x0C#8, 0x0D#8, 0x20#8]) →
    (∀ x ∈ (ds ++ b :: rest).head?, x ∉ [0x09#8, 0x0A#8, 0x0B#8, 0x0C#8, 0x0D#8, 0x20#8]) →
    (∀ x ∈ (ds ++ b :: rest).getLast?, x ∉ [0x09#8, 0x0A#8, 0x0B#8, 0x0C#8, 0x0D#8, 0x20#8]) →
    (∀ x ∈ ds, hexval x ≠ none) → hexval b = none →
    s.snap = w1 ++ (ds ++ b :: rest) ++ w2 →
    exec .decode s = .next (raise .hexDecode (w1.length + ds.length) s)

/-- Two inputs that differ only in the case of their digits convert alike (30_encoding.md R71). -/
def Obligations.LetterCaseDoesNotMatter : Prop :=
  ∀ S S' : List Byte,
    List.Forall₂ (fun a b => a = b ∨ (hexval a ≠ none ∧ hexval a = hexval b)) S S' →
    convertInput S = convertInput S'

/-! ## Evaluation (42_evaluate.md) -/

/-- The version sum (42_evaluate.md R160). -/
def Obligations.VersionSumAddsEveryVersion : Prop :=
  (∀ (v : Version) (x : Nat), sumOfVersions (.lit v x) = v.toNat) ∧
  (∀ (v : Version) (t : TypeId) (cs : Packets),
    sumOfVersions (.op v t cs) = v.toNat + (cs.toList.map sumOfVersions).sum)

/-- The version sum is at most seven times the number of packets (42_evaluate.md R163). The spec marks R163 as
derived. -/
def Obligations.VersionSumIsBounded : Prop :=
  ∀ p : Packet, sumOfVersions p ≤ 7 * p.size

/-- SUM: the sum of the values of at least one child, or OVERFLOW at the Operator's index (42_evaluate.md R170). -/
def Obligations.SumValue : Prop :=
  ∀ (par : Params) (idx : Nat) (v : Version) (cs : Packets) (xs : List Nat),
    cs.toList ≠ [] → evaluateAll par (idx + 1) cs = .ok xs →
    (fits par xs.sum = true → evaluate par idx (.op v 0 cs) = .ok xs.sum) ∧
    (fits par xs.sum = false → evaluate par idx (.op v 0 cs) = .error (.raised .overflow idx))

/-- PROD: the product of the values of at least one child, or OVERFLOW at the Operator's index; a zero child gives 0
whatever the others are (42_evaluate.md R171). -/
def Obligations.ProdValue : Prop :=
  ∀ (par : Params) (idx : Nat) (v : Version) (cs : Packets) (xs : List Nat),
    cs.toList ≠ [] → evaluateAll par (idx + 1) cs = .ok xs →
    (fits par xs.prod = true → evaluate par idx (.op v 1 cs) = .ok xs.prod) ∧
    (fits par xs.prod = false → evaluate par idx (.op v 1 cs) = .error (.raised .overflow idx)) ∧
    (par.legal = true → 0 ∈ xs → evaluate par idx (.op v 1 cs) = .ok 0)

/-- MIN: a least one of the children's values, and no error of its own (42_evaluate.md R172). -/
def Obligations.MinValue : Prop :=
  ∀ (par : Params) (idx : Nat) (v : Version) (cs : Packets) (xs : List Nat),
    evaluateAll par (idx + 1) cs = .ok xs → cs.toList ≠ [] → (∀ x ∈ xs, fits par x = true) →
    ∃ r, evaluate par idx (.op v 2 cs) = .ok r ∧ r ∈ xs ∧ ∀ x ∈ xs, r ≤ x

/-- MAX: a greatest one of the children's values, and no error of its own (42_evaluate.md R173). -/
def Obligations.MaxValue : Prop :=
  ∀ (par : Params) (idx : Nat) (v : Version) (cs : Packets) (xs : List Nat),
    evaluateAll par (idx + 1) cs = .ok xs → cs.toList ≠ [] → (∀ x ∈ xs, fits par x = true) →
    ∃ r, evaluate par idx (.op v 3 cs) = .ok r ∧ r ∈ xs ∧ ∀ x ∈ xs, x ≤ r

/-- GT, LT and EQ of two children, the first of value `x` and the second of value `y`: 1 or 0 as the unsigned
comparison of `x` with `y`, in the order of the children, holds or not (42_evaluate.md R174, R175, R176). -/
def Obligations.ComparisonValues : Prop :=
  ∀ (par : Params) (idx : Nat) (v : Version) (cs : Packets) (x y : Nat),
    par.legal = true →
    (evaluateAll par (idx + 1) cs = .ok [x, y] ∨
      ∃ p q : Packet, cs.toList = [p, q] ∧ evaluate par (idx + 1) p = .ok x ∧
        evaluate par (idx + 1 + p.size) q = .ok y) →
    evaluate par idx (.op v 5 cs) = .ok (if x > y then 1 else 0) ∧
    evaluate par idx (.op v 6 cs) = .ok (if x < y then 1 else 0) ∧
    evaluate par idx (.op v 7 cs) = .ok (if x = y then 1 else 0)

/-- The node checks come before any child: opcode 4 is OPERATOR_OPCODE4, and a comparison without exactly two
children is CMP_ARITY when EVALUATE checks that, at the Operator's index and whatever its children are
(42_evaluate.md R166). An Operator with no children, which is in no tree, has no value: the model's stop (R166
(c); log 11). -/
def Obligations.NodeChecksComeFirst : Prop :=
  ∀ (par : Params) (idx : Nat) (v : Version) (cs : Packets),
    evaluate par idx (.op v 4 cs) = .error (.raised (.structural .operatorOpcode4) idx) ∧
    (par.arityStage = .evaluate → cs.toList.length ≠ 2 → ∀ t ∈ [5#3, 6#3, 7#3],
      evaluate par idx (.op v t cs) = .error (.raised (.structural .cmpArity) idx)) ∧
    (∀ op : Opcode, par.arityStage = .decode ∨ op.isComparison = false →
      evaluate par idx (.op v op.code .nil) = .error .noValue)

/-- A Literal's value is the one it stores (42_evaluate.md R169). An Operator's children give their values in
the order of the children, each evaluated at its own index, which is its parent's plus one plus the sizes of the
children before it; when all before one have a value and that one ends with an error, the error is the
Operator's (42_evaluate.md R165, R167, R168). -/
def Obligations.FirstChildErrorIsReported : Prop :=
  (∀ (par : Params) (idx : Nat) (v : Version) (x : Nat), evaluate par idx (.lit v x) = .ok x) ∧
  (∀ (par : Params) (idx : Nat) (cs : Packets) (xs : List Nat),
    evaluateAll par idx cs = .ok xs ↔
      xs.length = cs.toList.length ∧
      ∀ (pre post : List Packet) (p : Packet) (x : Nat), cs.toList = pre ++ p :: post →
        xs[pre.length]? = some x → evaluate par (idx + (pre.map Packet.size).sum) p = .ok x) ∧
  (∀ (par : Params) (idx : Nat) (v : Version) (op : Opcode) (cs : Packets)
    (before after : List Packet) (bad : Packet) (e : EvalStop),
    cs.toList = before ++ bad :: after →
    (par.arityStage = .decode ∨ op.isComparison = false ∨ cs.toList.length = 2) →
    (∀ (i : Nat) (pre post : List Packet) (p : Packet), before = pre ++ p :: post →
      i = idx + 1 + (pre.map Packet.size).sum → ∃ x, evaluate par i p = .ok x) →
    evaluate par (idx + 1 + (before.map Packet.size).sum) bad = .error e →
    evaluate par idx (.op v op.code cs) = .error e)

/-- An evaluation error is recorded at a pre-order index of the evaluated tree (42_evaluate.md R167). -/
def Obligations.EvaluateErrorIndexIsInTheTree : Prop :=
  ∀ (par : Params) (idx : Nat) (p : Packet) (e : ErrorClass) (pos : Nat),
    evaluate par idx p = .error (.raised e pos) → idx ≤ pos ∧ pos < idx + p.size

/-! ## Commands (43_host_commands.md) -/

/-- SUM_VERSIONS on a tree completes with RESULT the version sum; EVALUATE on a tree completes with RESULT the
value, or with the error its evaluation raises (43_host_commands.md R194, R196, R197). That a query is one step
is the model's choice (log 1). The hidden BITS and CURSOR that a completion leaves behind are the model's choice
(log 12). -/
def Obligations.QueriesCompleteOnATree : Prop :=
  ∀ (s : State) (p : Packet), s.tree = some p →
    exec .sumVersions s = .next { s with
      err := noErr, errPos := 0, result := sumOfVersions p, pending := none
      status := { s.status with state := .ok } } ∧
    (∀ v, evaluate s.par 0 p = .ok v → exec .evaluate s = .next { s with
      err := noErr, errPos := 0, result := v, pending := none
      status := { s.status with state := .ok } }) ∧
    (∀ e pos, evaluate s.par 0 p = .error (.raised e pos) → exec .evaluate s = .next { s with
      err := { code := e.code, detail := e.detailCode }, errPos := pos, result := 0
      pending := none, frames := [], status := { s.status with state := .error } })

/-- SUM_VERSIONS and EVALUATE without a tree complete with NO_TREE (43_host_commands.md R199). -/
def Obligations.QueriesWithoutATreeAreNoTree : Prop :=
  ∀ (s : State) (i : Instr), s.tree = none → i ∈ [Instr.sumVersions, Instr.evaluate] →
    ∃ t, exec i s = .next t ∧ t.status.state = .error ∧ t.err.word = 0x05 ∧ t.errPos = 0 ∧
      t.result = 0 ∧ t.tree = none ∧ t.pending = none

/-- EVALUATE of a tree that satisfies R31 always completes: with a value below `2^W`, or with OVERFLOW, or, when
EVALUATE checks arity, with CMP_ARITY, at an index of the tree (42_evaluate.md R164 to R169, 60_exceptions.md
R222). The hidden BITS and CURSOR that a completion leaves behind are the model's choice (log 12). -/
def Obligations.EvaluateOfAValidTreeCompletes : Prop :=
  ∀ (s : State) (p : Packet), s.par.legal = true → s.tree = some p → p.valid s.par = true →
    (∃ v, fits s.par v = true ∧ exec .evaluate s = .next (completeOk v s)) ∨
    (∃ pos, pos < p.size ∧ exec .evaluate s = .next (raise .overflow pos s)) ∨
    (∃ pos, pos < p.size ∧ s.par.arityStage = .evaluate ∧
      exec .evaluate s = .next (raise (.structural .cmpArity) pos s))

/-- SUM_VERSIONS and EVALUATE leave TREE and TREE_VALID as they are, with or without an error, and asked again
give the same answer (43_host_commands.md R198, 42_evaluate.md R178). -/
def Obligations.QueriesKeepTheTree : Prop :=
  ∀ (s t : State) (i : Instr), i ∈ [Instr.sumVersions, Instr.evaluate] → exec i s = .next t →
    t.tree = s.tree ∧ t.status.treeValid = s.status.treeValid ∧
    ∃ u, exec i t = .next u ∧ u.tree = s.tree ∧ u.err = t.err ∧ u.errPos = t.errPos ∧
      u.result = t.result ∧ u.status = t.status

/-- No instruction writes IN_BUF, IN_LEN, the snapshot, REJECTED or LAST_CMD, nor anything on the host's side,
and a packet form writes nothing but CURSOR and FRAMES unless its step ends the DECODE (10_state.md R36, R37,
20_memory.md R52). That a completion keeps the hidden BITS is the model's choice (log 12). -/
def Obligations.InstructionsLeaveTheInputAlone : Prop :=
  ∀ (i : Instr) (s t : State), exec i s = .next t →
    (∀ a, t.readByte a = s.readByte a) ∧ t.inBuf = s.inBuf ∧ t.inLen = s.inLen ∧ t.snap = s.snap ∧
    t.par = s.par ∧ t.host = s.host ∧ t.rdata = s.rdata ∧ t.draws = s.draws ∧
    t.status.rejected = s.status.rejected ∧ t.status.lastCmd = s.status.lastCmd ∧
    (i ≠ .decode → t.bits = s.bits) ∧
    (i ∉ [Instr.decode, Instr.sumVersions, Instr.evaluate] → t.pending = s.pending →
      s.pending ≠ none → t = { s with cursor := t.cursor, frames := t.frames })

/-- While a command is BUSY, an engine step either keeps STATUS, ERR, ERR_POS, RESULT, TREE and PENDING, or completes
the command: PENDING becomes NONE and STATE OK or ERROR (43_host_commands.md R191, R194). -/
def Obligations.OutputsHoldUntilCompletion : Prop :=
  ∀ s t : State, s.host = [] → s.pending ≠ none → step s = .next t →
    (t.pending = s.pending ∧ t.status = s.status ∧ t.err = s.err ∧ t.errPos = s.errPos ∧
      t.result = s.result ∧ t.tree = s.tree) ∨
    (t.pending = none ∧ (t.status.state = .ok ∨ t.status.state = .error))

/-- Which command ends with which error (60_exceptions.md R222), in the states of the invariant; a DECODE that
ends with an error leaves no tree. The spec marks R222 as derived. -/
def Obligations.EachCommandHasItsOwnErrors : Prop :=
  ∀ (s t : State) (c : Command), Inv s = true → s.host = [] → s.pending = some c →
    step s = .next t → t.status.state = .error →
    match c with
    | .decode => t.tree = none ∧ t.status.treeValid = false ∧
        (t.err ∈ [ErrorClass.hexDecode.toErr, ErrorClass.truncatedStream.toErr,
          ErrorClass.overflow.toErr, (ErrorClass.structural .len0Overshoot).toErr,
          (ErrorClass.structural .zeroChildren).toErr, (ErrorClass.structural .depthLimit).toErr] ∨
        (t.err = (ErrorClass.structural .cmpArity).toErr ∧ s.par.arityStage = .decode))
    | .sumVersions => t.err = ErrorClass.noTree.toErr
    | .evaluate => t.err = ErrorClass.noTree.toErr ∨ t.err = ErrorClass.overflow.toErr ∨
        (t.err = (ErrorClass.structural .cmpArity).toErr ∧ s.par.arityStage = .evaluate)

/-- Every accepted command reaches its completion after finitely many engine steps (43_host_commands.md R200).
The spec marks R200 as derived; the number of steps is the model's choice of step (log 1). -/
def Obligations.EveryCommandCompletes : Prop :=
  ∀ s : State, Inv s = true → s.host = [] → s.pending ≠ none →
    ∃ t, runSteps (8 * s.par.inCap + 8) s = .next t ∧ t.pending = none ∧
      (t.status.state = .ok ∨ t.status.state = .error)

/-! ## Errors (60_exceptions.md) -/

/-- Taking an error writes exactly ERR, ERR_POS, RESULT, STATUS.STATE and PENDING, and discards the frames; ERR
holds the class's CODE and, for STRUCTURAL only, its DETAIL (43_host_commands.md R194, 60_exceptions.md R221,
R226, 41_packet_decode.md R151). The hidden BITS and CURSOR that the error leaves behind are the model's choice
(log 12). -/
def Obligations.RaiseCompletesWithTheError : Prop :=
  ∀ (s : State) (e : ErrorClass) (pos : Nat),
    raise e pos s = { s with
      err := (raise e pos s).err, errPos := pos, result := 0
      status := { s.status with state := .error }, pending := none, frames := [] } ∧
    (raise e pos s).err.word = (match e with
      | .hexDecode => 0x01
      | .truncatedStream => 0x02
      | .structural .operatorOpcode4 => 0x13
      | .structural .cmpArity => 0x23
      | .structural .len0Overshoot => 0x33
      | .structural .zeroChildren => 0x43
      | .structural .depthLimit => 0x53
      | .overflow => 0x04
      | .noTree => 0x05)

/-! ## The host (43_host_commands.md, 10_state.md, 70_reset_and_hazards.md) -/

/-- STATUS as the host reads it (10_state.md R23). -/
def Obligations.StatusWordLayout : Prop :=
  ∀ st : Status, st.word.toNat =
    16 * st.lastCmd.toNat + 8 * st.rejected.toNat + 4 * st.treeValid.toNat +
      (match st.state with
        | .idle => 0
        | .ok => 1
        | .error => 2
        | .busy => 3)

/-- A CMD write while BUSY, or of a reserved code, sets REJECTED and changes nothing else
(43_host_commands.md R192). -/
def Obligations.RejectedCmdWrite : Prop :=
  ∀ (s : State) (c : BitVec 8) (rest : List HostAction), s.host = .writeCmd c :: rest →
    (s.status.state = .busy ∨ c ∉ [0x01#8, 0x02#8, 0x03#8]) →
    step s = .next { s with host := rest, status := { s.status with rejected := true } }

/-- A CMD write of a command's code when not BUSY accepts it: REJECTED 0, LAST_CMD the code, STATE BUSY, PENDING
the command, and for DECODE the old tree gone; ERR, ERR_POS, RESULT, IN_LEN and IN_BUF keep their values
(43_host_commands.md R190, R191). On the bus, a write through a window that starts at the register's bit 0 and
carries the whole value is the write of that register by name, whichever register it is and whether it is
accepted or rejected; at an address where BUS_MAP places nothing, an access changes nothing of the block: both
are the model's choice (log 13). -/
def Obligations.AcceptedCmdWrite : Prop :=
  (∀ (s : State) (c : Command) (rest : List HostAction), s.host = .writeCmd c.code :: rest →
    s.status.state ≠ .busy →
    ∃ t, step s = .next t ∧ t.host = rest ∧ t.pending = some c ∧ t.status.state = .busy ∧
      t.status.rejected = false ∧ t.status.lastCmd.toNat = c.code.toNat ∧
      t.err = s.err ∧ t.errPos = s.errPos ∧ t.result = s.result ∧ t.inLen = s.inLen ∧
      t.inBuf = s.inBuf ∧ t.frames = s.frames ∧ t.par = s.par ∧
      (c = .decode → t.tree = none ∧ t.status.treeValid = false) ∧
      (c ≠ .decode → t.tree = s.tree ∧ t.status.treeValid = s.status.treeValid ∧
        t.snap = s.snap ∧ t.draws = s.draws) ∧
      (∀ (address : Nat) (w : BusWindow), busWindow s.par.busMap address = some w →
        w.reg = .cmd → w.lo = 0 → c.code.toNat < 2 ^ min w.size s.par.busMap.width →
        step { s with host := .busWrite address c.code.toNat :: rest } = .next t)) ∧
  (∀ (s : State) (rest : List HostAction) (address v : Nat) (w : BusWindow),
    busWindow s.par.busMap address = some w → w.lo = 0 → v < 2 ^ min w.size s.par.busMap.width →
    step { s with host := .busWrite address v :: rest } =
      step { s with host :=
        (match w.reg with
          | .cmd => .writeCmd (BitVec.ofNat 8 v)
          | .inLen => .writeInLen v
          | .inBuf a => .writeInBuf a (BitVec.ofNat 8 v)
          | .status => .writeReadOnly .status v
          | .err => .writeReadOnly .err v
          | .errPos => .writeReadOnly .errPos v
          | .result => .writeReadOnly .result v) :: rest }) ∧
  (∀ (s : State) (rest : List HostAction) (address v : Nat),
    busWindow s.par.busMap address = none →
    step { s with host := .busWrite address v :: rest } = .next { s with host := rest } ∧
    step { s with host := .busRead address :: rest } = .next { s with host := rest, rdata := none })

/-- Accepting a DECODE takes the snapshot of the IN_LEN first bytes of IN_BUF, every written byte as it is
(20_memory.md R51). What an UNWRITTEN byte reads as is not claimed. -/
def Obligations.SnapshotHoldsTheWrittenBytes : Prop :=
  ∀ (s t : State) (rest : List HostAction), s.host = .writeCmd 0x01 :: rest →
    s.status.state ≠ .busy → step s = .next t →
    t.snap.length = s.inLen ∧
    ∀ (i : Nat) (b : Byte), i < s.inLen → s.readByte i = some b → t.snap[i]? = some b

/-- An IN_LEN write (43_host_commands.md R201). -/
def Obligations.InLenWrite : Prop :=
  ∀ (s : State) (n : Nat) (rest : List HostAction), s.host = .writeInLen n :: rest →
    (s.status.state ≠ .busy → n ≤ s.par.inCap →
      step s = .next { s with host := rest, inLen := n }) ∧
    (s.status.state = .busy ∨ s.par.inCap < n →
      step s = .next { s with host := rest, status := { s.status with rejected := true } })

/-- An IN_BUF write at an existing index: accepted when not BUSY, and then that index holds the byte and every other
index what it held; rejected when BUSY (43_host_commands.md R202). -/
def Obligations.InBufWrite : Prop :=
  ∀ (s : State) (a : Nat) (v : Byte) (rest : List HostAction), s.host = .writeInBuf a v :: rest →
    a < s.par.inCap →
    (s.status.state ≠ .busy →
      ∃ t, step s = .next t ∧ t = { s with host := rest, inBuf := t.inBuf } ∧
        t.readByte a = some v ∧ ∀ a', a' ≠ a → t.readByte a' = s.readByte a') ∧
    (s.status.state = .busy →
      step s = .next { s with host := rest, status := { s.status with rejected := true } })

/-- THE MODEL'S CHOICE (log 11; 93_implementation_defined.md entry 17 refuses such an access): an access to an
IN_BUF index of IN_CAP or more stops the model. -/
def Obligations.AbsentInputByteStops : Prop :=
  ∀ (s : State) (a : Nat) (v : Byte) (rest : List HostAction), s.par.inCap ≤ a →
    (s.host = .writeInBuf a v :: rest → step s = .fault (.noSuchInputByte a)) ∧
    (s.host = .read (.inBuf a) :: rest → step s = .fault (.noSuchInputByte a))

/-- A host read returns the register's value, CMD reading as 0, and has no effect on the block
(43_host_commands.md R203). What an UNWRITTEN byte of IN_BUF reads as is not claimed. Where the value read goes
is the model's choice (log 4). A read at a bus address returns the part of the register that BUS_MAP places
there (20_memory.md R56; log 13). -/
def Obligations.ReadsReturnValuesWithoutEffect : Prop :=
  ∀ (s : State) (rest : List HostAction),
    let reads (r : HostReg) (x : Nat) : Prop :=
      step { s with host := .read r :: rest } = .next { s with host := rest, rdata := some x }
    reads .cmd 0 ∧ reads .status s.status.word.toNat ∧ reads .err s.err.word.toNat ∧
    reads .errPos s.errPos ∧ reads .result s.result ∧ reads .inLen s.inLen ∧
    (∀ (a : Nat) (b : Byte), a < s.par.inCap → s.readByte a = some b → reads (.inBuf a) b.toNat) ∧
    (∀ a : Nat, a < s.par.inCap → s.readByte a = none →
      ∃ (x : Nat) (d : Nat), step { s with host := .read (.inBuf a) :: rest } =
        .next { s with host := rest, rdata := some x, draws := d }) ∧
    (∀ (address : Nat) (w : BusWindow) (x : Nat),
      busWindow s.par.busMap address = some w → reads w.reg x →
      step { s with host := .busRead address :: rest } = .next { s with
        host := rest, rdata := some (x / 2 ^ w.lo % 2 ^ min w.size s.par.busMap.width) })

/-- A write to STATUS, ERR, ERR_POS or RESULT has no effect and does not set REJECTED
(70_reset_and_hazards.md R266). -/
def Obligations.ReadOnlyWritesDoNothing : Prop :=
  ∀ (s : State) (r : ReadOnlyReg) (v : Nat) (rest : List HostAction),
    s.host = .writeReadOnly r v :: rest → step s = .next { s with host := rest }

/-- Reset, from any state, BUSY or not, gives every register the value of 10_state.md R41; what R41 leaves
unspecified is not claimed (70_reset_and_hazards.md R250, R251). -/
def Obligations.ResetGivesResetValues : Prop :=
  (∀ (s : State) (rest : List HostAction), s.host = .reset :: rest →
    ∃ t, step s = .next t ∧ t.host = rest ∧ t.status.word = 0x00 ∧ t.err.word = 0x00 ∧
      t.errPos = 0 ∧ t.result = 0 ∧ t.inLen = 0 ∧ (∀ a, t.readByte a = none) ∧ t.tree = none ∧
      t.pending = none ∧ t.frames = []) ∧
  (State.reset.status.word = 0x00 ∧ State.reset.err.word = 0x00 ∧ State.reset.errPos = 0 ∧
    State.reset.result = 0 ∧ State.reset.inLen = 0 ∧ (∀ a, State.reset.readByte a = none) ∧
    State.reset.tree = none ∧ State.reset.pending = none ∧ State.reset.frames = [])

/-- No step changes the parameters (70_reset_and_hazards.md R254). -/
def Obligations.ParametersAreFixed : Prop :=
  ∀ s t : State, step s = .next t → t.par = s.par

/-- Host accesses other than reset, put anywhere between the engine's steps of a running command, change nothing
of its outcome: REJECTED and what the host has read apart, the state after them and one more engine step is the
state the engine alone reaches (43_host_commands.md R204, 70_reset_and_hazards.md R273). The host's accesses
come from the model's input list (log 3). -/
def Obligations.HostAccessesDoNotDisturbACommand : Prop :=
  ∀ (s u w : State) (acts : List HostAction),
    s.status.state = .busy → (∀ a ∈ acts, a ≠ .reset) → hostOk { s with host := acts } = true →
    runSteps (acts.count .idle) { s with host := [] } = .next u → u.status.state = .busy →
    step u = .next w →
    ∃ (rejected : Bool) (rdata : Option Nat) (draws : Nat),
      runSteps (acts.length + 1) { s with host := acts ++ [.idle] } =
        .next { w with status := { w.status with rejected := rejected }, rdata := rdata, draws := draws }

/-! ## Invariants -/

/-- The state after reset satisfies the invariant. Its clause on the parameters rests on the model's choice of
IN_CAP = 64 (log 2). -/
def Obligations.ResetSatisfiesInvariant : Prop :=
  Inv State.reset = true ∧ hostOk State.reset = true

/-- The registers stay in agreement with one another (10_state.md R23 to R29, R35 to R37). -/
def Obligations.StepKeepsRegistersInAgreement : Prop :=
  ∀ s t : State, registersOk s = true → step s = .next t → registersOk t = true

/-- Every step, from every state that satisfies the invariant, reached or not, gives a state that satisfies it: the
registers agree, TREE is a valid tree within MAX_DEPTH and the store, the decoder's stack is sound, and RESULT
and ERR_POS are below `2^W` (10_state.md R20, R23 to R38). -/
def Obligations.StepKeepsInvariant : Prop :=
  ∀ s t : State, Inv s = true → step s = .next t → Inv t = true

/-- In the states of the invariant, with a host that names existing indices only, a step always has a next
state: no behaviour the spec describes stops the machine. The stops are the model's choice (log 11). -/
def Obligations.StepNeverStops : Prop :=
  ∀ s : State, Inv s = true → hostOk s = true → ∃ t, step s = .next t
end

