-- ==== Sys2Proof/Laws/Bits.lean ====
section
/-! SUPPORT. Bit strings and the numbers they spell: `bitsOfNat` and `natOfBits` undo one another, and a field is
taken back off the string it was put in front of. -/

namespace Sys2Proof

@[simp] theorem bitsOfNat_length (n v : Nat) : (bitsOfNat n v).length = n := by
  induction n with
  | zero => rfl
  | succ n ih => simp [bitsOfNat, ih]

/-- Reading on from a value already read. -/
theorem foldl_bits (bs : Bits) (a : Nat) :
    bs.foldl (fun v b => 2 * v + b.toNat) a = a * 2 ^ bs.length + natOfBits bs := by
  induction bs generalizing a with
  | nil => simp [natOfBits]
  | cons b bs ih =>
    have h := ih (2 * 0 + b.toNat)
    simp only [natOfBits, List.foldl_cons, List.length_cons] at h ⊢
    rw [ih, h]
    simp only [natOfBits]
    ring

@[simp] theorem natOfBits_nil : natOfBits [] = 0 := rfl

theorem natOfBits_cons (b : Bool) (bs : Bits) :
    natOfBits (b :: bs) = b.toNat * 2 ^ bs.length + natOfBits bs := by
  have h := foldl_bits bs (2 * 0 + b.toNat)
  simpa [natOfBits] using h

/-- A string of `n` bits spells a number below `2^n` (40_conversion_and_reader.md R105). -/
theorem natOfBits_lt (bs : Bits) : natOfBits bs < 2 ^ bs.length := by
  induction bs with
  | nil => simp
  | cons b bs ih =>
    rw [natOfBits_cons, List.length_cons, Nat.pow_succ]
    cases b <;> simp <;> omega

/-- Reading back the low bits of a number. -/
theorem natOfBits_bitsOfNat (n v : Nat) : natOfBits (bitsOfNat n v) = v % 2 ^ n := by
  induction n with
  | zero => simp [bitsOfNat, Nat.mod_one]
  | succ n ih =>
    rw [bitsOfNat, natOfBits_cons, ih, bitsOfNat_length]
    rw [Nat.mod_pow_succ, Nat.testBit_eq_decide_div_mod_eq]
    rcases Nat.mod_two_eq_zero_or_one (v / 2 ^ n) with h | h <;> simp [h]
    omega

/-- A bit string is the low bits of the number it spells. -/
theorem bitsOfNat_natOfBits (bs : Bits) : bitsOfNat bs.length (natOfBits bs) = bs := by
  induction bs with
  | nil => rfl
  | cons b bs ih =>
    have hlt := natOfBits_lt bs
    have hlow : ∀ (n x y : Nat), bitsOfNat n (x * 2 ^ n + y) = bitsOfNat n y := by
      intro n
      induction n with
      | zero => intros; rfl
      | succ n ihn =>
        intro x y
        rw [bitsOfNat, bitsOfNat]
        have h1 : x * 2 ^ (n + 1) + y = (2 * x) * 2 ^ n + y := by rw [Nat.pow_succ]; ring
        refine congrArg₂ List.cons ?_ ?_
        · simp only [Nat.testBit_eq_decide_div_mod_eq]
          rw [h1, Nat.add_comm, Nat.add_mul_div_right _ _ (Nat.two_pow_pos n)]
          congr 1
          simp [Nat.add_mod]
        · rw [h1]; exact ihn _ _
    rw [List.length_cons, bitsOfNat, natOfBits_cons, hlow, ih]
    congr 1
    rw [Nat.testBit_eq_decide_div_mod_eq, Nat.add_comm, Nat.add_mul_div_right _ _ (Nat.two_pow_pos _),
      Nat.div_eq_of_lt hlt]
    cases b <;> simp

/-- Taking a field that is there. -/
theorem takeField_append (bs rest : Bits) :
    takeField bs.length (bs ++ rest) = some (natOfBits bs, rest) := by
  simp [takeField]

/-- Taking back a field put in front. -/
theorem takeField_bitsOfNat (n v : Nat) (rest : Bits) :
    takeField n (bitsOfNat n v ++ rest) = some (v % 2 ^ n, rest) := by
  have h := takeField_append (bitsOfNat n v) rest
  rwa [bitsOfNat_length, natOfBits_bitsOfNat] at h

/-- What a taken field was: `n` bits in front, spelling its value. -/
theorem takeField_eq_some {n v : Nat} {bs rest : Bits} (h : takeField n bs = some (v, rest)) :
    bs = bitsOfNat n v ++ rest ∧ v < 2 ^ n := by
  unfold takeField at h
  split at h
  · simp at h
  · rename_i hlen
    simp only [Option.some.injEq, Prod.mk.injEq] at h
    obtain ⟨rfl, rfl⟩ := h
    have hl : (bs.take n).length = n := by simp; omega
    have h1 := bitsOfNat_natOfBits (bs.take n)
    have h2 := natOfBits_lt (bs.take n)
    rw [hl] at h1 h2
    exact ⟨by rw [h1, List.take_append_drop], h2⟩

/-- A field is missing exactly when too few bits are left. -/
theorem takeField_eq_none {n : Nat} {bs : Bits} : takeField n bs = none ↔ bs.length < n := by
  unfold takeField
  split <;> simp_all

@[simp] theorem Opcode.ofTypeId_code (op : Opcode) : Opcode.ofTypeId op.code = some op := by
  cases op <;> rfl

/-- A type id that names an opcode is that opcode's code. -/
theorem Opcode.code_of_ofTypeId {t : TypeId} {op : Opcode} (h : Opcode.ofTypeId t = some op) :
    op.code = t := by
  revert op
  revert t
  decide

/-- Only the Literal's type id names no opcode (30_encoding.md R81). -/
theorem Opcode.ofTypeId_eq_none (t : TypeId) : Opcode.ofTypeId t = none ↔ t = 4 := by
  revert t
  decide

@[simp] theorem decodeCommand_code (c : Command) : decodeCommand c.code = .ok c := by
  cases c <;> rfl

end Sys2Proof
end

