-- ==== Sys2Proof/Laws/Memory.lean ====
section
/-! SUPPORT. IN_BUF: a read after a write, and the canonical form, which every memory operation keeps and the
reset memory has. -/

namespace Sys2Proof.Machine

/-- A written index reads as the byte written. -/
theorem Memory.read_write_same (m : Memory) (a : Nat) (v : Byte) : (m.write a v).read a = some v := by
  induction m with
  | nil => simp [Memory.write, Memory.read]
  | cons c rest ih =>
    unfold Memory.write
    split
    · simp [Memory.read]
    · split
      · simp [Memory.read]
      · rename_i h1 h2
        have h3 : ¬ c.1 = a := fun h => h2 h.symm
        simp [Memory.read, h3, ih]

/-- Every other index reads as before. -/
theorem Memory.read_write_other (m : Memory) (a b : Nat) (v : Byte) (h : b ≠ a) :
    (m.write a v).read b = m.read b := by
  induction m with
  | nil => simp [Memory.write, Memory.read, Ne.symm h]
  | cons c rest ih =>
    unfold Memory.write
    split
    · simp [Memory.read, Ne.symm h]
    · split
      · rename_i h1 h2
        simp [Memory.read, Ne.symm h, ← h2]
      · simp [Memory.read, ih]

/-- The canonical form, one cell at a time. -/
theorem Memory.wf_cons (c : Host.Cell) (rest : Memory) :
    Memory.wf (c :: rest) = true ↔ (∀ d ∈ rest.head?, c.1 < d.1) ∧ Memory.wf rest = true := by
  cases rest <;> simp [Memory.wf]

/-- The first cell after a write holds the index written or the index that was first. -/
theorem Memory.head_write (m : Memory) (a : Nat) (v : Byte) :
    ∀ d ∈ (m.write a v).head?, d.1 = a ∨ ∃ c ∈ m.head?, d.1 = c.1 := by
  cases m with
  | nil => simp [Memory.write]
  | cons c rest =>
    unfold Memory.write
    split
    · simp
    · split <;> simp

/-- A write keeps the canonical form. -/
theorem Memory.wf_write (m : Memory) (a : Nat) (v : Byte) (h : m.wf = true) :
    (m.write a v).wf = true := by
  induction m with
  | nil => simp [Memory.write, Memory.wf]
  | cons c rest ih =>
    obtain ⟨hc, hr⟩ := (Memory.wf_cons c rest).1 h
    unfold Memory.write
    split
    · rename_i hlt
      exact (Memory.wf_cons _ _).2 ⟨by simpa using hlt, h⟩
    · split
      · rename_i heq
        exact (Memory.wf_cons _ _).2 ⟨by simpa [heq] using hc, hr⟩
      · rename_i h1 h2
        refine (Memory.wf_cons _ _).2 ⟨fun d hd => ?_, ih hr⟩
        rcases Memory.head_write rest a v d hd with h3 | ⟨e, he, h3⟩
        · omega
        · rw [h3]; exact hc e he

/-- A write below a bound keeps every index below it. -/
theorem Memory.below_write (m : Memory) (a n : Nat) (v : Byte) (ha : a < n) (h : m.below n = true) :
    (m.write a v).below n = true := by
  induction m with
  | nil => simpa [Memory.write, Memory.below] using ha
  | cons c rest ih =>
    simp only [Memory.below, List.all_cons, Bool.and_eq_true, decide_eq_true_eq] at h ih
    unfold Memory.write
    split
    · simp [Memory.below, ha, h.1, h.2]
    · split
      · simp [Memory.below, ha, h.2]
      · simp [Memory.below, h.1, ih h.2]

/-- The reset memory is in canonical form. -/
theorem reset_inBuf_wf : State.reset.inBuf.wf = true := rfl

/-- A run of reads gives one byte for each index. -/
theorem readRun_length (m : Memory) (n a d : Nat) : (readRun m n a d).1.length = n := by
  induction n generalizing a d with
  | zero => rfl
  | succ n ih => simp [readRun, ih]

end Sys2Proof.Machine
end

