-- ==== Sys2Proof/Laws/State.lean ====
section
/-! SUPPORT. One lemma per field for each named update of the state (Machine/Ops.lean), true by `rfl`. -/

namespace Sys2Proof.Machine

/-! ## The block under each update: each is a function of the block alone. Not `@[simp]`, so that the lemmas of the
fields fire first. -/

theorem reject_toBlock (s : State) : (reject s).toBlock = s.toBlock.reject := rfl
theorem completeOk_toBlock (r : Nat) (s : State) : (completeOk r s).toBlock = s.toBlock.completeOk r := rfl
theorem raise_toBlock (e : ErrorClass) (pos : Nat) (s : State) :
    (raise e pos s).toBlock = s.toBlock.raise e pos := rfl
theorem completeDecode_toBlock (p : Packet) (s : State) :
    (completeDecode p s).toBlock = s.toBlock.completeDecode p := rfl
theorem resetEvent_toBlock (s : State) : (resetEvent s).toBlock = Block.reset := rfl
theorem accept_toBlock (c : Command) (s : State) : (accept c s).toBlock = s.toBlock.accept c := by
  cases c <;> rfl

/-! ## reject -/

@[simp] theorem reject_par (s : State) : (reject s).par = s.par := rfl
@[simp] theorem reject_status (s : State) : (reject s).status = { s.status with rejected := true } := rfl
@[simp] theorem reject_err (s : State) : (reject s).err = s.err := rfl
@[simp] theorem reject_errPos (s : State) : (reject s).errPos = s.errPos := rfl
@[simp] theorem reject_result (s : State) : (reject s).result = s.result := rfl
@[simp] theorem reject_inLen (s : State) : (reject s).inLen = s.inLen := rfl
@[simp] theorem reject_inBuf (s : State) : (reject s).inBuf = s.inBuf := rfl
@[simp] theorem reject_snap (s : State) : (reject s).snap = s.snap := rfl
@[simp] theorem reject_bits (s : State) : (reject s).bits = s.bits := rfl
@[simp] theorem reject_cursor (s : State) : (reject s).cursor = s.cursor := rfl
@[simp] theorem reject_tree (s : State) : (reject s).tree = s.tree := rfl
@[simp] theorem reject_pending (s : State) : (reject s).pending = s.pending := rfl
@[simp] theorem reject_frames (s : State) : (reject s).frames = s.frames := rfl
@[simp] theorem reject_host (s : State) : (reject s).host = s.host := rfl
@[simp] theorem reject_rdata (s : State) : (reject s).rdata = s.rdata := rfl
@[simp] theorem reject_draws (s : State) : (reject s).draws = s.draws := rfl

/-! ## takeSnapshot -/

@[simp] theorem takeSnapshot_par (s : State) : (takeSnapshot s).par = s.par := rfl
@[simp] theorem takeSnapshot_status (s : State) : (takeSnapshot s).status = s.status := rfl
@[simp] theorem takeSnapshot_err (s : State) : (takeSnapshot s).err = s.err := rfl
@[simp] theorem takeSnapshot_errPos (s : State) : (takeSnapshot s).errPos = s.errPos := rfl
@[simp] theorem takeSnapshot_result (s : State) : (takeSnapshot s).result = s.result := rfl
@[simp] theorem takeSnapshot_inLen (s : State) : (takeSnapshot s).inLen = s.inLen := rfl
@[simp] theorem takeSnapshot_inBuf (s : State) : (takeSnapshot s).inBuf = s.inBuf := rfl
@[simp] theorem takeSnapshot_snap (s : State) : (takeSnapshot s).snap = (readRun s.inBuf s.inLen 0 s.draws).1 := rfl
@[simp] theorem takeSnapshot_bits (s : State) : (takeSnapshot s).bits = s.bits := rfl
@[simp] theorem takeSnapshot_cursor (s : State) : (takeSnapshot s).cursor = s.cursor := rfl
@[simp] theorem takeSnapshot_tree (s : State) : (takeSnapshot s).tree = s.tree := rfl
@[simp] theorem takeSnapshot_pending (s : State) : (takeSnapshot s).pending = s.pending := rfl
@[simp] theorem takeSnapshot_frames (s : State) : (takeSnapshot s).frames = s.frames := rfl
@[simp] theorem takeSnapshot_host (s : State) : (takeSnapshot s).host = s.host := rfl
@[simp] theorem takeSnapshot_rdata (s : State) : (takeSnapshot s).rdata = s.rdata := rfl
@[simp] theorem takeSnapshot_draws (s : State) : (takeSnapshot s).draws = (readRun s.inBuf s.inLen 0 s.draws).2 := rfl

/-! ## completeOk -/

@[simp] theorem completeOk_par (r : Nat) (s : State) : (completeOk r s).par = s.par := rfl
@[simp] theorem completeOk_status (r : Nat) (s : State) : (completeOk r s).status = { s.status with state := .ok } := rfl
@[simp] theorem completeOk_err (r : Nat) (s : State) : (completeOk r s).err = noErr := rfl
@[simp] theorem completeOk_errPos (r : Nat) (s : State) : (completeOk r s).errPos = 0 := rfl
@[simp] theorem completeOk_result (r : Nat) (s : State) : (completeOk r s).result = r := rfl
@[simp] theorem completeOk_inLen (r : Nat) (s : State) : (completeOk r s).inLen = s.inLen := rfl
@[simp] theorem completeOk_inBuf (r : Nat) (s : State) : (completeOk r s).inBuf = s.inBuf := rfl
@[simp] theorem completeOk_snap (r : Nat) (s : State) : (completeOk r s).snap = s.snap := rfl
@[simp] theorem completeOk_bits (r : Nat) (s : State) : (completeOk r s).bits = s.bits := rfl
@[simp] theorem completeOk_cursor (r : Nat) (s : State) : (completeOk r s).cursor = s.cursor := rfl
@[simp] theorem completeOk_tree (r : Nat) (s : State) : (completeOk r s).tree = s.tree := rfl
@[simp] theorem completeOk_pending (r : Nat) (s : State) : (completeOk r s).pending = none := rfl
@[simp] theorem completeOk_frames (r : Nat) (s : State) : (completeOk r s).frames = s.frames := rfl
@[simp] theorem completeOk_host (r : Nat) (s : State) : (completeOk r s).host = s.host := rfl
@[simp] theorem completeOk_rdata (r : Nat) (s : State) : (completeOk r s).rdata = s.rdata := rfl
@[simp] theorem completeOk_draws (r : Nat) (s : State) : (completeOk r s).draws = s.draws := rfl

/-! ## raise -/

@[simp] theorem raise_par (e : ErrorClass) (pos : Nat) (s : State) : (raise e pos s).par = s.par := rfl
@[simp] theorem raise_status (e : ErrorClass) (pos : Nat) (s : State) : (raise e pos s).status = { s.status with state := .error } := rfl
@[simp] theorem raise_err (e : ErrorClass) (pos : Nat) (s : State) : (raise e pos s).err = e.toErr := rfl
@[simp] theorem raise_errPos (e : ErrorClass) (pos : Nat) (s : State) : (raise e pos s).errPos = pos := rfl
@[simp] theorem raise_result (e : ErrorClass) (pos : Nat) (s : State) : (raise e pos s).result = 0 := rfl
@[simp] theorem raise_inLen (e : ErrorClass) (pos : Nat) (s : State) : (raise e pos s).inLen = s.inLen := rfl
@[simp] theorem raise_inBuf (e : ErrorClass) (pos : Nat) (s : State) : (raise e pos s).inBuf = s.inBuf := rfl
@[simp] theorem raise_snap (e : ErrorClass) (pos : Nat) (s : State) : (raise e pos s).snap = s.snap := rfl
@[simp] theorem raise_bits (e : ErrorClass) (pos : Nat) (s : State) : (raise e pos s).bits = s.bits := rfl
@[simp] theorem raise_cursor (e : ErrorClass) (pos : Nat) (s : State) : (raise e pos s).cursor = s.cursor := rfl
@[simp] theorem raise_tree (e : ErrorClass) (pos : Nat) (s : State) : (raise e pos s).tree = s.tree := rfl
@[simp] theorem raise_pending (e : ErrorClass) (pos : Nat) (s : State) : (raise e pos s).pending = none := rfl
@[simp] theorem raise_frames (e : ErrorClass) (pos : Nat) (s : State) : (raise e pos s).frames = [] := rfl
@[simp] theorem raise_host (e : ErrorClass) (pos : Nat) (s : State) : (raise e pos s).host = s.host := rfl
@[simp] theorem raise_rdata (e : ErrorClass) (pos : Nat) (s : State) : (raise e pos s).rdata = s.rdata := rfl
@[simp] theorem raise_draws (e : ErrorClass) (pos : Nat) (s : State) : (raise e pos s).draws = s.draws := rfl

/-! ## completeDecode -/

@[simp] theorem completeDecode_par (p : Packet) (s : State) : (completeDecode p s).par = s.par := rfl
@[simp] theorem completeDecode_status (p : Packet) (s : State) : (completeDecode p s).status = { s.status with state := .ok, treeValid := true } := rfl
@[simp] theorem completeDecode_err (p : Packet) (s : State) : (completeDecode p s).err = noErr := rfl
@[simp] theorem completeDecode_errPos (p : Packet) (s : State) : (completeDecode p s).errPos = 0 := rfl
@[simp] theorem completeDecode_result (p : Packet) (s : State) : (completeDecode p s).result = s.cursor := rfl
@[simp] theorem completeDecode_inLen (p : Packet) (s : State) : (completeDecode p s).inLen = s.inLen := rfl
@[simp] theorem completeDecode_inBuf (p : Packet) (s : State) : (completeDecode p s).inBuf = s.inBuf := rfl
@[simp] theorem completeDecode_snap (p : Packet) (s : State) : (completeDecode p s).snap = s.snap := rfl
@[simp] theorem completeDecode_bits (p : Packet) (s : State) : (completeDecode p s).bits = s.bits := rfl
@[simp] theorem completeDecode_cursor (p : Packet) (s : State) : (completeDecode p s).cursor = s.cursor := rfl
@[simp] theorem completeDecode_tree (p : Packet) (s : State) : (completeDecode p s).tree = some p := rfl
@[simp] theorem completeDecode_pending (p : Packet) (s : State) : (completeDecode p s).pending = none := rfl
@[simp] theorem completeDecode_frames (p : Packet) (s : State) : (completeDecode p s).frames = [] := rfl
@[simp] theorem completeDecode_host (p : Packet) (s : State) : (completeDecode p s).host = s.host := rfl
@[simp] theorem completeDecode_rdata (p : Packet) (s : State) : (completeDecode p s).rdata = s.rdata := rfl
@[simp] theorem completeDecode_draws (p : Packet) (s : State) : (completeDecode p s).draws = s.draws := rfl

/-! ## resetEvent -/

@[simp] theorem resetEvent_par (s : State) : (resetEvent s).par = s.par := rfl
@[simp] theorem resetEvent_status (s : State) : (resetEvent s).status = State.reset.status := rfl
@[simp] theorem resetEvent_err (s : State) : (resetEvent s).err = State.reset.err := rfl
@[simp] theorem resetEvent_errPos (s : State) : (resetEvent s).errPos = State.reset.errPos := rfl
@[simp] theorem resetEvent_result (s : State) : (resetEvent s).result = State.reset.result := rfl
@[simp] theorem resetEvent_inLen (s : State) : (resetEvent s).inLen = State.reset.inLen := rfl
@[simp] theorem resetEvent_inBuf (s : State) : (resetEvent s).inBuf = State.reset.inBuf := rfl
@[simp] theorem resetEvent_snap (s : State) : (resetEvent s).snap = State.reset.snap := rfl
@[simp] theorem resetEvent_bits (s : State) : (resetEvent s).bits = State.reset.bits := rfl
@[simp] theorem resetEvent_cursor (s : State) : (resetEvent s).cursor = State.reset.cursor := rfl
@[simp] theorem resetEvent_tree (s : State) : (resetEvent s).tree = State.reset.tree := rfl
@[simp] theorem resetEvent_pending (s : State) : (resetEvent s).pending = State.reset.pending := rfl
@[simp] theorem resetEvent_frames (s : State) : (resetEvent s).frames = State.reset.frames := rfl
@[simp] theorem resetEvent_host (s : State) : (resetEvent s).host = s.host := rfl
@[simp] theorem resetEvent_rdata (s : State) : (resetEvent s).rdata = s.rdata := rfl
@[simp] theorem resetEvent_draws (s : State) : (resetEvent s).draws = s.draws := rfl

/-! ## accept -/

@[simp] theorem accept_par (c : Command) (s : State) : (accept c s).par = s.par := by cases c <;> rfl
@[simp] theorem accept_err (c : Command) (s : State) : (accept c s).err = s.err := by cases c <;> rfl
@[simp] theorem accept_errPos (c : Command) (s : State) : (accept c s).errPos = s.errPos := by cases c <;> rfl
@[simp] theorem accept_result (c : Command) (s : State) : (accept c s).result = s.result := by cases c <;> rfl
@[simp] theorem accept_inLen (c : Command) (s : State) : (accept c s).inLen = s.inLen := by cases c <;> rfl
@[simp] theorem accept_inBuf (c : Command) (s : State) : (accept c s).inBuf = s.inBuf := by cases c <;> rfl
@[simp] theorem accept_bits (c : Command) (s : State) : (accept c s).bits = s.bits := by cases c <;> rfl
@[simp] theorem accept_cursor (c : Command) (s : State) : (accept c s).cursor = s.cursor := by cases c <;> rfl
@[simp] theorem accept_pending (c : Command) (s : State) : (accept c s).pending = some c := by cases c <;> rfl
@[simp] theorem accept_frames (c : Command) (s : State) : (accept c s).frames = s.frames := by cases c <;> rfl
@[simp] theorem accept_host (c : Command) (s : State) : (accept c s).host = s.host := by cases c <;> rfl
@[simp] theorem accept_rdata (c : Command) (s : State) : (accept c s).rdata = s.rdata := by cases c <;> rfl

/-- STATUS after an acceptance (43_host_commands.md R191). -/
@[simp] theorem accept_status (c : Command) (s : State) :
    (accept c s).status =
      { state := .busy
        treeValid := if c = .decode then false else s.status.treeValid
        rejected := false
        lastCmd := c.code.setWidth 4 } := by
  cases c <;> rfl

/-- TREE after an acceptance: only a DECODE discards it (43_host_commands.md R191). -/
@[simp] theorem accept_tree (c : Command) (s : State) :
    (accept c s).tree = if c = .decode then none else s.tree := by
  cases c <;> rfl

/-- The snapshot after an acceptance: only a DECODE takes it (20_memory.md R51). -/
@[simp] theorem accept_snap (c : Command) (s : State) :
    (accept c s).snap = if c = .decode then (readRun s.inBuf s.inLen 0 s.draws).1 else s.snap := by
  cases c <;> rfl

/-- The draw counter after an acceptance. -/
@[simp] theorem accept_draws (c : Command) (s : State) :
    (accept c s).draws = if c = .decode then (readRun s.inBuf s.inLen 0 s.draws).2 else s.draws := by
  cases c <;> rfl

end Sys2Proof.Machine
end

