-- ==== Sys2Proof/Laws/Ops.lean ====
section
/-! SUPPORT. What each shared operation can do, said once: the provers cite these instead of unfolding the
operation. -/

namespace Sys2Proof.Machine

/-! ## The bit reader -/

/-- A read succeeds exactly when enough bits are left, and then only moves CURSOR. -/
theorem readBits_eq_some {n v : Nat} {s t : State} :
    readBits n s = some (v, t) ↔
      s.cursor + n ≤ s.bits.length ∧ v = natOfBits ((s.bits.drop s.cursor).take n) ∧
      t = { s with cursor := s.cursor + n } := by
  unfold readBits readAt
  by_cases h : s.bits.length < s.cursor + n
  · simp [h]
  · have h' : s.cursor + n ≤ s.bits.length := by omega
    simp only [h, if_false, h', true_and, Option.some.injEq, Prod.mk.injEq]
    exact ⟨fun ⟨a, b⟩ => ⟨a.symm, b.symm⟩, fun ⟨a, b⟩ => ⟨a.symm, b.symm⟩⟩

/-- A read fails exactly when too few bits are left. -/
theorem readBits_eq_none {n : Nat} {s : State} :
    readBits n s = none ↔ s.bits.length < s.cursor + n := by
  unfold readBits readAt
  split <;> simp_all

/-! ## The decoder's micro-steps -/

/-- What the step in ReadHeader can do: read a header, or end with a truncation at V or at T. -/
theorem headerStep_cases (fs : List Frame) (s : State) :
    (∃ v, s.cursor + 6 ≤ s.bits.length ∧
      (headerStep fs s = { s with cursor := s.cursor + 6, frames := .literalGroupLoop v 0 :: fs } ∨
       ∃ op, headerStep fs s =
        { s with cursor := s.cursor + 6, frames := .operatorLengthModeSelect v op :: fs })) ∨
    (s.bits.length < s.cursor + 3 ∧ headerStep fs s = raise .truncatedStream s.cursor s) ∨
    (s.cursor + 3 ≤ s.bits.length ∧ s.bits.length < s.cursor + 6 ∧
      headerStep fs s =
        raise .truncatedStream (s.cursor + 3) { s with cursor := s.cursor + 3 }) := by
  unfold headerStep
  split
  · rename_i h
    exact .inr (.inl ⟨readBits_eq_none.1 h, rfl⟩)
  · rename_i v s1 h
    obtain ⟨h1, -, rfl⟩ := readBits_eq_some.1 h
    split
    · rename_i h2
      have h3 := readBits_eq_none.1 h2
      exact .inr (.inr ⟨h1, h3, rfl⟩)
    · rename_i t s2 h2
      obtain ⟨h3, -, rfl⟩ := readBits_eq_some.1 h2
      refine .inl ⟨BitVec.ofNat 3 v, by simpa using h3, ?_⟩
      split
      · exact .inl rfl
      · exact .inr ⟨_, rfl⟩

/-- What reading a group can do: go on, end the Literal, overflow, or end with a truncation at C or at D. -/
theorem literalGroup_cases (ver : Version) (acc : Nat) (fs : List Frame) (s : State) :
    (∃ g, s.cursor + 5 ≤ s.bits.length ∧ g < 16 ∧ fits s.par (16 * acc + g) = true ∧
      (literalGroup ver acc fs s =
        { s with cursor := s.cursor + 5, frames := .done (.lit ver (16 * acc + g)) :: fs } ∨
       literalGroup ver acc fs s =
        { s with cursor := s.cursor + 5, frames := .literalGroupLoop ver (16 * acc + g) :: fs })) ∨
    (s.cursor + 5 ≤ s.bits.length ∧
      literalGroup ver acc fs s =
        raise .overflow (s.cursor + 5) { s with cursor := s.cursor + 5 }) ∨
    (s.bits.length < s.cursor + 1 ∧ literalGroup ver acc fs s = raise .truncatedStream s.cursor s) ∨
    (s.cursor + 1 ≤ s.bits.length ∧ s.bits.length < s.cursor + 5 ∧
      literalGroup ver acc fs s =
        raise .truncatedStream (s.cursor + 1) { s with cursor := s.cursor + 1 }) := by
  unfold literalGroup
  split
  · rename_i h
    exact .inr (.inr (.inl ⟨readBits_eq_none.1 h, rfl⟩))
  · rename_i c s1 h
    obtain ⟨h1, -, rfl⟩ := readBits_eq_some.1 h
    split
    · rename_i h2
      have h3 := readBits_eq_none.1 h2
      exact .inr (.inr (.inr ⟨h1, h3, rfl⟩))
    · rename_i g s2 h2
      obtain ⟨h3, hg, rfl⟩ := readBits_eq_some.1 h2
      have h4 : s.cursor + 5 ≤ s.bits.length := by simpa using h3
      split
      · rename_i hf
        refine .inl ⟨g, h4, ?_, hf, ?_⟩
        · subst hg
          refine lt_of_lt_of_le (natOfBits_lt _) (Nat.pow_le_pow_right (by decide) (List.length_take_le 4 _))
        · split
          · exact .inl rfl
          · exact .inr rfl
      · exact .inr (.inl ⟨h4, rfl⟩)

/-- A `.LEN` form has a next state exactly where the top frame awaits a length type. -/
theorem openByLength_next {op : Opcode} {ver : Version} {len : LenField} {s t : State} :
    openByLength op ver len s = .next t ↔
      ∃ v o fs, s.frames = .operatorLengthModeSelect v o :: fs ∧
        t = { s with
          cursor := s.cursor + 16
          frames := .fixedBitLengthChildrenLoop ver op (s.cursor + 16 + len.toNat) .nil :: fs } := by
  unfold openByLength
  constructor
  · intro h
    split at h
    · rename_i v o fs hf
      exact ⟨v, o, fs, hf, by simpa using h.symm⟩
    · simp at h
  · rintro ⟨v, o, fs, hf, rfl⟩
    simp [hf]

/-- A `.CNT` form has a next state exactly where the top frame awaits a length type. -/
theorem openByCount_next {op : Opcode} {ver : Version} {count : CountField} {s t : State} :
    openByCount op ver count s = .next t ↔
      ∃ v o fs, s.frames = .operatorLengthModeSelect v o :: fs ∧
        t = { s with
          cursor := s.cursor + 12
          frames := .countedChildrenLoop ver op count.toNat .nil :: fs } := by
  unfold openByCount
  constructor
  · intro h
    split at h
    · rename_i v o fs hf
      exact ⟨v, o, fs, hf, by simpa using h.symm⟩
    · simp at h
  · rintro ⟨v, o, fs, hf, rfl⟩
    simp [hf]

/-- What pushing a child can do. -/
theorem pushChild_cases (s : State) :
    (depthAllowed s.par (s.frames.length + 1) = true ∧
      pushChild s = { s with frames := .readHeader :: s.frames }) ∨
    (depthAllowed s.par (s.frames.length + 1) = false ∧
      pushChild s = raise (.structural .depthLimit) s.cursor s) := by
  unfold pushChild
  split <;> simp_all

/-- What completing a frame can do. -/
theorem completeFrame_cases (ver : Version) (op : Opcode) (cs : Packets) (fs : List Frame)
    (s : State) :
    (cs = .nil ∧ completeFrame ver op cs fs s = raise (.structural .zeroChildren) s.cursor s) ∨
    (cs ≠ .nil ∧ s.par.arityStage = .decode ∧ op.isComparison = true ∧ cs.length ≠ 2 ∧
      completeFrame ver op cs fs s = raise (.structural .cmpArity) s.cursor s) ∨
    (cs ≠ .nil ∧ (s.par.arityStage = .decode → op.isComparison = true → cs.length = 2) ∧
      completeFrame ver op cs fs s = { s with frames := .done (.op ver op.code cs) :: fs }) := by
  unfold completeFrame
  split
  · exact .inl ⟨‹_›, rfl⟩
  · split
    · rename_i h1 h2
      exact .inr (.inl ⟨h1, h2.1, h2.2.1, h2.2.2, rfl⟩)
    · rename_i h1 h2
      refine .inr (.inr ⟨h1, fun a b => ?_, rfl⟩)
      by_contra h3
      exact h2 ⟨a, b, h3⟩

/-- What leaving a finished packet can do. -/
theorem leaveFrame_next {p : Packet} {fs : List Frame} {s t : State}
    (h : leaveFrame p fs s = .next t) :
    (fs = [] ∧ t = completeDecode p s) ∨
    (∃ v op target cs gs, fs = .fixedBitLengthChildrenLoop v op target cs :: gs ∧
      ((target < s.cursor ∧ t = raise (.structural .len0Overshoot) s.cursor s) ∨
       (s.cursor ≤ target ∧
        t = { s with frames := .fixedBitLengthChildrenLoop v op target (cs.snoc p) :: gs }))) ∨
    (∃ v op n cs gs, fs = .countedChildrenLoop v op n cs :: gs ∧
      t = { s with frames := .countedChildrenLoop v op (n - 1) (cs.snoc p) :: gs }) := by
  unfold leaveFrame at h
  split at h
  · exact .inl ⟨rfl, by simpa using h.symm⟩
  · rename_i v op target cs gs
    refine .inr (.inl ⟨v, op, target, cs, gs, rfl, ?_⟩)
    split at h
    · exact .inl ⟨‹_›, by simpa using h.symm⟩
    · exact .inr ⟨by omega, by simpa using h.symm⟩
  · rename_i v op n cs gs
    exact .inr (.inr ⟨v, op, n, cs, gs, rfl, by simpa using h.symm⟩)
  · simp at h

/-! ## The commands -/

/-- What the start of a DECODE can do. -/
theorem startDecode_cases (s : State) :
    (∃ bs, convertInput s.snap = .ok bs ∧
      startDecode s = { s with bits := bs, cursor := 0, frames := [.readHeader] }) ∨
    (∃ j, convertInput s.snap = .error j ∧ startDecode s = raise .hexDecode j s) := by
  unfold startDecode
  split
  · rename_i j h
    exact .inr ⟨j, h, rfl⟩
  · rename_i bs h
    exact .inl ⟨bs, h, rfl⟩

/-- What SUM_VERSIONS can do. -/
theorem execSumVersions_cases (s : State) :
    (s.tree = none ∧ execSumVersions s = .next (raise .noTree 0 s)) ∨
    (∃ p, s.tree = some p ∧ execSumVersions s = .next (completeOk (sumOfVersions p) s)) := by
  unfold execSumVersions
  split
  · exact .inl ⟨‹_›, rfl⟩
  · exact .inr ⟨_, ‹_›, rfl⟩

/-- What EVALUATE can do. -/
theorem execEvaluate_cases (s : State) :
    (s.tree = none ∧ execEvaluate s = .next (raise .noTree 0 s)) ∨
    (∃ p, s.tree = some p ∧
      ((∃ v, evaluate s.par 0 p = .ok v ∧ execEvaluate s = .next (completeOk v s)) ∨
       (∃ e pos, evaluate s.par 0 p = .error (.raised e pos) ∧
        execEvaluate s = .next (raise e pos s)) ∨
       (evaluate s.par 0 p = .error .noValue ∧ execEvaluate s = .fault .operandCount))) := by
  unfold execEvaluate
  split
  · exact .inl ⟨‹_›, rfl⟩
  · rename_i p hp
    refine .inr ⟨p, hp, ?_⟩
    split
    · rename_i v h
      exact .inl ⟨v, h, rfl⟩
    · rename_i e pos h
      exact .inr (.inl ⟨e, pos, h, rfl⟩)
    · rename_i h
      exact .inr (.inr ⟨h, rfl⟩)

/-- What LIT can do: it has a next state exactly where the top frame reads a Literal's groups. -/
theorem execLit_next {ver : Version} {s t : State} :
    execLit ver s = .next t ↔
      ∃ v acc fs, s.frames = .literalGroupLoop v acc :: fs ∧ t = literalGroup ver acc fs s := by
  unfold execLit
  constructor
  · intro h
    split at h
    · rename_i v acc fs hf
      exact ⟨v, acc, fs, hf, by simpa using h.symm⟩
    · simp at h
  · rintro ⟨v, acc, fs, hf, rfl⟩
    simp [hf]

/-- Each `.LEN` arm of `exec` is `openByLength` of its opcode. -/
theorem exec_lenForm (op : Opcode) (v : Version) (l : LenField) (s : State) :
    exec (op.lenForm v l) s = openByLength op v l s := by
  cases op <;> rfl

/-- Each `.CNT` arm of `exec` is `openByCount` of its opcode. -/
theorem exec_cntForm (op : Opcode) (v : Version) (n : CountField) (s : State) :
    exec (op.cntForm v n) s = openByCount op v n s := by
  cases op <;> rfl

/-- The 18 arms of `exec`, as five shapes. -/
theorem instr_shapes (i : Instr) :
    (∃ v, i = .lit v) ∨ (∃ op v l, i = Opcode.lenForm v l op) ∨ (∃ op v n, i = Opcode.cntForm v n op) ∨
    (∃ c, i = Command.toInstr c) := by
  cases i with
  | lit v => exact .inl ⟨v, rfl⟩
  | sumLen v l => exact .inr (.inl ⟨.sum, v, l, rfl⟩)
  | prodLen v l => exact .inr (.inl ⟨.prod, v, l, rfl⟩)
  | minLen v l => exact .inr (.inl ⟨.min, v, l, rfl⟩)
  | maxLen v l => exact .inr (.inl ⟨.max, v, l, rfl⟩)
  | gtLen v l => exact .inr (.inl ⟨.gt, v, l, rfl⟩)
  | ltLen v l => exact .inr (.inl ⟨.lt, v, l, rfl⟩)
  | eqLen v l => exact .inr (.inl ⟨.eq, v, l, rfl⟩)
  | sumCnt v n => exact .inr (.inr (.inl ⟨.sum, v, n, rfl⟩))
  | prodCnt v n => exact .inr (.inr (.inl ⟨.prod, v, n, rfl⟩))
  | minCnt v n => exact .inr (.inr (.inl ⟨.min, v, n, rfl⟩))
  | maxCnt v n => exact .inr (.inr (.inl ⟨.max, v, n, rfl⟩))
  | gtCnt v n => exact .inr (.inr (.inl ⟨.gt, v, n, rfl⟩))
  | ltCnt v n => exact .inr (.inr (.inl ⟨.lt, v, n, rfl⟩))
  | eqCnt v n => exact .inr (.inr (.inl ⟨.eq, v, n, rfl⟩))
  | decode => exact .inr (.inr (.inr ⟨.decode, rfl⟩))
  | sumVersions => exact .inr (.inr (.inr ⟨.sumVersions, rfl⟩))
  | evaluate => exact .inr (.inr (.inr ⟨.evaluate, rfl⟩))

/-! ## Host accesses -/

/-- What a CMD write can do. -/
theorem writeCmd_cases (c : BitVec 8) (s : State) :
    (writeCmd c s = reject s ∧ (s.status.state = .busy ∨ ∃ e, decodeCommand c = .error e)) ∨
    (s.status.state ≠ .busy ∧ ∃ k, decodeCommand c = .ok k ∧ writeCmd c s = accept k s) := by
  unfold writeCmd Block.isBusy
  split
  · rename_i h
    exact .inl ⟨rfl, .inl (by simpa using h)⟩
  · rename_i h
    have h' : s.status.state ≠ .busy := by simpa using h
    split
    · rename_i e he
      exact .inl ⟨rfl, .inr ⟨e, he⟩⟩
    · rename_i k hk
      exact .inr ⟨h', k, hk, rfl⟩

/-- What an IN_LEN write can do. -/
theorem writeInLen_cases (n : Nat) (s : State) :
    (writeInLen n s = reject s ∧ (s.status.state = .busy ∨ s.par.inCap < n)) ∨
    (s.status.state ≠ .busy ∧ n ≤ s.par.inCap ∧ writeInLen n s = { s with inLen := n }) := by
  unfold writeInLen Block.isBusy
  split
  · rename_i h
    exact .inl ⟨rfl, .inl (by simpa using h)⟩
  · rename_i h
    have h' : s.status.state ≠ .busy := by simpa using h
    split
    · exact .inr ⟨h', ‹_›, rfl⟩
    · exact .inl ⟨rfl, .inr (by omega)⟩

/-- What an IN_BUF write can do. -/
theorem writeInBuf_cases (a : Nat) (v : Byte) (s : State) :
    (s.status.state = .busy ∧ writeInBuf a v s = reject s) ∨
    (s.status.state ≠ .busy ∧ writeInBuf a v s = { s with inBuf := s.inBuf.write a v }) := by
  unfold writeInBuf Block.isBusy
  split
  · rename_i h
    exact .inl ⟨by simpa using h, rfl⟩
  · rename_i h
    exact .inr ⟨by simpa using h, rfl⟩

/-- What a write of a register as a whole can do: the write of that name, or nothing to a read-only one. -/
theorem writeReg_cases (r : HostReg) (v : Nat) (s : State) :
    (r = .cmd ∧ writeReg r v s = writeCmd (BitVec.ofNat 8 v) s) ∨
    (r = .inLen ∧ writeReg r v s = writeInLen v s) ∨
    (∃ a, r = .inBuf a ∧ writeReg r v s = writeInBuf a (BitVec.ofNat 8 v) s) ∨
    (r ∈ [.status, .err, .errPos, .result] ∧ writeReg r v s = s) := by
  cases r <;> simp [writeReg]

/-- What a bus write can do: nothing where BUS_MAP places nothing, else a write of the register placed there. -/
theorem busWrite_cases (address v : Nat) (s : State) :
    (busWindow s.par.busMap address = none ∧ busWrite address v s = s) ∨
    (∃ w, busWindow s.par.busMap address = some w ∧
      busWrite address v s = writeReg w.reg (v % 2 ^ busCarried s.par.busMap w * 2 ^ w.lo) s) := by
  unfold busWrite
  split
  · exact .inl ⟨‹_›, rfl⟩
  · exact .inr ⟨_, ‹_›, rfl⟩

/-- What a bus read can do: only `rdata` and the draw counter change. -/
theorem busRead_cases (address : Nat) (s : State) :
    (busWindow s.par.busMap address = none ∧ busRead address s = { s with rdata := none }) ∨
    (∃ w, busWindow s.par.busMap address = some w ∧
      busRead address s = { s with
        rdata := some ((readReg w.reg s).1 / 2 ^ w.lo % 2 ^ busCarried s.par.busMap w)
        draws := (readReg w.reg s).2 }) := by
  unfold busRead
  split
  · exact .inl ⟨‹_›, rfl⟩
  · exact .inr ⟨_, ‹_›, rfl⟩

/-- A host access has a next state exactly when the IN_BUF index it names, if any, exists. -/
theorem hostAccess_next {a : HostAction} {s t : State} :
    hostAccess a s = .next t ↔
      (∀ i ∈ a.index s.par.busMap, i < s.par.inCap) ∧ t = hostEffect a s := by
  cases hi : a.index s.par.busMap with
  | none => simp [hostAccess, hi, eq_comm]
  | some i => by_cases hlt : i < s.par.inCap <;> simp [hostAccess, hi, hlt, eq_comm]

/-! ## The step -/

/-- What a step can do: it is the engine's, with its `idle` entry gone if it had one, or a host access. -/
theorem step_cases (s : State) :
    (s.host = [] ∧ step s = engineStep s) ∨
    (∃ rest, s.host = .idle :: rest ∧ step s = engineStep { s with host := rest }) ∨
    (∃ a rest, s.host = a :: rest ∧ a ≠ .idle ∧ step s = hostAccess a { s with host := rest }) := by
  unfold step
  split
  · exact .inl ⟨‹_›, rfl⟩
  · rename_i rest h
    exact .inr (.inl ⟨rest, h, rfl⟩)
  · rename_i a rest h2 h1
    exact .inr (.inr ⟨a, rest, h1, h2, rfl⟩)

/-- The step over the block's record alone is the step, with the parameters left out of what it answers. -/
theorem stepBlock_next {par : Params} {o o' : Outside} {b b' : Block} :
    stepBlock par o b = .next (b', o') ↔
      ∃ t, step { b, o with par := par } = .next t ∧ t.toBlock = b' ∧ t.toOutside = o' := by
  unfold stepBlock
  split <;> simp_all

/-- What the engine's turn is: nothing, a micro-step of the running DECODE, or the work of the pending command. -/
theorem engineTurn_cases (s : State) :
    (s.pending = none ∧ engineTurn s = .internal (.next s)) ∨
    (∃ f fs, s.pending = some .decode ∧ s.frames = f :: fs ∧ engineTurn s = frameTurn f fs s) ∨
    (∃ c, s.pending = some c ∧ (c = .decode → s.frames = []) ∧ engineTurn s = .run c.toInstr) := by
  unfold engineTurn
  split
  · exact .inl ⟨‹_›, rfl⟩
  · rename_i h
    split
    · rename_i hf
      exact .inr (.inr ⟨.decode, h, fun _ => hf, rfl⟩)
    · rename_i f fs hf
      exact .inr (.inl ⟨f, fs, h, hf, rfl⟩)
  · rename_i h
    exact .inr (.inr ⟨.sumVersions, h, by simp, rfl⟩)
  · rename_i h
    exact .inr (.inr ⟨.evaluate, h, by simp, rfl⟩)

end Sys2Proof.Machine
end

