-- ==== Sys2Proof/Laws/PerInstr.lean ====
section
/-! SUPPORT. Statements made for every instruction, one lemma per constructor. -/

namespace Sys2Proof.Laws

/-- The opcode-table row of an instruction: its pattern's width, mask and match (30_encoding.md R86). -/
def row : Instr → Nat × Nat × Nat
  | .lit _ => (6, 0x07, 0x04)
  | .sumLen _ _ => (22, 0x78000, 0x0)
  | .sumCnt _ _ => (18, 0x7800, 0x800)
  | .prodLen _ _ => (22, 0x78000, 0x10000)
  | .prodCnt _ _ => (18, 0x7800, 0x1800)
  | .minLen _ _ => (22, 0x78000, 0x20000)
  | .minCnt _ _ => (18, 0x7800, 0x2800)
  | .maxLen _ _ => (22, 0x78000, 0x30000)
  | .maxCnt _ _ => (18, 0x7800, 0x3800)
  | .gtLen _ _ => (22, 0x78000, 0x50000)
  | .gtCnt _ _ => (18, 0x7800, 0x5800)
  | .ltLen _ _ => (22, 0x78000, 0x60000)
  | .ltCnt _ _ => (18, 0x7800, 0x6800)
  | .eqLen _ _ => (22, 0x78000, 0x70000)
  | .eqCnt _ _ => (18, 0x7800, 0x7800)
  | .decode => (8, 0xff, 0x1)
  | .sumVersions => (8, 0xff, 0x2)
  | .evaluate => (8, 0xff, 0x3)

/-- The word of an encoding as the table numbers it: its width, and its bits read as one number, first bit most
significant (30_encoding.md R86). -/
def wordOf : Encoded → Nat × Nat
  | .stream bs => (bs.length, natOfBits bs)
  | .cmd c => (8, c.toNat)

/-- The words of an instruction have the width of its table row and match it under the row's mask
(30_encoding.md R86). -/
def RowPattern.Statement (i : Instr) : Prop :=
  (wordOf (encode i)).1 = (row i).1 ∧ (wordOf (encode i)).2 &&& (row i).2.1 = (row i).2.2

/-- The number a concatenation spells. -/
theorem natOfBits_append (a b : Bits) :
    natOfBits (a ++ b) = natOfBits a * 2 ^ b.length + natOfBits b := by
  rw [natOfBits, List.foldl_append, foldl_bits]
  rfl

/-- The word of an OPL pattern. -/
theorem wordOf_opl (op : Opcode) (v : Version) (l : LenField) :
    wordOf (.stream (oplBits op v l)) = (22, v.toNat * 2 ^ 19 + op.code.toNat * 2 ^ 16 + l.toNat) := by
  have hv := v.isLt
  have ht := op.code.isLt
  have hl := l.isLt
  simp only [wordOf, oplBits, headerBits, natOfBits_append, natOfBits_cons, natOfBits_bitsOfNat,
    bitsOfNat_length, List.length_append, List.length_cons, Bool.toNat_false]
  refine Prod.ext rfl ?_
  simp only
  omega

/-- The word of an OPC pattern. -/
theorem wordOf_opc (op : Opcode) (v : Version) (n : CountField) :
    wordOf (.stream (opcBits op v n)) =
      (18, v.toNat * 2 ^ 15 + op.code.toNat * 2 ^ 12 + 2 ^ 11 + n.toNat) := by
  have hv := v.isLt
  have ht := op.code.isLt
  have hn := n.isLt
  simp only [wordOf, opcBits, headerBits, natOfBits_append, natOfBits_cons, natOfBits_bitsOfNat,
    bitsOfNat_length, List.length_append, List.length_cons, Bool.toNat_true]
  refine Prod.ext rfl ?_
  simp only
  omega

/-- Masking four bits above the `k` low ones keeps the middle part of a sum. -/
theorem mask_middle (k a b c : Nat) (hb : b < 16) (hc : c < 2 ^ k) :
    (a * 2 ^ (k + 4) + b * 2 ^ k + c) &&& (15 * 2 ^ k) = b * 2 ^ k := by
  have h15 : (15 : Nat) = 2 ^ 4 - 1 := rfl
  have hsplit : a * 2 ^ (k + 4) + b * 2 ^ k + c = (a * 16 + b) * 2 ^ k + c := by
    rw [Nat.pow_add]; ring
  rw [hsplit]
  apply Nat.eq_of_testBit_eq
  intro i
  rw [Nat.testBit_and, Nat.testBit_mul_two_pow, Nat.testBit_mul_two_pow]
  by_cases hi : k ≤ i
  · have h1 : ((a * 16 + b) * 2 ^ k + c).testBit i = (a * 16 + b).testBit (i - k) := by
      have h2 := Nat.testBit_two_pow_mul_add (a * 16 + b) hc i
      rw [Nat.mul_comm] at h2
      rw [h2, if_neg (by omega)]
    rw [h1, h15, Nat.testBit_two_pow_sub_one]
    by_cases hj : i - k < 4
    · have h3 := Nat.testBit_two_pow_mul_add a (i := 4) (b := b) hb (i - k)
      rw [Nat.mul_comm] at h3
      simp only [show (2 : Nat) ^ 4 = 16 from rfl] at h3
      simp [h3, hi, hj]
    · have h4 : b.testBit (i - k) = false :=
        Nat.testBit_lt_two_pow (lt_of_lt_of_le hb (by
          calc (16 : Nat) = 2 ^ 4 := rfl
            _ ≤ 2 ^ (i - k) := Nat.pow_le_pow_right (by decide) (by omega)))
      simp [hi, hj, h4]
  · simp [hi]

/-- The OPL rows: the mask picks out T and I. -/
theorem opl_row (op : Opcode) (v : Version) (l : LenField) :
    (wordOf (.stream (oplBits op v l))).1 = 22 ∧
    (wordOf (.stream (oplBits op v l))).2 &&& 0x78000 = op.code.toNat * 2 ^ 16 := by
  have ht := op.code.isLt
  rw [wordOf_opl]
  refine ⟨rfl, ?_⟩
  have h := mask_middle 15 v.toNat (op.code.toNat * 2) l.toNat (by omega) l.isLt
  have e1 : v.toNat * 2 ^ (15 + 4) + op.code.toNat * 2 * 2 ^ 15 + l.toNat =
      v.toNat * 2 ^ 19 + op.code.toNat * 2 ^ 16 + l.toNat := by ring
  rw [e1] at h
  simp only [show (15 : Nat) * 2 ^ 15 = 0x78000 from rfl] at h
  rw [h]
  ring

/-- The OPC rows: the mask picks out T and I. -/
theorem opc_row (op : Opcode) (v : Version) (n : CountField) :
    (wordOf (.stream (opcBits op v n))).1 = 18 ∧
    (wordOf (.stream (opcBits op v n))).2 &&& 0x7800 = op.code.toNat * 2 ^ 12 + 2 ^ 11 := by
  have ht := op.code.isLt
  rw [wordOf_opc]
  refine ⟨rfl, ?_⟩
  have h := mask_middle 11 v.toNat (op.code.toNat * 2 + 1) n.toNat (by omega) n.isLt
  have e1 : v.toNat * 2 ^ (11 + 4) + (op.code.toNat * 2 + 1) * 2 ^ 11 + n.toNat =
      v.toNat * 2 ^ 15 + op.code.toNat * 2 ^ 12 + 2 ^ 11 + n.toNat := by ring
  rw [e1] at h
  simp only [show (15 : Nat) * 2 ^ 11 = 0x7800 from rfl] at h
  rw [h]
  ring

theorem RowPattern.lit (v : Version) : RowPattern.Statement (.lit v) := by
  revert v; unfold RowPattern.Statement; decide
theorem RowPattern.sumLen (v : Version) (l : LenField) : RowPattern.Statement (.sumLen v l) :=
  opl_row .sum v l
theorem RowPattern.sumCnt (v : Version) (n : CountField) : RowPattern.Statement (.sumCnt v n) :=
  opc_row .sum v n
theorem RowPattern.prodLen (v : Version) (l : LenField) : RowPattern.Statement (.prodLen v l) :=
  opl_row .prod v l
theorem RowPattern.prodCnt (v : Version) (n : CountField) : RowPattern.Statement (.prodCnt v n) :=
  opc_row .prod v n
theorem RowPattern.minLen (v : Version) (l : LenField) : RowPattern.Statement (.minLen v l) :=
  opl_row .min v l
theorem RowPattern.minCnt (v : Version) (n : CountField) : RowPattern.Statement (.minCnt v n) :=
  opc_row .min v n
theorem RowPattern.maxLen (v : Version) (l : LenField) : RowPattern.Statement (.maxLen v l) :=
  opl_row .max v l
theorem RowPattern.maxCnt (v : Version) (n : CountField) : RowPattern.Statement (.maxCnt v n) :=
  opc_row .max v n
theorem RowPattern.gtLen (v : Version) (l : LenField) : RowPattern.Statement (.gtLen v l) :=
  opl_row .gt v l
theorem RowPattern.gtCnt (v : Version) (n : CountField) : RowPattern.Statement (.gtCnt v n) :=
  opc_row .gt v n
theorem RowPattern.ltLen (v : Version) (l : LenField) : RowPattern.Statement (.ltLen v l) :=
  opl_row .lt v l
theorem RowPattern.ltCnt (v : Version) (n : CountField) : RowPattern.Statement (.ltCnt v n) :=
  opc_row .lt v n
theorem RowPattern.eqLen (v : Version) (l : LenField) : RowPattern.Statement (.eqLen v l) :=
  opl_row .eq v l
theorem RowPattern.eqCnt (v : Version) (n : CountField) : RowPattern.Statement (.eqCnt v n) :=
  opc_row .eq v n
theorem RowPattern.decode : RowPattern.Statement .decode := ⟨rfl, rfl⟩
theorem RowPattern.sumVersions : RowPattern.Statement .sumVersions := ⟨rfl, rfl⟩
theorem RowPattern.evaluate : RowPattern.Statement .evaluate := ⟨rfl, rfl⟩

end Sys2Proof.Laws
end

