-- ==== Sys2Proof/Tests/Slice0.lean ====
section
/-! SUPPORT. Small tests whose expected values come from the spec (its encodings written out, or the vectors of
95_test_vectors.md, named in each comment), and for every obligation with hypotheses a witness that meets
them. -/

namespace Sys2Proof.Tests

open Sys2Proof Sys2Proof.Machine

/-! ## Well-formedness: each check refuses an ill-formed term -/

/-- `L = 10` is too short for one child of 11 bits (30_encoding.md R79, R82). -/
theorem test_wf_short_len : (Instr.sumLen 0 10).wf = false ∧ (Instr.sumLen 0 11).wf = true := by decide
/-- `L = 21` is too short for the two children of a comparison. -/
theorem test_wf_short_comparison_len :
    (Instr.gtLen 0 21).wf = false ∧ (Instr.gtLen 0 22).wf = true := by decide
/-- `N = 0` has no children. -/
theorem test_wf_zero_count : (Instr.maxCnt 0 0).wf = false ∧ (Instr.maxCnt 0 1).wf = true := by decide
/-- A comparison counts exactly two children. -/
theorem test_wf_comparison_count :
    (Instr.eqCnt 0 1).wf = false ∧ (Instr.eqCnt 0 3).wf = false ∧ (Instr.eqCnt 0 2).wf = true := by
  decide
/-- The parameters' ranges and `4 × IN_CAP < 2^W` (00_scope.md R6, R7). -/
theorem test_params_legal :
    Params.legal { Config.defaultParams with valueWidth := some 63 } = false ∧
    Params.legal { Config.defaultParams with inCap := 0 } = false ∧
    Params.legal { Config.defaultParams with inCap := 2 ^ 62 } = false ∧
    Params.legal { Config.defaultParams with maxDepth := some 0 } = false ∧
    Params.legal { Config.defaultParams with valueWidth := none, inCap := 2 ^ 62 } = true := by decide

/-! ## Decoding: words written out from 30_encoding.md R73 to R77 and R83 as `V T`, `V T 0 L`, `V T 1 N` -/

/-- S1: V 110, T 100. -/
theorem test_decode_lit : decodeTableWord 6 0b110_100 = some (.lit 6) := by decide
/-- V-O11: V 000, T 000, I 0, L = 100. -/
theorem test_decode_sumLen :
    decodeTableWord 22 0b000_000_0_000000001100100 = some (.sumLen 0 100) := by decide
/-- S5: V 110, T 000, I 1, N = 2. -/
theorem test_decode_sumCnt : decodeTableWord 18 0b110_000_1_00000000010 = some (.sumCnt 6 2) := by decide
/-- S6: V 000, T 001, I 0, L = 22. -/
theorem test_decode_prodLen :
    decodeTableWord 22 0b000_001_0_000000000010110 = some (.prodLen 0 22) := by decide
/-- S12, its second child: V 110, T 001, I 1, N = 2. -/
theorem test_decode_prodCnt : decodeTableWord 18 0b110_001_1_00000000010 = some (.prodCnt 6 2) := by decide
/-- S7: V 100, T 010, I 0, L = 33. -/
theorem test_decode_minLen :
    decodeTableWord 22 0b100_010_0_000000000100001 = some (.minLen 4 33) := by decide
/-- S4: V 100, T 010, I 1, N = 1. -/
theorem test_decode_minCnt : decodeTableWord 18 0b100_010_1_00000000001 = some (.minCnt 4 1) := by decide
/-- R76: V 111, T 011, I 0, L with its first bit set. -/
theorem test_decode_maxLen :
    decodeTableWord 22 0b111_011_0_100000000000001 = some (.maxLen 7 16385) := by decide
/-- S3: V 111, T 011, I 1, N = 3. -/
theorem test_decode_maxCnt : decodeTableWord 18 0b111_011_1_00000000011 = some (.maxCnt 7 3) := by decide
/-- R76: V 001, T 101, I 0, L of ones. -/
theorem test_decode_gtLen :
    decodeTableWord 22 0b001_101_0_111111111111111 = some (.gtLen 1 32767) := by decide
/-- S10: V 111, T 101, I 1, N = 2. -/
theorem test_decode_gtCnt : decodeTableWord 18 0b111_101_1_00000000010 = some (.gtCnt 7 2) := by decide
/-- S2: V 001, T 110, I 0, L = 27. -/
theorem test_decode_ltLen :
    decodeTableWord 22 0b001_110_0_000000000011011 = some (.ltLen 1 27) := by decide
/-- V-O6: V 001, T 110, I 1, N = 3. -/
theorem test_decode_ltCnt : decodeTableWord 18 0b001_110_1_00000000011 = some (.ltCnt 1 3) := by decide
/-- S12: V 100, T 111, I 0, L = 80. -/
theorem test_decode_eqLen :
    decodeTableWord 22 0b100_111_0_000000001010000 = some (.eqLen 4 80) := by decide
/-- R77: V 010, T 111, I 1, N of ones. -/
theorem test_decode_eqCnt :
    decodeTableWord 18 0b010_111_1_11111111111 = some (.eqCnt 2 2047) := by decide
/-- R83: 0x01, 0x02, 0x03. -/
theorem test_decode_commands :
    decodeTableWord 8 0x01 = some .decode ∧ decodeTableWord 8 0x02 = some .sumVersions ∧
    decodeTableWord 8 0x03 = some .evaluate := by decide
/-- 10_state.md R22: other CMD codes are reserved. -/
theorem test_decode_reserved : ∀ c ∈ [0x00#8, 0x04#8, 0x81#8, 0xFF#8],
    (decode (.cmd c)).toOption = none := by decide
/-- 40_conversion_and_reader.md R106: a pattern cut short is no instruction. -/
theorem test_decode_truncated :
    (decode (.stream [true, true])).toOption = none ∧
    (decode (.stream (bitsOfNat 21 0))).toOption = none := by decide

/-! ## Small states -/

/-- The registers of a DECODE in progress. -/
def inDecode : State :=
  { State.reset with
    status := { state := .busy, treeValid := false, rejected := false, lastCmd := 1 }
    pending := some .decode }

/-- A DECODE in progress over the first `n` bits that `w` spells, at CURSOR `c`, with these frames. -/
def decodingAt (n w c : Nat) (fs : List Frame) : State :=
  { inDecode with bits := bitsOfNat n w, cursor := c, frames := fs }

/-- A DECODE about to convert these bytes. -/
def decodeOf (S : List Byte) : State :=
  { inDecode with snap := S }

/-- A block that has this tree and runs this command. -/
def querying (c : Command) (p : Packet) : State :=
  { State.reset with
    status := { state := .busy, treeValid := true, rejected := false, lastCmd := c.code.setWidth 4 }
    tree := some p
    pending := some c }

/-- The reset state with these host actions to come. -/
def hosted (acts : List HostAction) : State :=
  { State.reset with host := acts }

/-- A platform that places CMD at 0x10, STATUS at 0x14 and the two halves of ERR_POS at 0x20 and 0x24. -/
def platform : BusMap :=
  { width := 32
    windows := [⟨0x10, 8, 0, .cmd⟩, ⟨0x14, 8, 0, .status⟩, ⟨0x20, 32, 0, .errPos⟩,
      ⟨0x24, 32, 32, .errPos⟩] }

/-- A block on that platform, with a wide ERR_POS and these host actions to come. -/
def onBus (acts : List HostAction) : State :=
  { hosted acts with errPos := 2 ^ 33 + 5, par := { Config.defaultParams with busMap := platform } }

/-- The same parameters but for the arity stage. -/
def lateArity : Params := { Config.defaultParams with arityStage := .evaluate }

/-- CURSOR and FRAMES of a next state. -/
def position : Result → Option (Nat × List Frame)
  | .next t => some (t.cursor, t.frames)
  | _ => none

/-- STATUS, ERR, ERR_POS and RESULT of a next state. -/
def outputs : Result → Option (BitVec 8 × BitVec 8 × Nat × Nat)
  | .next t => some (t.status.word, t.err.word, t.errPos, t.result)
  | _ => none

/-- The children of an Operator. -/
def kids : List Packet → Packets
  | [] => .nil
  | p :: ps => .cons p (kids ps)

/-- The tree of S12 (95_test_vectors.md section 1.1). -/
def s12 : Packet :=
  .op 4 7 (kids [.op 2 0 (kids [.lit 2 1, .lit 4 3]), .op 6 1 (kids [.lit 0 2, .lit 2 2])])

/-- The tree of V-E18 (95_test_vectors.md section 2.4). -/
def vE18 : Packet :=
  .op 0 0 (kids [.lit 0 1, .op 0 1 (kids [.lit 0 4294967296, .lit 0 4294967296])])

/-- The tree of V-E19 (95_test_vectors.md section 2.4). -/
def vE19 : Packet :=
  .op 3 0 (kids [.lit 4 4, .op 5 6 (kids [.lit 6 1, .lit 7 2, .lit 0 3])])

/-- The whitespace bytes (40_conversion_and_reader.md R100). -/
def spaces : List Byte := [0x09, 0x0A, 0x0B, 0x0C, 0x0D, 0x20]

/-- `D2FE28` as its characters (30_encoding.md R70). -/
def textS1 : List Byte := [0x44, 0x32, 0x46, 0x45, 0x32, 0x38]

/-! ## Packet forms: one step each, from the traces and layouts of 95_test_vectors.md -/

/-- S1, micro-step 3. -/
theorem test_lit_middle_group :
    position (step (decodingAt 24 0xD2FE28 11 [.literalGroupLoop 6 7])) =
      some (16, [.literalGroupLoop 6 126]) := by decide
/-- S1, micro-step 4. -/
theorem test_lit_last_group :
    position (step (decodingAt 24 0xD2FE28 16 [.literalGroupLoop 6 126])) =
      some (21, [.done (.lit 6 2021)]) := by decide
/-- V-O9: target 32. -/
theorem test_sumLen_opens :
    position (step (decodingAt 36 0x000028408 6 [.operatorLengthModeSelect 0 .sum])) =
      some (22, [.fixedBitLengthChildrenLoop 0 .sum 32 .nil]) := by decide
/-- S5. -/
theorem test_sumCnt_opens :
    position (step (decodingAt 40 0xC200B40A82 6 [.operatorLengthModeSelect 6 .sum])) =
      some (18, [.countedChildrenLoop 6 .sum 2 .nil]) := by decide
/-- S6: target 44. -/
theorem test_prodLen_opens :
    position (step (decodingAt 48 0x04005AC33890 6 [.operatorLengthModeSelect 0 .prod])) =
      some (22, [.fixedBitLengthChildrenLoop 0 .prod 44 .nil]) := by decide
/-- S12, its second child. -/
theorem test_prodCnt_opens :
    position (step (decodingAt 104 0x9C0141080250320F1802104A08 68
      [.operatorLengthModeSelect 6 .prod])) =
      some (80, [.countedChildrenLoop 6 .prod 2 .nil]) := by decide
/-- S7: target 55. -/
theorem test_minLen_opens :
    position (step (decodingAt 56 0x880086C3E88112 6 [.operatorLengthModeSelect 4 .min])) =
      some (22, [.fixedBitLengthChildrenLoop 4 .min 55 .nil]) := by decide
/-- S4. -/
theorem test_minCnt_opens :
    position (step (decodingAt 72 0x8A004A801A8002F478 6 [.operatorLengthModeSelect 4 .min])) =
      some (18, [.countedChildrenLoop 4 .min 1 .nil]) := by decide
/-- 41_packet_decode.md R128 on `V 000, T 011, I 0, L = 11`: target 33. -/
theorem test_maxLen_opens :
    position (step (decodingAt 22 0b000_011_0_000000000001011 6
      [.operatorLengthModeSelect 0 .max])) =
      some (22, [.fixedBitLengthChildrenLoop 0 .max 33 .nil]) := by decide
/-- S3, micro-step 2. -/
theorem test_maxCnt_opens :
    position (step (decodingAt 56 0xEE00D40C823060 6 [.operatorLengthModeSelect 7 .max])) =
      some (18, [.countedChildrenLoop 7 .max 3 .nil]) := by decide
/-- 41_packet_decode.md R128 on `V 001, T 101, I 0, L = 22`: target 44. -/
theorem test_gtLen_opens :
    position (step (decodingAt 22 0b001_101_0_000000000010110 6
      [.operatorLengthModeSelect 1 .gt])) =
      some (22, [.fixedBitLengthChildrenLoop 1 .gt 44 .nil]) := by decide
/-- S10. -/
theorem test_gtCnt_opens :
    position (step (decodingAt 40 0xF600BC2D8F 6 [.operatorLengthModeSelect 7 .gt])) =
      some (18, [.countedChildrenLoop 7 .gt 2 .nil]) := by decide
/-- S2: target 49. -/
theorem test_ltLen_opens :
    position (step (decodingAt 56 0x38006F45291200 6 [.operatorLengthModeSelect 1 .lt])) =
      some (22, [.fixedBitLengthChildrenLoop 1 .lt 49 .nil]) := by decide
/-- V-O6. -/
theorem test_ltCnt_opens :
    position (step (decodingAt 52 0x3A00CC0982306 6 [.operatorLengthModeSelect 1 .lt])) =
      some (18, [.countedChildrenLoop 1 .lt 3 .nil]) := by decide
/-- S12: target 102. -/
theorem test_eqLen_opens :
    position (step (decodingAt 104 0x9C0141080250320F1802104A08 6
      [.operatorLengthModeSelect 4 .eq])) =
      some (22, [.fixedBitLengthChildrenLoop 4 .eq 102 .nil]) := by decide
/-- V-E15. -/
theorem test_eqCnt_opens :
    position (step (decodingAt 40 0x1E00842885 6 [.operatorLengthModeSelect 0 .eq])) =
      some (18, [.countedChildrenLoop 0 .eq 2 .nil]) := by decide

/-! ## The decoder's other micro-steps -/

/-- V-L6: OVERFLOW after group 17. -/
theorem test_literal_overflow :
    outputs (step (decodingAt 92 0x52308421084210842108400 86 [.literalGroupLoop 2 (2 ^ 60)])) =
      some (0x12, 0x04, 91, 0) := by decide
/-- S3, micro-step 1. -/
theorem test_header :
    position (step (decodingAt 56 0xEE00D40C823060 0 [.readHeader])) =
      some (6, [.operatorLengthModeSelect 7 .max]) := by decide
/-- V-C11: the type id is cut. -/
theorem test_truncated_type :
    outputs (step (decodingAt 4 0x0 0 [.readHeader])) = some (0x12, 0x02, 3, 0) := by decide
/-- V-O4: CMP_ARITY at 29. -/
theorem test_comparison_arity :
    outputs (step (decodingAt 32 0x36004C08 29
      [.countedChildrenLoop 1 .gt 0 (kids [.lit 1 1])])) = some (0x12, 0x23, 29, 0) := by decide
/-- V-O10: LEN0_OVERSHOOT at 44, target 34. -/
theorem test_overshoot :
    outputs (step (decodingAt 44 0x00003040882 44
      [.done (.lit 0 2), .fixedBitLengthChildrenLoop 0 .sum 34 (kids [.lit 0 1])])) =
      some (0x12, 0x33, 44, 0) := by decide
/-- V-O16: DEPTH_LIMIT at 36 with MAX_DEPTH = 2. -/
theorem test_depth_limit :
    outputs (step { decodingAt 72 0x8A004A801A8002F478 36
      [.countedChildrenLoop 1 .min 1 .nil, .countedChildrenLoop 4 .min 1 .nil] with
      par := { Config.defaultParams with maxDepth := some 2 } }) = some (0x12, 0x53, 36, 0) := by decide
/-- S1, micro-step 5: the DECODE completes. -/
theorem test_decode_completes :
    outputs (step (decodingAt 24 0xD2FE28 21 [.done (.lit 6 2021)])) = some (0x15, 0x00, 0, 21) := by
  decide

/-! ## Commands -/

/-- V-C3: the bytes of S1 with whitespace around them. -/
theorem test_decode_converts :
    (match step (decodeOf ([0x20, 0x09] ++ textS1 ++ [0x0D, 0x0A])) with
      | .next t => some (t.bits, t.cursor, t.frames)
      | _ => none) = some (bitsOfNat 24 0xD2FE28, 0, [.readHeader]) := by decide
/-- V-C6: a space inside. -/
theorem test_decode_bad_byte :
    outputs (step (decodeOf [0x44, 0x32, 0x20, 0x46, 0x45, 0x32, 0x38])) = some (0x12, 0x01, 2, 0) := by
  decide
/-- S12: the version sum 20 (P1). -/
theorem test_sumVersions : outputs (step (querying .sumVersions s12)) = some (0x25, 0x00, 0, 20) := by decide
/-- V-H2: NO_TREE. -/
theorem test_sumVersions_without_tree :
    outputs (step { State.reset with
      status := { state := .busy, treeValid := false, rejected := false, lastCmd := 2 }
      pending := some .sumVersions }) = some (0x22, 0x05, 0, 0) := by decide
/-- S12: (1 + 3) = (2 × 2) (P1). -/
theorem test_evaluate : outputs (step (querying .evaluate s12)) = some (0x35, 0x00, 0, 1) := by decide
/-- V-E18: the inner PROD overflows, at index 2. -/
theorem test_evaluate_overflow :
    outputs (step (querying .evaluate vE18)) = some (0x36, 0x04, 2, 0) := by decide
/-- P5: CMP_ARITY at index 2 when EVALUATE checks arity. -/
theorem test_evaluate_arity :
    outputs (step { querying .evaluate vE19 with par := lateArity }) = some (0x36, 0x23, 2, 0) := by decide
/-- S5 to S8: the values of SUM, PROD, MIN and MAX. -/
theorem test_values :
    outputs (step (querying .evaluate (.op 6 0 (kids [.lit 6 1, .lit 2 2])))) = some (0x35, 0, 0, 3) ∧
    outputs (step (querying .evaluate (.op 0 1 (kids [.lit 5 6, .lit 3 9])))) = some (0x35, 0, 0, 54) ∧
    outputs (step (querying .evaluate (.op 4 2 (kids [.lit 5 7, .lit 6 8, .lit 0 9])))) =
      some (0x35, 0, 0, 7) ∧
    outputs (step (querying .evaluate (.op 6 3 (kids [.lit 0 7, .lit 5 8, .lit 0 9])))) =
      some (0x35, 0, 0, 9) := by decide
/-- S9 to S11, V-E12 and V-E13: the values of LT, GT and EQ. -/
theorem test_comparisons :
    outputs (step (querying .evaluate (.op 6 6 (kids [.lit 5 5, .lit 2 15])))) = some (0x35, 0, 0, 1) ∧
    outputs (step (querying .evaluate (.op 7 5 (kids [.lit 7 5, .lit 5 15])))) = some (0x35, 0, 0, 0) ∧
    outputs (step (querying .evaluate (.op 4 7 (kids [.lit 5 5, .lit 7 15])))) = some (0x35, 0, 0, 0) ∧
    outputs (step (querying .evaluate (.op 0 5 (kids [.lit 0 5, .lit 0 5])))) = some (0x35, 0, 0, 0) ∧
    outputs (step (querying .evaluate (.op 0 5 (kids [.lit 0 6, .lit 0 5])))) = some (0x35, 0, 0, 1) := by
  decide

/-! ## The host -/

/-- V-H3: a reserved code sets REJECTED only. -/
theorem test_reserved_code : outputs (step (hosted [.writeCmd 0x00])) = some (0x08, 0x00, 0, 0) := by decide
/-- P4, event 1: an accepted DECODE. -/
theorem test_accepted : outputs (step (hosted [.writeCmd 0x01])) = some (0x13, 0x00, 0, 0) := by decide
/-- V-H5: with IN_CAP = 16, 17 characters are too many. -/
theorem test_in_len_too_large :
    outputs (step { hosted [.writeInLen 17] with
      par := { Config.defaultParams with inCap := 16 } }) = some (0x08, 0x00, 0, 0) := by decide
/-- 20_memory.md R56, R60: a command through CMD's bus address (V-H2's acceptance), and the halves of ERR_POS. -/
theorem test_bus :
    outputs (step (onBus [.busWrite 0x10 0x02])) = some (0x23, 0x00, 2 ^ 33 + 5, 0) ∧
    (∀ x ∈ [(0x20, some 5), (0x24, some 2), (0x28, none)],
      (match step (onBus [.busRead x.1]) with | .next t => t.rdata | _ => some 99) = x.2) := by decide
/-- 41_packet_decode.md R128, 40_conversion_and_reader.md R106: L is cut, so I has been read. -/
theorem test_truncated_len :
    outputs (step (decodingAt 20 0x00000 6 [.operatorLengthModeSelect 0 .sum])) =
      some (0x12, 0x02, 7, 0) ∧
    position (step (decodingAt 20 0x00000 6 [.operatorLengthModeSelect 0 .sum])) = some (7, []) := by
  decide
/-- A word placed by `withFetchWord` is what the next step runs: S3's header and count. -/
theorem test_fetch_word :
    position (step (State.reset.withFetchWord 18 0b111_011_1_00000000011)) =
      some (18, [.countedChildrenLoop 7 .max 3 .nil]) := by decide

/-! ## Witnesses: for each obligation with hypotheses, a state and operands that meet them together, clause by
clause -/

/-- A DECODE's frame that awaits a length type, over this stream. -/
def atMode (bs : Bits) : State :=
  { inDecode with bits := bs, frames := [.operatorLengthModeSelect 1 .gt] }

/-- A DECODE's frame that reads groups, over this stream. -/
def atGroup (acc : Nat) (bs : Bits) : State :=
  { inDecode with bits := bs, frames := [.literalGroupLoop 1 acc] }

/-- A DECODE's frame that reads a header, over this stream. -/
def atHeader (bs : Bits) : State :=
  { inDecode with bits := bs, frames := [.readHeader] }

/-- A DECODE whose frames are these, at CURSOR 44 of V-O10's stream. -/
def at44 (fs : List Frame) : State :=
  decodingAt 44 0x00003040882 44 fs

/-- One level of nesting only. -/
def flat (s : State) : State :=
  { s with par := { Config.defaultParams with maxDepth := some 1 } }

theorem witness_DecodedWordsAreTheEncoding :
    decode (.stream (bitsOfNat 24 0xD2FE28)) = .ok (.lit 6) ∧ decode (.cmd 0x03) = .ok .evaluate :=
  ⟨rfl, rfl⟩

theorem witness_AssembledPacketDecodesToItself :
    let a : Asm := .lit 6 2021 none
    let s := decodeOf ([0x20] ++ a.text none ++ [0x0A])
    s.par.legal = true ∧ a.wf s.par = true ∧ depthAllowed s.par a.depth = true ∧
    (a.stream none).length % 4 = 0 ∧ (∀ b ∈ [0x20#8], b ∈ spaces) ∧
    (∀ b ∈ [0x0A#8], b ∈ spaces) ∧ s.host = [] ∧ s.pending = some .decode ∧ s.frames = [] ∧
    a.text none = textS1 := by decide

/-- Both Operator formats assemble: S2 with its `L=27`, S3 with its `N=3` and 5 bits of padding. -/
theorem witness_AssembledPacketDecodesToItself_operators :
    let a : Asm := .opl .lt 1 (some 27) (.cons (.lit 6 10 none) (.cons (.lit 2 20 none) .nil))
    let b : Asm := .opc .max 7 (some 3)
      (.cons (.lit 2 1 none) (.cons (.lit 4 2 none) (.cons (.lit 1 3 none) .nil)))
    a.wf Config.defaultParams = true ∧ a.stream (some 7) = bitsOfNat 56 0x38006F45291200 ∧
    b.wf Config.defaultParams = true ∧ b.stream (some 5) = bitsOfNat 56 0xEE00D40C823060 := by
  decide +kernel

theorem witness_StepRunsTheFetchedInstruction :
    State.reset.host = [] ∧ (hosted [.idle]).host = .idle :: [] ∧
    (atGroup 0 []).pending = some .decode ∧ (atGroup 0 []).frames = .literalGroupLoop 1 0 :: [] ∧
    (let s := atMode (false :: bitsOfNat 15 22);
      s.pending = some .decode ∧ s.frames = .operatorLengthModeSelect 1 .gt :: [] ∧
      decode (.stream (headerBits 1 Opcode.gt.code ++ s.ahead)) = .ok (.gtLen 1 22)) ∧
    (querying .evaluate s12).pending = some .evaluate ∧ (querying .evaluate s12).frames = [] :=
  ⟨rfl, rfl, rfl, rfl, ⟨rfl, rfl, rfl⟩, rfl, rfl⟩

theorem witness_EngineRestsWhenNothingIsPending :
    State.reset.host = [] ∧ State.reset.pending = none := by decide

theorem witness_HeaderStepReadsVersionAndType :
    (let s := atHeader (bitsOfNat 6 0b110_100);
      s.decoding .readHeader [] ∧ s.ahead = headerBits 6 4 ++ []) ∧
    (let s := atHeader (bitsOfNat 7 0b111_111_0);
      s.decoding .readHeader [] ∧ s.ahead = headerBits 7 Opcode.eq.code ++ [false]) :=
  ⟨⟨⟨rfl, rfl, rfl⟩, rfl⟩, ⟨⟨rfl, rfl, rfl⟩, rfl⟩⟩

theorem witness_TruncatedHeaderRaises :
    (∀ n ∈ [0, 2], (atHeader (bitsOfNat n 0)).decoding .readHeader [] ∧
      (atHeader (bitsOfNat n 0)).ahead.length < 3) ∧
    (∀ n ∈ [3, 5], (atHeader (bitsOfNat n 0)).decoding .readHeader [] ∧
      3 ≤ (atHeader (bitsOfNat n 0)).ahead.length ∧ (atHeader (bitsOfNat n 0)).ahead.length < 6) := by
  unfold State.decoding; decide

/-- At the last value that fits W = 64 and the first that does not. -/
theorem witness_LitReadsOneGroup :
    (∀ c ∈ [false, true], let s := atGroup (2 ^ 60 - 1) (c :: bitsOfNat 4 15);
      s.frames = .literalGroupLoop 1 (2 ^ 60 - 1) :: [] ∧
      s.ahead = c :: (bitsOfNat 4 (15#4).toNat ++ []) ∧
      fits s.par (16 * (2 ^ 60 - 1) + (15#4).toNat) = true) ∧
    (let s := atGroup (2 ^ 60) (false :: bitsOfNat 4 0);
      s.frames = .literalGroupLoop 1 (2 ^ 60) :: [] ∧
      s.ahead = false :: (bitsOfNat 4 (0#4).toNat ++ []) ∧
      fits s.par (16 * 2 ^ 60 + (0#4).toNat) = false) := by decide

theorem witness_TruncatedGroupRaises :
    (atGroup 0 []).frames = .literalGroupLoop 1 0 :: [] ∧ (atGroup 0 []).ahead.length = 0 ∧
    (∀ n ∈ [1, 4], (atGroup 0 (bitsOfNat n 0)).frames = .literalGroupLoop 1 0 :: [] ∧
      1 ≤ (atGroup 0 (bitsOfNat n 0)).ahead.length ∧ (atGroup 0 (bitsOfNat n 0)).ahead.length < 5) := by
  decide

theorem witness_LenFormsOpenAFixedLengthLoop :
    (atMode []).frames = .operatorLengthModeSelect 1 .gt :: [] := by decide

theorem witness_CntFormsOpenACountedLoop :
    (atMode []).frames = .operatorLengthModeSelect 1 .gt :: [] := by decide

theorem witness_LengthModeStepReadsItsField :
    (let s := atMode (false :: bitsOfNat 15 32767);
      s.decoding (.operatorLengthModeSelect 1 .gt) [] ∧
      s.ahead = false :: (bitsOfNat 15 (32767#15).toNat ++ [])) ∧
    (let s := atMode (true :: bitsOfNat 11 0);
      s.decoding (.operatorLengthModeSelect 1 .gt) [] ∧
      s.ahead = true :: (bitsOfNat 11 (0#11).toNat ++ [])) :=
  ⟨⟨⟨rfl, rfl, rfl⟩, rfl⟩, ⟨⟨rfl, rfl, rfl⟩, rfl⟩⟩

theorem witness_TruncatedLengthFieldRaises :
    (∀ bs ∈ [[], false :: bitsOfNat 14 0, true :: bitsOfNat 10 0],
      (atMode bs).decoding (.operatorLengthModeSelect 1 .gt) []) ∧
    (atMode []).ahead = [] ∧
    (atMode (false :: bitsOfNat 14 0)).ahead = false :: bitsOfNat 14 0 ∧ (bitsOfNat 14 0).length < 15 ∧
    (atMode (true :: bitsOfNat 10 0)).ahead = true :: bitsOfNat 10 0 ∧ (bitsOfNat 10 0).length < 11 := by
  unfold State.decoding; decide

theorem witness_ChildrenLoopsPushOrComplete :
    (let f : Frame := .fixedBitLengthChildrenLoop 0 .sum 45 .nil;
      (at44 [f]).decoding f [] ∧ (at44 [f]).cursor < 45 ∧
      depthAllowed (at44 [f]).par ((at44 [f]).frames.length + 1) = true ∧
      (flat (at44 [f])).decoding f [] ∧ (flat (at44 [f])).cursor < 45 ∧
      depthAllowed (flat (at44 [f])).par ((flat (at44 [f])).frames.length + 1) = false) ∧
    (let f : Frame := .fixedBitLengthChildrenLoop 0 .sum 44 .nil;
      (at44 [f]).decoding f [] ∧ (at44 [f]).cursor = 44) ∧
    (let f : Frame := .countedChildrenLoop 0 .sum 1 .nil;
      (at44 [f]).decoding f [] ∧ 0 < 1 ∧
      depthAllowed (at44 [f]).par ((at44 [f]).frames.length + 1) = true ∧
      (flat (at44 [f])).decoding f [] ∧
      depthAllowed (flat (at44 [f])).par ((flat (at44 [f])).frames.length + 1) = false) ∧
    (let f : Frame := .countedChildrenLoop 0 .sum 0 .nil;
      (at44 [f]).decoding f []) := by
  unfold State.decoding; decide

theorem witness_CompletionChecksChildren :
    (kids []).toList = [] ∧
    (∀ cs ∈ [kids [.lit 1 1], kids [.lit 1 1, .lit 1 2, .lit 1 3]],
      cs.toList ≠ [] ∧ Config.defaultParams.arityStage = .decode ∧ Opcode.gt.isComparison = true ∧
      cs.toList.length ≠ 2) ∧
    (kids [.lit 1 1]).toList ≠ [] ∧ lateArity.arityStage = .evaluate ∧
    Opcode.sum.isComparison = false ∧
    (kids [.lit 1 1, .lit 1 2]).toList ≠ [] ∧ (kids [.lit 1 1, .lit 1 2]).toList.length = 2 := by
  decide

theorem witness_DoneStepHandsThePacketOn :
    (at44 [.done (.lit 0 2)]).decoding (.done (.lit 0 2)) [] ∧
    (∀ target ∈ [44, 43], let f : Frame := .fixedBitLengthChildrenLoop 0 .sum target .nil;
      (at44 [.done (.lit 0 2), f]).decoding (.done (.lit 0 2)) [f]) ∧
    (at44 []).cursor ≤ 44 ∧ 43 < (at44 []).cursor ∧
    (let f : Frame := .countedChildrenLoop 0 .sum (0 + 1) .nil;
      (at44 [.done (.lit 0 2), f]).decoding (.done (.lit 0 2)) [f]) := by
  unfold State.decoding; decide

theorem witness_EmptyOperatorIsZeroChildren :
    (let s := atMode (false :: List.replicate 15 false);
      s.decoding (.operatorLengthModeSelect 1 .gt) [] ∧
      s.ahead = false :: (List.replicate 15 false ++ [])) ∧
    (let s := atMode (true :: List.replicate 11 false);
      s.decoding (.operatorLengthModeSelect 1 .gt) [] ∧
      s.ahead = true :: (List.replicate 11 false ++ [])) :=
  ⟨⟨⟨rfl, rfl, rfl⟩, rfl⟩, ⟨⟨rfl, rfl, rfl⟩, rfl⟩⟩

theorem witness_MicroStepsAgreeWithRecursiveDecoder :
    let s := atHeader (bitsOfNat 24 0xD2FE28)
    s.par.legal = true ∧ s.decoding .readHeader [] ∧ s.cursor = 0 := by
  unfold State.decoding; decide

theorem witness_PaddingIsIgnored :
    decodeStream Config.defaultParams (bitsOfNat 24 0xD2FE28) = .ok (.lit 6 2021, 21) := rfl

theorem witness_CursorOnlyMovesForward :
    (at44 [.readHeader]).decoding .readHeader [] ∧ (at44 [.readHeader]).cursor ≤ (at44 [.readHeader]).bitlen ∧
    ∃ t, step (at44 [.readHeader]) = .next t :=
  ⟨⟨rfl, rfl, rfl⟩, by decide, _, rfl⟩

theorem witness_DecodeConvertsTheTrimmedDigits :
    let ds : List (Byte × Nat) := [(0x44, 13), (0x66, 15), (0x30, 0), (0x39, 9)]
    (∀ b ∈ [0x20#8, 0x09#8], b ∈ [0x09#8, 0x0A#8, 0x0B#8, 0x0C#8, 0x0D#8, 0x20#8]) ∧
    (∀ b ∈ [0x0D#8, 0x0A#8], b ∈ [0x09#8, 0x0A#8, 0x0B#8, 0x0C#8, 0x0D#8, 0x20#8]) ∧
    (∀ d ∈ ds, hexval d.1 = some d.2) ∧
    (decodeOf [0x20, 0x09, 0x44, 0x66, 0x30, 0x39, 0x0D, 0x0A]).snap =
      [0x20, 0x09] ++ ds.map Prod.fst ++ [0x0D, 0x0A] := by decide

/-- The bytes next to the three ranges of digits. -/
theorem witness_HexDigitValues :
    ∀ b ∈ [0x2F#8, 0x3A#8, 0x40#8, 0x47#8, 0x60#8, 0x67#8],
      b.toNat < 0x30 ∨ (0x39 < b.toNat ∧ b.toNat < 0x41) ∨ (0x46 < b.toNat ∧ b.toNat < 0x61) ∨
        0x66 < b.toNat := by decide

/-- V-C6 (an inner space after two digits) and V-C8 (the last byte), and the bytes next to the whitespace range, each
after one leading space. -/
theorem witness_FirstBadByteIsHexDecodeError :
    ∀ x ∈ [([0x44#8, 0x32#8], 0x20#8, [0x46#8, 0x45#8]), (textS1, 0x47#8, []), ([], 0x08#8, []),
        ([], 0x0E#8, [0x44#8])],
      (∀ y ∈ [0x20#8], y ∈ spaces) ∧
      (∀ y ∈ (x.1 ++ x.2.1 :: x.2.2).head?, y ∉ spaces) ∧
      (∀ y ∈ (x.1 ++ x.2.1 :: x.2.2).getLast?, y ∉ spaces) ∧
      (∀ y ∈ x.1, hexval y ≠ none) ∧ hexval x.2.1 = none ∧
      (decodeOf ([0x20] ++ (x.1 ++ x.2.1 :: x.2.2) ++ [])).snap =
        [0x20] ++ (x.1 ++ x.2.1 :: x.2.2) ++ [] := by decide

/-- V-C1 and S1. -/
theorem witness_LetterCaseDoesNotMatter :
    List.Forall₂ (fun a b => a = b ∨ (hexval a ≠ none ∧ hexval a = hexval b))
      [0x64#8, 0x32#8, 0x66#8] [0x44#8, 0x32#8, 0x46#8] :=
  .cons (by decide) (.cons (by decide) (.cons (by decide) .nil))

/-- V-E3 and V-E1: the greatest sum that fits W = 64, and the least that does not. -/
theorem witness_SumValue :
    (∀ x ∈ [2 ^ 64 - 2, 2 ^ 64 - 1],
      evaluateAll Config.defaultParams 1 (kids [.lit 0 x, .lit 0 1]) = .ok [x, 1]) ∧
    (kids [.lit 0 (2 ^ 64 - 1), .lit 0 1]).toList ≠ [] ∧
    fits Config.defaultParams [2 ^ 64 - 2, 1].sum = true ∧
    fits Config.defaultParams [2 ^ 64 - 1, 1].sum = false :=
  ⟨fun _ _ => rfl, by decide, by decide, by decide⟩

/-- V-E5, V-E4 and V-E6. -/
theorem witness_ProdValue :
    (∀ xs ∈ [[2 ^ 32, 2 ^ 32 - 1], [2 ^ 32, 2 ^ 32], [2 ^ 63, 2 ^ 63, 0]],
      (kids (xs.map (Packet.lit 0))).toList ≠ [] ∧
      (evaluateAll Config.defaultParams 1 (kids (xs.map (Packet.lit 0)))).toOption = some xs) ∧
    fits Config.defaultParams [2 ^ 32, 2 ^ 32 - 1].prod = true ∧
    fits Config.defaultParams [2 ^ 32, 2 ^ 32].prod = false ∧
    Config.defaultParams.legal = true ∧ 0 ∈ [2 ^ 63, 2 ^ 63, 0] := by decide

/-- V-E11: one child. -/
theorem witness_MinValue :
    evaluateAll Config.defaultParams 1 (kids [.lit 0 9]) = .ok [9] ∧ (kids [.lit 0 9]).toList ≠ [] ∧
    (∀ x ∈ [9], fits Config.defaultParams x = true) :=
  ⟨rfl, by decide, by decide⟩

/-- V-E10: the least and the greatest value of W = 64. -/
theorem witness_MaxValue :
    evaluateAll Config.defaultParams 1 (kids [.lit 0 0, .lit 0 (2 ^ 64 - 1)]) = .ok [0, 2 ^ 64 - 1] ∧
    (kids [.lit 0 0, .lit 0 (2 ^ 64 - 1)]).toList ≠ [] ∧
    (∀ x ∈ [0, 2 ^ 64 - 1], fits Config.defaultParams x = true) :=
  ⟨rfl, by decide, by decide⟩

/-- V-E15, and V-E13 by its children. -/
theorem witness_ComparisonValues :
    Config.defaultParams.legal = true ∧
    evaluateAll Config.defaultParams 1 (kids [.lit 0 5, .lit 0 5]) = .ok [5, 5] ∧
    (kids [.lit 0 6, .lit 0 5]).toList = [.lit 0 6, .lit 0 5] ∧
    evaluate Config.defaultParams 1 (.lit 0 6) = .ok 6 ∧
    evaluate Config.defaultParams (0 + 1 + (Packet.lit 0 6).size) (.lit 0 5) = .ok 5 :=
  ⟨by decide, rfl, rfl, rfl, rfl⟩

/-- V-O5 and V-O7: one child, and three. -/
theorem witness_NodeChecksComeFirst :
    lateArity.arityStage = .evaluate ∧ Config.defaultParams.arityStage = .decode ∧
    Opcode.sum.isComparison = false ∧ (kids [.lit 1 1]).toList.length ≠ 2 ∧
    (kids [.lit 1 1, .lit 1 2, .lit 1 3]).toList.length ≠ 2 := by decide

/-- V-E18: the second child overflows, at index 2. -/
theorem witness_FirstChildErrorIsReported :
    let bad : Packet := .op 0 1 (kids [.lit 0 4294967296, .lit 0 4294967296])
    (kids [.lit 0 1, bad]).toList = [.lit 0 1] ++ bad :: [] ∧ Config.defaultParams.arityStage = .decode ∧
    (∀ (i : Nat) (pre post : List Packet) (p : Packet), [Packet.lit 0 1] = pre ++ p :: post →
      i = 0 + 1 + (pre.map Packet.size).sum → ∃ x, evaluate Config.defaultParams i p = .ok x) ∧
    evaluate Config.defaultParams (0 + 1 + ([Packet.lit 0 1].map Packet.size).sum) bad =
      .error (.raised .overflow 2) := by
  refine ⟨rfl, rfl, fun i pre post p h _ => ?_, rfl⟩
  cases pre with
  | nil =>
    simp only [List.nil_append, List.cons.injEq] at h
    exact ⟨1, by rw [← h.1]; rfl⟩
  | cons q qs => simp at h

/-- V-E18. -/
theorem witness_EvaluateErrorIndexIsInTheTree :
    evaluate Config.defaultParams 0 vE18 = .error (.raised .overflow 2) := rfl

/-- S12, and V-E18 for the error. -/
theorem witness_QueriesCompleteOnATree :
    (querying .evaluate s12).tree = some s12 ∧ evaluate Config.defaultParams 0 s12 = .ok 1 ∧
    (querying .evaluate vE18).tree = some vE18 ∧
    evaluate Config.defaultParams 0 vE18 = .error (.raised .overflow 2) :=
  ⟨rfl, rfl, rfl, rfl⟩

theorem witness_QueriesWithoutATreeAreNoTree :
    State.reset.tree = none ∧ Instr.sumVersions ∈ [Instr.sumVersions, Instr.evaluate] ∧
    Instr.evaluate ∈ [Instr.sumVersions, Instr.evaluate] := by decide

/-- A value (S12), an overflow (V-E18), and an arity error (V-E19). -/
theorem witness_EvaluateOfAValidTreeCompletes :
    Config.defaultParams.legal = true ∧ s12.valid Config.defaultParams = true ∧
    vE18.valid Config.defaultParams = true ∧ lateArity.legal = true ∧ vE19.valid lateArity = true ∧
    (querying .evaluate s12).tree = some s12 := by decide

theorem witness_QueriesKeepTheTree :
    (∃ t, exec .sumVersions (querying .sumVersions s12) = .next t) ∧
    (∃ t, exec .evaluate (querying .evaluate vE18) = .next t) ∧
    (∃ t, exec .evaluate State.reset = .next t) :=
  ⟨⟨_, rfl⟩, ⟨_, rfl⟩, ⟨_, rfl⟩⟩

theorem witness_InstructionsLeaveTheInputAlone :
    (∃ t, exec .decode (decodeOf textS1) = .next t) ∧
    (∃ t, exec (.gtCnt 1 2) (atMode (true :: bitsOfNat 11 2)) = .next t ∧
      Instr.gtCnt 1 2 ∉ [Instr.decode, Instr.sumVersions, Instr.evaluate] ∧
      t.pending = (atMode (true :: bitsOfNat 11 2)).pending ∧
      (atMode (true :: bitsOfNat 11 2)).pending ≠ none) :=
  ⟨⟨_, rfl⟩, _, rfl, by decide, rfl, by decide⟩

/-- A micro-step that goes on, and one that completes. -/
theorem witness_OutputsHoldUntilCompletion :
    (∃ t, (atGroup 0 []).host = [] ∧ (atGroup 0 []).pending ≠ none ∧
      step (atGroup 0 []) = .next t ∧ t.pending = none) ∧
    (∃ t, (atGroup 0 (bitsOfNat 5 0)).host = [] ∧ (atGroup 0 (bitsOfNat 5 0)).pending ≠ none ∧
      step (atGroup 0 (bitsOfNat 5 0)) = .next t ∧ t.pending ≠ none) :=
  ⟨⟨_, rfl, by decide, rfl, rfl⟩, ⟨_, rfl, by decide, rfl, by decide⟩⟩

/-- A truncation, NO_TREE, an overflow, and an arity error of EVALUATE. -/
theorem witness_EachCommandHasItsOwnErrors :
    ∀ s ∈ [atHeader [], { querying .sumVersions s12 with
        tree := none, status := { state := .busy, treeValid := false, rejected := true, lastCmd := 2 } },
      querying .evaluate vE18, { querying .evaluate vE19 with par := lateArity }],
      Inv s = true ∧ s.host = [] ∧ s.pending ≠ none ∧
      (match step s with | .next t => decide (t.status.state = .error) | _ => false) = true := by decide

theorem witness_EveryCommandCompletes :
    ∀ s ∈ [decodeOf textS1, querying .sumVersions s12, querying .evaluate s12],
      Inv s = true ∧ s.host = [] ∧ s.pending ≠ none := by decide

/-- BUSY with a command's code; not BUSY with the codes beside the commands' (V-H3, V-H4). -/
theorem witness_RejectedCmdWrite :
    (let s := { inDecode with host := [.writeCmd 0x01] };
      s.host = .writeCmd 0x01 :: [] ∧ s.status.state = .busy) ∧
    (∀ c ∈ [0x00#8, 0x04#8, 0xFF#8],
      (hosted [.writeCmd c]).host = .writeCmd c :: [] ∧ c ∉ [0x01#8, 0x02#8, 0x03#8]) := by decide

theorem witness_AcceptedCmdWrite :
    ∀ c ∈ [Command.decode, .sumVersions, .evaluate],
      (hosted [.writeCmd c.code]).host = .writeCmd c.code :: [] ∧
      (hosted [.writeCmd c.code]).status.state ≠ .busy ∧
      busWindow (onBus []).par.busMap 0x10 = some ⟨0x10, 8, 0, .cmd⟩ ∧
      c.code.toNat < 2 ^ min 8 (onBus []).par.busMap.width := by decide

/-- A bus write at the largest value its window carries, and an address where nothing is placed. -/
theorem witness_AcceptedCmdWrite_bus :
    busWindow (onBus []).par.busMap 0x14 = some ⟨0x14, 8, 0, .status⟩ ∧
    255 < 2 ^ min 8 (onBus []).par.busMap.width ∧ busWindow (onBus []).par.busMap 0x28 = none := by
  decide

/-- One written byte and one UNWRITTEN. -/
theorem witness_SnapshotHoldsTheWrittenBytes :
    let s := { hosted [.writeCmd 0x01] with inLen := 2, inBuf := [(1, 0x44)] }
    s.host = .writeCmd 0x01 :: [] ∧ s.status.state ≠ .busy ∧ (∃ t, step s = .next t) ∧ 1 < s.inLen ∧
      s.readByte 1 = some 0x44 ∧ s.readByte 0 = none :=
  ⟨rfl, by decide, ⟨_, rfl⟩, by decide, by decide, by decide⟩

/-- IN_LEN at IN_CAP, one past it, and while BUSY. -/
theorem witness_InLenWrite :
    (hosted [.writeInLen 64]).host = .writeInLen 64 :: [] ∧ (hosted []).status.state ≠ .busy ∧
    64 ≤ State.reset.par.inCap ∧ (hosted [.writeInLen 65]).host = .writeInLen 65 :: [] ∧
    State.reset.par.inCap < 65 ∧ inDecode.status.state = .busy := by decide

/-- The last byte of IN_BUF, not BUSY and BUSY. -/
theorem witness_InBufWrite :
    (hosted [.writeInBuf 63 0x30]).host = .writeInBuf 63 0x30 :: [] ∧ 63 < State.reset.par.inCap ∧
    (hosted [.writeInBuf 63 0x30]).status.state ≠ .busy ∧
    ({ inDecode with host := [.writeInBuf 63 0x30] }).status.state = .busy := by decide

/-- The first index past IN_BUF. -/
theorem witness_AbsentInputByteStops :
    State.reset.par.inCap ≤ 64 ∧ (hosted [.writeInBuf 64 0x30]).host = .writeInBuf 64 0x30 :: [] ∧
    (hosted [.read (.inBuf 64)]).host = .read (.inBuf 64) :: [] := by decide

theorem witness_ReadsReturnValuesWithoutEffect :
    let s := { State.reset with inBuf := [(63, 0x44)] }
    63 < s.par.inCap ∧ s.readByte 63 = some 0x44 ∧ 0 < s.par.inCap ∧ s.readByte 0 = none := by decide

/-- The upper half of ERR_POS at its bus address. -/
theorem witness_ReadsReturnValuesWithoutEffect_bus :
    busWindow (onBus []).par.busMap 0x24 = some ⟨0x24, 32, 32, .errPos⟩ ∧
    step { onBus [] with host := [.read .errPos] } =
      .next { onBus [] with host := [], rdata := some (2 ^ 33 + 5) } :=
  ⟨by decide, rfl⟩

/-- V-H6. -/
theorem witness_ReadOnlyWritesDoNothing :
    (hosted [.writeReadOnly .result 5]).host = .writeReadOnly .result 5 :: [] := by decide

/-- V-H8: reset while BUSY. -/
theorem witness_ResetGivesResetValues :
    ({ atHeader [true] with host := [.reset] }).host = .reset :: [] := by decide

theorem witness_ParametersAreFixed : ∃ t, step State.reset = .next t := ⟨_, rfl⟩

/-- Two accesses around one engine step of S1 (V-H7's kind). -/
theorem witness_HostAccessesDoNotDisturbACommand :
    ∃ u w : State,
      let s := atHeader (bitsOfNat 24 0xD2FE28);
      let acts : List HostAction := [.read .status, .idle, .writeInLen 0]
      s.status.state = .busy ∧ (∀ a ∈ acts, a ≠ .reset) ∧ hostOk { s with host := acts } = true ∧
      runSteps (acts.count .idle) { s with host := [] } = .next u ∧ u.status.state = .busy ∧
      step u = .next w :=
  ⟨_, _, rfl, by decide, by decide, rfl, rfl, rfl⟩

theorem witness_StepKeepsRegistersInAgreement :
    registersOk State.reset = true ∧ ∃ t, step State.reset = .next t := ⟨by decide, _, rfl⟩

/-- In a DECODE, with an Operator's frame below a Literal's. -/
theorem witness_StepKeepsInvariant :
    let s := decodingAt 40 0xC200B40A82 24 [.literalGroupLoop 6 0, .countedChildrenLoop 6 .sum 2 .nil]
    Inv s = true ∧ ∃ t, step s = .next t := ⟨by decide, _, rfl⟩

/-- The last byte of IN_BUF is still to be read. -/
theorem witness_StepNeverStops :
    Inv (hosted [.read (.inBuf 63)]) = true ∧ hostOk (hosted [.read (.inBuf 63)]) = true := by decide

end Sys2Proof.Tests
end

section
/-! An Operator without children (41_packet_decode.md R131): the step of a running DECODE, the step that opens an
Operator, and the step of a loop that has collected nothing and awaits nothing. -/

namespace Sys2Proof

/-! ## The length field at the front of the stream -/

/-- The number 0 is written as zeros only. -/
theorem bitsOfNat_zero_value (n : Nat) : bitsOfNat n 0 = List.replicate n false := by
  induction n with
  | zero => rfl
  | succ n ih => simp [bitsOfNat, List.replicate_succ, ih]

/-- The bit I is a field of one bit. -/
theorem takeField_one_cons (i : Bool) (rest : Bits) :
    takeField 1 (i :: rest) = some (i.toNat, rest) := by
  simpa [natOfBits_cons] using takeField_append [i] rest

/-- A field as wide as a word gives the word back. -/
theorem takeField_toNat {n : Nat} (x : BitVec n) (rest : Bits) :
    takeField n (bitsOfNat n x.toNat ++ rest) = some (x.toNat, rest) := by
  rw [takeField_bitsOfNat, Nat.mod_eq_of_lt x.isLt]

/-- `I = 0` and L decode to the `.LEN` form of the opcode (30_encoding.md R76). -/
theorem decodeForm_len (v : Version) (op : Opcode) (l : LenField) (rest : Bits) :
    decodeForm v op.code (false :: (bitsOfNat 15 l.toNat ++ rest)) = .ok (op.lenForm v l) := by
  simp [decodeForm, takeField_one_cons, takeField_toNat]

/-- `I = 1` and N decode to the `.CNT` form of the opcode (30_encoding.md R77). -/
theorem decodeForm_cnt (v : Version) (op : Opcode) (n : CountField) (rest : Bits) :
    decodeForm v op.code (true :: (bitsOfNat 11 n.toNat ++ rest)) = .ok (op.cntForm v n) := by
  simp [decodeForm, takeField_one_cons, takeField_toNat]

end Sys2Proof

namespace Sys2Proof.Machine

/-! ## The step of a running DECODE -/

/-- The step is the turn of the top frame. -/
theorem engineTurn_of_decoding {s : State} {f : Frame} {fs : List Frame} (h : s.decoding f fs) :
    engineTurn s = frameTurn f fs s := by
  obtain ⟨-, hpending, hframes⟩ := h
  simp [engineTurn, hpending, hframes]

theorem step_of_decoding_run {s : State} {f : Frame} {fs : List Frame} {i : Instr}
    (h : s.decoding f fs) (hturn : frameTurn f fs s = .run i) : step s = exec i s := by
  have hengine := engineTurn_of_decoding h
  obtain ⟨hhost, -, -⟩ := h
  simp [step, hhost, engineStep, hengine, hturn]

theorem step_of_decoding_internal {s : State} {f : Frame} {fs : List Frame} {r : Result}
    (h : s.decoding f fs) (hturn : frameTurn f fs s = .internal r) : step s = r := by
  have hengine := engineTurn_of_decoding h
  obtain ⟨hhost, -, -⟩ := h
  simp [step, hhost, engineStep, hengine, hturn]

/-- Where the unread stream decodes to an Operator form, that form is the turn. -/
theorem frameTurn_lengthMode {s : State} {v : Version} {op : Opcode} {i : Instr} (fs : List Frame)
    (h : decodeForm v op.code s.ahead = .ok i) :
    frameTurn (.operatorLengthModeSelect v op) fs s = .run i := by
  unfold Block.ahead at h
  simp [frameTurn, h]

/-! ## Opening an Operator -/

/-- The state in which an Operator of length type 0 has just been opened (41_packet_decode.md R145). -/
def openedByLength (s : State) (v : Version) (op : Opcode) (l : LenField) (fs : List Frame) : State :=
  { s with
    cursor := s.cursor + 16
    frames := .fixedBitLengthChildrenLoop v op (s.cursor + 16 + l.toNat) .nil :: fs }

/-- The state in which an Operator of length type 1 has just been opened (41_packet_decode.md R145). -/
def openedByCount (s : State) (v : Version) (op : Opcode) (n : CountField) (fs : List Frame) : State :=
  { s with
    cursor := s.cursor + 12
    frames := .countedChildrenLoop v op n.toNat .nil :: fs }

theorem step_opens_by_length {s : State} {v : Version} {op : Opcode} {fs : List Frame} {l : LenField}
    {rest : Bits} (h : s.decoding (.operatorLengthModeSelect v op) fs)
    (hahead : s.ahead = false :: (bitsOfNat 15 l.toNat ++ rest)) :
    step s = .next (openedByLength s v op l fs) := by
  have hform : decodeForm v op.code s.ahead = .ok (op.lenForm v l) := hahead ▸ decodeForm_len v op l rest
  rw [step_of_decoding_run h (frameTurn_lengthMode fs hform), exec_lenForm]
  obtain ⟨-, -, hframes⟩ := h
  exact openByLength_next.2 ⟨v, op, fs, hframes, rfl⟩

theorem step_opens_by_count {s : State} {v : Version} {op : Opcode} {fs : List Frame} {n : CountField}
    {rest : Bits} (h : s.decoding (.operatorLengthModeSelect v op) fs)
    (hahead : s.ahead = true :: (bitsOfNat 11 n.toNat ++ rest)) :
    step s = .next (openedByCount s v op n fs) := by
  have hform : decodeForm v op.code s.ahead = .ok (op.cntForm v n) := hahead ▸ decodeForm_cnt v op n rest
  rw [step_of_decoding_run h (frameTurn_lengthMode fs hform), exec_cntForm]
  obtain ⟨-, -, hframes⟩ := h
  exact openByCount_next.2 ⟨v, op, fs, hframes, rfl⟩

theorem openedByLength_decoding {s : State} {f : Frame} {fs gs : List Frame} (h : s.decoding f gs)
    (v : Version) (op : Opcode) (l : LenField) :
    (openedByLength s v op l fs).decoding
      (.fixedBitLengthChildrenLoop v op (s.cursor + 16 + l.toNat) .nil) fs := by
  obtain ⟨hhost, hpending, -⟩ := h
  exact ⟨hhost, hpending, rfl⟩

theorem openedByCount_decoding {s : State} {f : Frame} {fs gs : List Frame} (h : s.decoding f gs)
    (v : Version) (op : Opcode) (n : CountField) :
    (openedByCount s v op n fs).decoding (.countedChildrenLoop v op n.toNat .nil) fs := by
  obtain ⟨hhost, hpending, -⟩ := h
  exact ⟨hhost, hpending, rfl⟩

/-! ## A loop that ends without children -/

/-- A frame without children completes with ZERO_CHILDREN, before any arity check (41_packet_decode.md R149). -/
theorem completeFrame_nil (v : Version) (op : Opcode) (fs : List Frame) (s : State) :
    completeFrame v op .nil fs s = raise (.structural .zeroChildren) s.cursor s :=
  if_pos rfl

theorem step_lengthLoop_nil_at_target {s : State} {v : Version} {op : Opcode} {target : Nat}
    {fs : List Frame} (h : s.decoding (.fixedBitLengthChildrenLoop v op target .nil) fs)
    (hcursor : target ≤ s.cursor) :
    step s = .next (raise (.structural .zeroChildren) s.cursor s) := by
  have hloop : lengthLoop v op target .nil fs s = completeFrame v op .nil fs s :=
    if_neg (by omega)
  rw [step_of_decoding_internal h rfl, hloop, completeFrame_nil]

theorem step_countLoop_nil_none_left {s : State} {v : Version} {op : Opcode} {fs : List Frame}
    (h : s.decoding (.countedChildrenLoop v op 0 .nil) fs) :
    step s = .next (raise (.structural .zeroChildren) s.cursor s) := by
  have hloop : countLoop v op 0 .nil fs s = completeFrame v op .nil fs s := if_neg (by omega)
  rw [step_of_decoding_internal h rfl, hloop, completeFrame_nil]

/-! ## The two steps together -/

theorem runSteps_succ_of_step {s t : State} (n : Nat) (h : step s = .next t) :
    runSteps (n + 1) s = runSteps n t := by
  simp [runSteps, h]

/-- Settles O18: one step opens the Operator at the end of its field, and the next finds no child to come and
none collected. -/
theorem emptyOperatorIsZeroChildren : Obligations.EmptyOperatorIsZeroChildren := by
  unfold Obligations.EmptyOperatorIsZeroChildren
  constructor
  · intro s v op fs rest hs hahead
    have hopen : step s = .next (openedByLength s v op 0 fs) :=
      step_opens_by_length hs (by simpa [bitsOfNat_zero_value] using hahead)
    have hraise := step_lengthLoop_nil_at_target (openedByLength_decoding (fs := fs) hs v op 0) le_rfl
    refine ⟨openedByLength s v op 0 fs, ?_, rfl, rfl⟩
    rw [runSteps_succ_of_step 1 hopen, runSteps_succ_of_step 0 hraise]
    rfl
  · intro s v op fs rest hs hahead
    have hopen : step s = .next (openedByCount s v op 0 fs) :=
      step_opens_by_count hs (by simpa [bitsOfNat_zero_value] using hahead)
    have hraise := step_countLoop_nil_none_left (openedByCount_decoding (fs := fs) hs v op 0)
    refine ⟨openedByCount s v op 0 fs, ?_, rfl, rfl⟩
    rw [runSteps_succ_of_step 1 hopen, runSteps_succ_of_step 0 hraise]
    rfl

end Sys2Proof.Machine
end

section
/-! The version sum and the value rules of SUM, PROD, MIN and MAX (42_evaluate.md R160, R170 to R173): what the
children answer, what the node makes of their values, and each rule as the library's operation on a list. -/

namespace Sys2Proof.Machine

/-! ## The version sum -/

theorem sumOfVersionsAll_eq_sum :
    ∀ cs : Packets, sumOfVersionsAll cs = (cs.toList.map sumOfVersions).sum
  | .nil => rfl
  | .cons p ps => by
    simp [sumOfVersionsAll, Packets.toList, sumOfVersionsAll_eq_sum ps]

/-- Settles O26: each node adds its own version, and the sum over the children is the sum over their list. -/
theorem versionSumAddsEveryVersion : Obligations.VersionSumAddsEveryVersion := by
  unfold Obligations.VersionSumAddsEveryVersion
  constructor
  · intro v x
    simp [sumOfVersions]
  · intro v t cs
    simp [sumOfVersions, sumOfVersionsAll_eq_sum]

/-! ## The children's values -/

theorem evaluateAll_nil (par : Params) (idx : Nat) : evaluateAll par idx .nil = .ok [] := by
  simp [evaluateAll]

/-- The first packet has the index, the others follow it (42_evaluate.md R167, R168). -/
theorem evaluateAll_cons_ok {par : Params} {idx : Nat} {p : Packet} {ps : Packets} {xs : List Nat} :
    evaluateAll par idx (.cons p ps) = .ok xs ↔
      ∃ y ys, evaluate par idx p = .ok y ∧ evaluateAll par (idx + p.size) ps = .ok ys ∧ xs = y :: ys := by
  rw [evaluateAll]
  cases evaluate par idx p with
  | error e => simp
  | ok y =>
    cases evaluateAll par (idx + p.size) ps with
    | error e => simp
    | ok ys => simp [eq_comm]

/-- Every child has one value. -/
theorem evaluateAll_ok_length {par : Params} :
    ∀ {idx : Nat} {cs : Packets} {xs : List Nat},
      evaluateAll par idx cs = .ok xs → xs.length = cs.toList.length
  | idx, .nil, xs, h => by
    rw [evaluateAll_nil] at h
    cases h
    rfl
  | idx, .cons p ps, xs, h => by
    obtain ⟨y, ys, -, hys, rfl⟩ := evaluateAll_cons_ok.1 h
    simp [Packets.toList, evaluateAll_ok_length hys]

theorem evaluateAll_ok_ne_nil {par : Params} {idx : Nat} {cs : Packets} {xs : List Nat}
    (hxs : evaluateAll par idx cs = .ok xs) (hcs : cs.toList ≠ []) : xs ≠ [] := by
  have hlen := evaluateAll_ok_length hxs
  rintro rfl
  exact hcs (List.eq_nil_of_length_eq_zero hlen.symm)

/-! ## The node over its children's values -/

section Node

variable {par : Params} {idx : Nat} {v : Version} {t : TypeId} {op : Opcode} {cs : Packets} {xs : List Nat}
  {r : Nat}

/-- Past the arity check, the exact value is the answer where it fits, and OVERFLOW where it does not
(42_evaluate.md R164, R165). -/
theorem evaluate_op_of_value (ht : Opcode.ofTypeId t = some op)
    (harity : ¬ (par.arityStage = .evaluate ∧ op.isComparison ∧ cs.length ≠ 2))
    (hxs : evaluateAll par (idx + 1) cs = .ok xs) (hr : opValue op xs = some r) :
    evaluate par idx (.op v t cs) = if fits par r then .ok r else .error (.raised .overflow idx) := by
  simp only [evaluate, ht, if_neg harity, hxs, hr]

/-- Only a comparison has its arity checked. -/
theorem evaluate_op_of_fits (ht : Opcode.ofTypeId t = some op) (hop : op.isComparison = false)
    (hxs : evaluateAll par (idx + 1) cs = .ok xs) (hr : opValue op xs = some r) (hfits : fits par r = true) :
    evaluate par idx (.op v t cs) = .ok r := by
  rw [evaluate_op_of_value ht (by simp [hop]) hxs hr, if_pos hfits]

theorem evaluate_op_of_not_fits (ht : Opcode.ofTypeId t = some op) (hop : op.isComparison = false)
    (hxs : evaluateAll par (idx + 1) cs = .ok xs) (hr : opValue op xs = some r) (hfits : fits par r = false) :
    evaluate par idx (.op v t cs) = .error (.raised .overflow idx) := by
  rw [evaluate_op_of_value ht (by simp [hop]) hxs hr, if_neg (by simp [hfits])]

end Node

/-! ## The value rules -/

theorem sumValue_of_ne_nil {xs : List Nat} (h : xs ≠ []) : sumValue xs = some xs.sum := by
  cases xs with
  | nil => contradiction
  | cons x xs => simp [sumValue, List.sum_eq_foldl]

theorem prodValue_of_ne_nil {xs : List Nat} (h : xs ≠ []) : prodValue xs = some xs.prod := by
  cases xs with
  | nil => contradiction
  | cons x xs => simp [prodValue, List.prod_eq_foldl]

/-- Keeping the earlier of two equal values keeps the least one: the fold of MIN is the library's minimum. -/
theorem minValue_eq_min? (xs : List Nat) : minValue xs = xs.min? := by
  cases xs with
  | nil => rfl
  | cons x xs =>
    have hstep : (fun r y : Nat => if y < r then y else r) = min := by
      funext r y
      split <;> omega
    rw [minValue, hstep, List.min?_cons']

theorem maxValue_eq_max? (xs : List Nat) : maxValue xs = xs.max? := by
  cases xs with
  | nil => rfl
  | cons x xs =>
    have hstep : (fun r y : Nat => if r < y then y else r) = max := by
      funext r y
      split <;> omega
    rw [maxValue, hstep, List.max?_cons']

theorem fits_zero (par : Params) : fits par 0 = true := by
  unfold fits
  split
  · rfl
  · simp

/-! ## The four rules on a tree

In a namespace of their own, since `sumValue` to `maxValue` are the model's value rules. -/

namespace Evaluation

/-- Settles O30: the value of MIN is one of the children's, so it fits as they do. -/
theorem minValue : Obligations.MinValue := by
  unfold Obligations.MinValue
  intro par idx v cs xs hxs hcs hfits
  obtain ⟨r, hr⟩ := Option.isSome_iff_exists.1 (List.isSome_min?_of_ne_nil (evaluateAll_ok_ne_nil hxs hcs))
  obtain ⟨hmem, hleast⟩ := List.min?_eq_some_iff.1 hr
  have hval : opValue .min xs = some r := (minValue_eq_min? xs).trans hr
  exact ⟨r, evaluate_op_of_fits rfl rfl hxs hval (hfits r hmem), hmem, hleast⟩

/-- Settles O31: the value of MAX is one of the children's, so it fits as they do. -/
theorem maxValue : Obligations.MaxValue := by
  unfold Obligations.MaxValue
  intro par idx v cs xs hxs hcs hfits
  obtain ⟨r, hr⟩ := Option.isSome_iff_exists.1 (List.isSome_max?_of_ne_nil (evaluateAll_ok_ne_nil hxs hcs))
  obtain ⟨hmem, hgreatest⟩ := List.max?_eq_some_iff.1 hr
  have hval : opValue .max xs = some r := (maxValue_eq_max? xs).trans hr
  exact ⟨r, evaluate_op_of_fits rfl rfl hxs hval (hfits r hmem), hmem, hgreatest⟩

/-- Settles O28: the exact value of SUM is the sum, and only whether it fits is left open. -/
theorem sumValue : Obligations.SumValue := by
  unfold Obligations.SumValue
  intro par idx v cs xs hcs hxs
  have hval : opValue .sum xs = some xs.sum := sumValue_of_ne_nil (evaluateAll_ok_ne_nil hxs hcs)
  exact ⟨evaluate_op_of_fits rfl rfl hxs hval, evaluate_op_of_not_fits rfl rfl hxs hval⟩

/-- Settles O29: the exact value of PROD is the product; with a zero child it is 0, which fits every width. -/
theorem prodValue : Obligations.ProdValue := by
  unfold Obligations.ProdValue
  intro par idx v cs xs hcs hxs
  have hval : opValue .prod xs = some xs.prod := prodValue_of_ne_nil (evaluateAll_ok_ne_nil hxs hcs)
  refine ⟨evaluate_op_of_fits rfl rfl hxs hval, evaluate_op_of_not_fits rfl rfl hxs hval, ?_⟩
  intro _ hzero
  rw [List.prod_eq_zero hzero] at hval
  exact evaluate_op_of_fits rfl rfl hxs hval (fits_zero par)

end Evaluation

end Sys2Proof.Machine
end

section
/-! The host's writes of a register by name (43_host_commands.md R192, R201, R202): the step of a host access that
exists, and for each write when it stores and when it is rejected. -/

namespace Sys2Proof

/-! ## Command codes -/

/-- A code that decodes is the code of the command it decodes to (30_encoding.md R83). -/
theorem decodeCommand_eq_ok {c : BitVec 8} {k : Command} (h : decodeCommand c = .ok k) : c = k.code := by
  unfold decodeCommand at h
  split_ifs at h with hdecode hsum heval
  all_goals cases h
  · exact hdecode
  · exact hsum
  · exact heval

theorem command_code_mem (k : Command) : k.code ∈ [0x01#8, 0x02#8, 0x03#8] := by
  cases k <;> decide

end Sys2Proof

namespace Sys2Proof.Machine

section Write

variable {s : State} {rest : List HostAction}

/-! ## The step of a host access -/

/-- A step that takes a host access to something that exists is the effect of that access. -/
theorem step_of_hostAccess {a : HostAction} (hhost : s.host = a :: rest) (hidle : a ≠ .idle)
    (hexists : ∀ i ∈ a.index s.par.busMap, i < s.par.inCap) :
    step s = .next (hostEffect a { s with host := rest }) := by
  have haccess : step s = hostAccess a { s with host := rest } := by
    rcases step_cases s with ⟨hnil, -⟩ | ⟨rest', hidle', -⟩ | ⟨a', rest', hhost', -, hstep⟩
    · simp [hnil] at hhost
    · rw [hidle'] at hhost
      obtain ⟨rfl, -⟩ := List.cons.inj hhost
      contradiction
    · rw [hhost'] at hhost
      obtain ⟨rfl, rfl⟩ := List.cons.inj hhost
      exact hstep
  exact haccess.trans (hostAccess_next.2 ⟨hexists, rfl⟩)

theorem step_of_writeCmd {c : BitVec 8} (hhost : s.host = .writeCmd c :: rest) :
    step s = .next (writeCmd c { s with host := rest }) :=
  step_of_hostAccess hhost (by simp) (by simp [HostAction.index])

theorem step_of_writeInLen {n : Nat} (hhost : s.host = .writeInLen n :: rest) :
    step s = .next (writeInLen n { s with host := rest }) :=
  step_of_hostAccess hhost (by simp) (by simp [HostAction.index])

theorem step_of_writeInBuf {a : Nat} {v : Byte} (hhost : s.host = .writeInBuf a v :: rest)
    (ha : a < s.par.inCap) : step s = .next (writeInBuf a v { s with host := rest }) :=
  step_of_hostAccess hhost (by simp) (by simpa [HostAction.index] using ha)

/-! ## When a write stores and when it is rejected -/

theorem writeCmd_eq_reject {c : BitVec 8}
    (h : s.status.state = .busy ∨ c ∉ [0x01#8, 0x02#8, 0x03#8]) : writeCmd c s = reject s := by
  rcases writeCmd_cases c s with ⟨hreject, -⟩ | ⟨hfree, k, hk, -⟩
  · exact hreject
  · obtain rfl := decodeCommand_eq_ok hk
    rcases h with hbusy | hreserved
    · exact absurd hbusy hfree
    · exact absurd (command_code_mem k) hreserved

theorem writeInLen_eq_store {n : Nat} (hfree : s.status.state ≠ .busy) (hn : n ≤ s.par.inCap) :
    writeInLen n s = { s with inLen := n } := by
  rcases writeInLen_cases n s with ⟨-, hbusy | hlong⟩ | ⟨-, -, hstore⟩
  · exact absurd hbusy hfree
  · omega
  · exact hstore

theorem writeInLen_eq_reject {n : Nat} (h : s.status.state = .busy ∨ s.par.inCap < n) :
    writeInLen n s = reject s := by
  rcases writeInLen_cases n s with ⟨hreject, -⟩ | ⟨hfree, hn, -⟩
  · exact hreject
  · rcases h with hbusy | hlong
    · exact absurd hbusy hfree
    · omega

theorem writeInBuf_eq_store (a : Nat) (v : Byte) (hfree : s.status.state ≠ .busy) :
    writeInBuf a v s = { s with inBuf := s.inBuf.write a v } := by
  rcases writeInBuf_cases a v s with ⟨hbusy, -⟩ | ⟨-, hstore⟩
  · exact absurd hbusy hfree
  · exact hstore

theorem writeInBuf_eq_reject (a : Nat) (v : Byte) (hbusy : s.status.state = .busy) :
    writeInBuf a v s = reject s := by
  rcases writeInBuf_cases a v s with ⟨-, hreject⟩ | ⟨hfree, -⟩
  · exact hreject
  · exact absurd hbusy hfree

end Write

/-! ## The statements -/

/-- Settles O50: the write stores through `Memory.write`, whose reads are known index by index. -/
theorem inBufWrite : Obligations.InBufWrite := by
  unfold Obligations.InBufWrite
  intro s a v rest hhost ha
  have hstep := step_of_writeInBuf hhost ha
  constructor
  · intro hfree
    have hstore := hstep.trans (congrArg Host.Outcome.next (writeInBuf_eq_store a v hfree))
    exact ⟨_, hstore, rfl, Memory.read_write_same s.inBuf a v,
      fun a' hne => Memory.read_write_other s.inBuf a a' v hne⟩
  · intro hbusy
    exact hstep.trans (congrArg Host.Outcome.next (writeInBuf_eq_reject a v hbusy))

/-- Settles O46: a code outside the three decodes to no command. -/
theorem rejectedCmdWrite : Obligations.RejectedCmdWrite := by
  unfold Obligations.RejectedCmdWrite
  intro s c rest hhost h
  exact (step_of_writeCmd hhost).trans (congrArg Host.Outcome.next (writeCmd_eq_reject h))

/-- Settles O49: the two cases of R201 are those of `writeInLen`. -/
theorem inLenWrite : Obligations.InLenWrite := by
  unfold Obligations.InLenWrite
  intro s n rest hhost
  have hstep := step_of_writeInLen hhost
  constructor
  · intro hfree hn
    exact hstep.trans (congrArg Host.Outcome.next (writeInLen_eq_store hfree hn))
  · intro h
    exact hstep.trans (congrArg Host.Outcome.next (writeInLen_eq_reject h))

end Sys2Proof.Machine
end

section
/-! The host's write of a read-only register (70_reset_and_hazards.md R266): an access that always exists, since it
reaches no byte of IN_BUF, and whose effect is none. -/

namespace Sys2Proof.Machine

@[simp] theorem index_writeReadOnly (m : BusMap) (r : ReadOnlyReg) (v : Nat) :
    (HostAction.writeReadOnly r v).index m = none := rfl

@[simp] theorem hostEffect_writeReadOnly (r : ReadOnlyReg) (v : Nat) (s : State) :
    hostEffect (.writeReadOnly r v) s = s := rfl

/-- Settles O53: the step is the effect of the access, which leaves the state, REJECTED included, as it is. -/
theorem readOnlyWritesDoNothing : Obligations.ReadOnlyWritesDoNothing := by
  unfold Obligations.ReadOnlyWritesDoNothing
  intro s r v rest hhost
  calc step s = .next (hostEffect (.writeReadOnly r v) { s with host := rest }) :=
        step_of_hostAccess hhost (by simp) (by simp)
    _ = .next { s with host := rest } := by rw [hostEffect_writeReadOnly]

end Sys2Proof.Machine
end

section
/-! Encoding and decoding (30_encoding.md): the encoder by the shape of the instruction, what `decodeForm` reads and
where it fails, and with both the two directions of the round trip. -/

namespace Sys2Proof

/-! ## The encoder -/

theorem encode_lenForm (op : Opcode) (v : Version) (l : LenField) :
    encode (op.lenForm v l) = .stream (oplBits op v l) := by
  cases op <;> rfl

theorem encode_cntForm (op : Opcode) (v : Version) (n : CountField) :
    encode (op.cntForm v n) = .stream (opcBits op v n) := by
  cases op <;> rfl

theorem encode_toInstr (c : Command) : encode c.toInstr = .cmd c.code := by
  cases c <;> rfl

/-! ## The header -/

/-- A number that fits a field is the value of the field that holds it. -/
theorem toNat_ofNat_of_lt {n v : Nat} (h : v < 2 ^ n) : (BitVec.ofNat n v).toNat = v := by
  rw [BitVec.toNat_ofNat, Nat.mod_eq_of_lt h]

/-- A header decodes to its two fields, and the form is read from what follows. -/
theorem decodePacket_header (v : Version) (t : TypeId) (rest : Bits) :
    decodePacket (headerBits v t ++ rest) = decodeForm v t rest := by
  simp [decodePacket, headerBits, takeField_toNat]

/-- What a packet pattern was decoded from begins with a header. -/
theorem decodePacket_eq_ok {bs : Bits} {i : Instr} (h : decodePacket bs = .ok i) :
    ∃ v t rest, bs = headerBits v t ++ rest ∧ decodeForm v t rest = .ok i := by
  unfold decodePacket at h
  split at h
  · simp at h
  · rename_i v rest₁ hv
    split at h
    · simp at h
    · rename_i t rest₂ ht
      obtain ⟨rfl, hvlt⟩ := takeField_eq_some hv
      obtain ⟨rfl, htlt⟩ := takeField_eq_some ht
      refine ⟨_, _, rest₂, ?_, h⟩
      simp only [headerBits, toNat_ofNat_of_lt hvlt, toNat_ofNat_of_lt htlt, List.append_assoc]

/-! ## The form -/

theorem decodeForm_literal (v : Version) (rest : Bits) : decodeForm v 4 rest = .ok (.lit v) := rfl

/-- What `decodeForm` answers for an opcode, by what stands in the stream: a form, or the truncation of I, of L or
of N (30_encoding.md R76, R77, R80). -/
theorem decodeForm_code_cases (v : Version) (op : Opcode) (bs : Bits) :
    (∃ (l : LenField) (rest : Bits), bs = false :: (bitsOfNat 15 l.toNat ++ rest) ∧
      decodeForm v op.code bs = .ok (op.lenForm v l)) ∨
    (∃ (n : CountField) (rest : Bits), bs = true :: (bitsOfNat 11 n.toNat ++ rest) ∧
      decodeForm v op.code bs = .ok (op.cntForm v n)) ∨
    (bs = [] ∧ decodeForm v op.code bs = .error (.truncated 6)) ∨
    (∃ rest : Bits, bs = false :: rest ∧ rest.length < 15 ∧
      decodeForm v op.code bs = .error (.truncated 7)) ∨
    (∃ rest : Bits, bs = true :: rest ∧ rest.length < 11 ∧
      decodeForm v op.code bs = .error (.truncated 7)) := by
  cases bs with
  | nil => simp [decodeForm, takeField]
  | cons i rest =>
    cases i with
    | false =>
      cases hl : takeField 15 rest with
      | none =>
        have hshort := takeField_eq_none.1 hl
        exact .inr (.inr (.inr (.inl
          ⟨rest, rfl, hshort, by simp [decodeForm, takeField_one_cons, hl]⟩)))
      | some x =>
        obtain ⟨l, rest'⟩ := x
        obtain ⟨rfl, hlt⟩ := takeField_eq_some hl
        have hfield : (BitVec.ofNat 15 l).toNat = l := toNat_ofNat_of_lt hlt
        have hbits := decodeForm_len v op (BitVec.ofNat 15 l) rest'
        rw [hfield] at hbits
        exact .inl ⟨BitVec.ofNat 15 l, rest', by rw [hfield], hbits⟩
    | true =>
      cases hn : takeField 11 rest with
      | none =>
        have hshort := takeField_eq_none.1 hn
        exact .inr (.inr (.inr (.inr
          ⟨rest, rfl, hshort, by simp [decodeForm, takeField_one_cons, hn]⟩)))
      | some x =>
        obtain ⟨n, rest'⟩ := x
        obtain ⟨rfl, hlt⟩ := takeField_eq_some hn
        have hfield : (BitVec.ofNat 11 n).toNat = n := toNat_ofNat_of_lt hlt
        have hbits := decodeForm_cnt v op (BitVec.ofNat 11 n) rest'
        rw [hfield] at hbits
        exact .inr (.inl ⟨BitVec.ofNat 11 n, rest', by rw [hfield], hbits⟩)

/-! ## The statements -/

/-- Settles O1: by the shape of the instruction, a LIT, an Operator form of either length type or a command. -/
theorem decodeOfEncodeIsIdentity : Obligations.DecodeOfEncodeIsIdentity := by
  unfold Obligations.DecodeOfEncodeIsIdentity
  intro i
  rcases Machine.instr_shapes i with ⟨v, rfl⟩ | ⟨op, v, l, rfl⟩ | ⟨op, v, n, rfl⟩ | ⟨c, rfl⟩
  · have h := decodePacket_header v 4 []
    rwa [List.append_nil, decodeForm_literal] at h
  · rw [encode_lenForm, decode, oplBits, decodePacket_header]
    simpa using decodeForm_len v op l []
  · rw [encode_cntForm, decode, opcBits, decodePacket_header]
    simpa using decodeForm_cnt v op n []
  · rw [encode_toInstr, decode, decodeCommand_code]

/-- Settles O2: a decoded header names either the Literal or an opcode, and an opcode's form is followed by exactly
the bits its length field encodes. -/
theorem decodedWordsAreTheEncoding : Obligations.DecodedWordsAreTheEncoding := by
  unfold Obligations.DecodedWordsAreTheEncoding
  constructor
  · intro bs i h
    obtain ⟨v, t, rest, rfl, hform⟩ := decodePacket_eq_ok h
    cases ht : Opcode.ofTypeId t with
    | none =>
      obtain rfl := (Opcode.ofTypeId_eq_none t).1 ht
      obtain rfl := Except.ok.inj ((decodeForm_literal v rest).symm.trans hform)
      exact ⟨headerBits v 4, rest, rfl, rfl⟩
    | some op =>
      obtain rfl := Opcode.code_of_ofTypeId ht
      rcases decodeForm_code_cases v op rest with ⟨l, rest', rfl, hok⟩ | ⟨n, rest', rfl, hok⟩ |
        ⟨-, herr⟩ | ⟨-, -, -, herr⟩ | ⟨-, -, -, herr⟩
      · obtain rfl := Except.ok.inj (hok.symm.trans hform)
        exact ⟨oplBits op v l, rest', encode_lenForm op v l, by simp [oplBits]⟩
      · obtain rfl := Except.ok.inj (hok.symm.trans hform)
        exact ⟨opcBits op v n, rest', encode_cntForm op v n, by simp [opcBits]⟩
      all_goals simp [herr] at hform
  · intro c i h
    rw [decode] at h
    split at h
    · rename_i k hk
      obtain rfl := decodeCommand_eq_ok hk
      obtain rfl : k.toInstr = i := Except.ok.inj h
      exact encode_toInstr k
    · simp at h

/-- Settles O3: each word is a closed term, which the decoder evaluates. -/
theorem writtenWordsDecode : Obligations.WrittenWordsDecode := by
  unfold Obligations.WrittenWordsDecode
  decide

end Sys2Proof
end

section
/-! Evaluation (42_evaluate.md): packet sequences as lists, the bound on a version sum, all that a node and a
sequence can answer, and from those the order of evaluation, the place of an error, and what a valid tree answers. -/

namespace Sys2Proof.Machine

/-! ## Packet sequences -/

theorem Packets.length_eq_toList_length : ∀ cs : Packets, cs.length = cs.toList.length
  | .nil => rfl
  | .cons p ps => by simp [Packets.length, Packets.toList, Packets.length_eq_toList_length ps]

theorem Packets.toList_eq_nil_iff {cs : Packets} : cs.toList = [] ↔ cs = .nil := by
  cases cs <;> simp [Packets.toList]

theorem Packets.toList_eq_cons {cs : Packets} {p : Packet} {l : List Packet} (h : cs.toList = p :: l) :
    ∃ ps, cs = .cons p ps ∧ ps.toList = l := by
  cases cs with
  | nil => simp [Packets.toList] at h
  | cons q qs =>
    obtain ⟨rfl, rfl⟩ := List.cons.inj h
    exact ⟨qs, rfl, rfl⟩

/-! ## The version sum -/

mutual

theorem sumOfVersions_le : ∀ p : Packet, sumOfVersions p ≤ 7 * p.size
  | .lit v _ => by
    have hv := v.isLt
    simp only [sumOfVersions, Packet.size]
    omega
  | .op v _ cs => by
    have hv := v.isLt
    have hcs := sumOfVersionsAll_le cs
    simp only [sumOfVersions, Packet.size]
    omega

theorem sumOfVersionsAll_le : ∀ cs : Packets, sumOfVersionsAll cs ≤ 7 * cs.size
  | .nil => by simp [sumOfVersionsAll]
  | .cons p ps => by
    have hp := sumOfVersions_le p
    have hps := sumOfVersionsAll_le ps
    simp only [sumOfVersionsAll, Packets.size]
    omega

end

/-- Settles O27: a version is at most 7, and the sum adds one version for each packet. -/
theorem versionSumIsBounded : Obligations.VersionSumIsBounded :=
  sumOfVersions_le

/-! ## What a node and a sequence can answer -/

/-- The node's answers, in the order in which the rules give them (42_evaluate.md R164 to R167): opcode 4, the arity
check, a child's error, no value, the value, OVERFLOW. -/
theorem evaluate_op_cases (par : Params) (idx : Nat) (v : Version) (t : TypeId) (cs : Packets) :
    (Opcode.ofTypeId t = none ∧
      evaluate par idx (.op v t cs) = .error (.raised (.structural .operatorOpcode4) idx)) ∨
    ∃ op, Opcode.ofTypeId t = some op ∧
      ((par.arityStage = .evaluate ∧ op.isComparison = true ∧ cs.length ≠ 2 ∧
        evaluate par idx (.op v t cs) = .error (.raised (.structural .cmpArity) idx)) ∨
       (¬ (par.arityStage = .evaluate ∧ op.isComparison = true ∧ cs.length ≠ 2) ∧
        ((∃ e, evaluateAll par (idx + 1) cs = .error e ∧ evaluate par idx (.op v t cs) = .error e) ∨
         ∃ xs, evaluateAll par (idx + 1) cs = .ok xs ∧
          ((opValue op xs = none ∧ evaluate par idx (.op v t cs) = .error .noValue) ∨
           ∃ r, opValue op xs = some r ∧
            ((fits par r = true ∧ evaluate par idx (.op v t cs) = .ok r) ∨
             (fits par r = false ∧ evaluate par idx (.op v t cs) = .error (.raised .overflow idx))))))) := by
  rw [evaluate]
  cases Opcode.ofTypeId t with
  | none => exact .inl ⟨rfl, rfl⟩
  | some op =>
    refine .inr ⟨op, rfl, ?_⟩
    by_cases harity : par.arityStage = .evaluate ∧ op.isComparison = true ∧ cs.length ≠ 2
    · exact .inl ⟨harity.1, harity.2.1, harity.2.2, if_pos harity⟩
    · refine .inr ⟨harity, ?_⟩
      simp only [if_neg harity]
      cases evaluateAll par (idx + 1) cs with
      | error e => exact .inl ⟨e, rfl, rfl⟩
      | ok xs =>
        refine .inr ⟨xs, rfl, ?_⟩
        cases hvalue : opValue op xs with
        | none => exact .inl ⟨rfl, by simp only [hvalue]⟩
        | some r =>
          refine .inr ⟨r, rfl, ?_⟩
          cases hr : fits par r with
          | false => exact .inr ⟨rfl, by simp [hvalue, hr]⟩
          | true => exact .inl ⟨rfl, by simp [hvalue, hr]⟩

/-- A sequence answers with its first error or with all values (42_evaluate.md R167, R168). -/
theorem evaluateAll_cons_cases (par : Params) (idx : Nat) (p : Packet) (ps : Packets) :
    (∃ e, evaluate par idx p = .error e ∧ evaluateAll par idx (.cons p ps) = .error e) ∨
    ∃ x, evaluate par idx p = .ok x ∧
      ((∃ e, evaluateAll par (idx + p.size) ps = .error e ∧
        evaluateAll par idx (.cons p ps) = .error e) ∨
       ∃ xs, evaluateAll par (idx + p.size) ps = .ok xs ∧
        evaluateAll par idx (.cons p ps) = .ok (x :: xs)) := by
  rw [evaluateAll]
  cases evaluate par idx p with
  | error e => exact .inl ⟨e, rfl, rfl⟩
  | ok x =>
    refine .inr ⟨x, rfl, ?_⟩
    cases evaluateAll par (idx + p.size) ps with
    | error e => exact .inl ⟨e, rfl, rfl⟩
    | ok xs => exact .inr ⟨xs, rfl, rfl⟩

theorem evaluate_lit (par : Params) (idx : Nat) (v : Version) (x : Nat) :
    evaluate par idx (.lit v x) = .ok x := by
  simp [evaluate]

/-! ## The place of an error -/

mutual

theorem evaluate_raised_index {par : Params} {e : ErrorClass} {pos : Nat} :
    ∀ {idx : Nat} {p : Packet}, evaluate par idx p = .error (.raised e pos) →
      idx ≤ pos ∧ pos < idx + p.size
  | idx, .lit v x, h => by simp [evaluate_lit] at h
  | idx, .op v t cs, h => by
    have here : idx ≤ idx ∧ idx < idx + (Packet.op v t cs).size := ⟨le_rfl, by simp [Packet.size]⟩
    rcases evaluate_op_cases par idx v t cs with ⟨-, heq⟩ | ⟨op, -, ⟨-, -, -, heq⟩ | ⟨-, hrest⟩⟩
    · rw [heq] at h
      cases h
      exact here
    · rw [heq] at h
      cases h
      exact here
    · rcases hrest with ⟨e', hall, heq⟩ | ⟨xs, -, ⟨-, heq⟩ | ⟨r, -, ⟨-, heq⟩ | ⟨-, heq⟩⟩⟩
      · rw [heq] at h
        cases h
        have hin := evaluateAll_raised_index hall
        simp only [Packet.size]
        omega
      · simp [heq] at h
      · simp [heq] at h
      · rw [heq] at h
        cases h
        exact here

theorem evaluateAll_raised_index {par : Params} {e : ErrorClass} {pos : Nat} :
    ∀ {idx : Nat} {cs : Packets}, evaluateAll par idx cs = .error (.raised e pos) →
      idx ≤ pos ∧ pos < idx + cs.size
  | idx, .nil, h => by simp [evaluateAll_nil] at h
  | idx, .cons p ps, h => by
    simp only [Packets.size]
    rcases evaluateAll_cons_cases par idx p ps with
      ⟨e', hp, heq⟩ | ⟨x, -, ⟨e', hps, heq⟩ | ⟨xs, -, heq⟩⟩
    · rw [heq] at h
      cases h
      have hin := evaluate_raised_index hp
      omega
    · rw [heq] at h
      cases h
      have hin := evaluateAll_raised_index hps
      omega
    · simp [heq] at h

end

/-- Settles O35: a node raises its own errors at its own index, and its children's lie among theirs. -/
theorem evaluateErrorIndexIsInTheTree : Obligations.EvaluateErrorIndexIsInTheTree := by
  unfold Obligations.EvaluateErrorIndexIsInTheTree
  intro par idx p e pos h
  exact evaluate_raised_index h

/-! ## The order of evaluation -/

/-- The values of a sequence are those of its packets, each at the index its predecessors leave it. -/
theorem evaluateAll_ok_iff (par : Params) :
    ∀ (idx : Nat) (cs : Packets) (xs : List Nat),
      evaluateAll par idx cs = .ok xs ↔
        xs.length = cs.toList.length ∧
        ∀ (pre post : List Packet) (p : Packet) (x : Nat), cs.toList = pre ++ p :: post →
          xs[pre.length]? = some x → evaluate par (idx + (pre.map Packet.size).sum) p = .ok x
  | idx, .nil, xs => by
    simp [evaluateAll_nil, Packets.toList, eq_comm]
  | idx, .cons q qs, xs => by
    rw [evaluateAll_cons_ok]
    constructor
    · rintro ⟨y, ys, hy, hys, rfl⟩
      obtain ⟨hlen, hrest⟩ := (evaluateAll_ok_iff par (idx + q.size) qs ys).1 hys
      refine ⟨by simp [Packets.toList, hlen], ?_⟩
      intro pre post p x hsplit hx
      cases pre with
      | nil =>
        obtain ⟨rfl, -⟩ := List.cons.inj hsplit
        obtain rfl : y = x := by simpa using hx
        simpa using hy
      | cons q' pre =>
        obtain ⟨rfl, hsplit'⟩ := List.cons.inj hsplit
        simpa [Nat.add_assoc] using hrest pre post p x hsplit' (by simpa using hx)
    · rintro ⟨hlen, hat⟩
      cases xs with
      | nil => simp [Packets.toList] at hlen
      | cons y ys =>
        refine ⟨y, ys, by simpa using hat [] qs.toList q y rfl rfl, ?_, rfl⟩
        refine (evaluateAll_ok_iff par (idx + q.size) qs ys).2 ⟨by simpa [Packets.toList] using hlen, ?_⟩
        intro pre post p x hsplit hx
        have hp := hat (q :: pre) post p x (by simp [Packets.toList, hsplit]) (by simpa using hx)
        simpa [Nat.add_assoc] using hp

/-- The first packet that has no value decides what the sequence answers. -/
theorem evaluateAll_first_error {par : Params} {bad : Packet} {after : List Packet} {e : EvalStop} :
    ∀ {before : List Packet} {idx : Nat} {cs : Packets}, cs.toList = before ++ bad :: after →
      (∀ (pre post : List Packet) (p : Packet), before = pre ++ p :: post →
        ∃ x, evaluate par (idx + (pre.map Packet.size).sum) p = .ok x) →
      evaluate par (idx + (before.map Packet.size).sum) bad = .error e →
      evaluateAll par idx cs = .error e
  | [], idx, cs, hcs, _, hbad => by
    obtain ⟨ps, rfl, -⟩ := Packets.toList_eq_cons hcs
    have hbad' : evaluate par idx bad = .error e := by simpa using hbad
    simp [evaluateAll, hbad']
  | p :: before, idx, cs, hcs, hok, hbad => by
    obtain ⟨ps, rfl, hps⟩ := Packets.toList_eq_cons hcs
    obtain ⟨x, hx⟩ := hok [] before p rfl
    have hx' : evaluate par idx p = .ok x := by simpa using hx
    have hrest : evaluateAll par (idx + p.size) ps = .error e := by
      refine evaluateAll_first_error hps ?_ (by simpa [Nat.add_assoc] using hbad)
      intro pre post q hsplit
      obtain ⟨y, hy⟩ := hok (p :: pre) post q (by simp [hsplit])
      exact ⟨y, by simpa [Nat.add_assoc] using hy⟩
    simp [evaluateAll, hx', hrest]

/-- Past the node's own checks, an error among the children is the node's. -/
theorem evaluate_op_of_child_error {par : Params} {idx : Nat} {v : Version} {t : TypeId} {op : Opcode}
    {cs : Packets} {e : EvalStop} (ht : Opcode.ofTypeId t = some op)
    (harity : ¬ (par.arityStage = .evaluate ∧ op.isComparison ∧ cs.length ≠ 2))
    (hall : evaluateAll par (idx + 1) cs = .error e) : evaluate par idx (.op v t cs) = .error e := by
  simp only [evaluate, ht, if_neg harity, hall]

/-- Settles O34: the values stand in the order of the children, and the first child without one decides. -/
theorem firstChildErrorIsReported : Obligations.FirstChildErrorIsReported := by
  unfold Obligations.FirstChildErrorIsReported
  refine ⟨evaluate_lit, evaluateAll_ok_iff, ?_⟩
  intro par idx v op cs before after bad e hcs harity hbefore hbad
  have hpass : ¬ (par.arityStage = .evaluate ∧ op.isComparison ∧ cs.length ≠ 2) := by
    rintro ⟨hstage, hcmp, hlen⟩
    rw [Packets.length_eq_toList_length] at hlen
    rcases harity with h | h | h
    · simp [h] at hstage
    · simp [h] at hcmp
    · exact hlen h
  refine evaluate_op_of_child_error (Opcode.ofTypeId_code op) hpass (evaluateAll_first_error hcs ?_ hbad)
  intro pre post p hsplit
  exact hbefore _ pre post p hsplit rfl

/-! ## The comparisons and the node checks -/

theorem fits_of_legal {par : Params} {n : Nat} (hlegal : par.legal = true) (hn : n ≤ 4 * par.inCap) :
    fits par n = true := by
  unfold Params.legal at hlegal
  unfold fits
  cases hw : par.valueWidth with
  | none => rfl
  | some w =>
    simp only [hw, Bool.and_eq_true, decide_eq_true_eq] at hlegal ⊢
    omega

theorem inCap_pos_of_legal {par : Params} (hlegal : par.legal = true) : 1 ≤ par.inCap := by
  simp only [Params.legal, Bool.and_eq_true, decide_eq_true_eq] at hlegal
  exact hlegal.1.2

/-- The value of a node over exactly two children, whose arity is right for every opcode. -/
theorem evaluate_op_of_two {par : Params} {idx : Nat} {v : Version} {t : TypeId} {op : Opcode} {cs : Packets}
    {x y r : Nat} (ht : Opcode.ofTypeId t = some op) (hxs : evaluateAll par (idx + 1) cs = .ok [x, y])
    (hr : opValue op [x, y] = some r) (hfits : fits par r = true) :
    evaluate par idx (.op v t cs) = .ok r := by
  have hlen : cs.length = 2 := by
    rw [Packets.length_eq_toList_length]
    exact (evaluateAll_ok_length hxs).symm
  rw [evaluate_op_of_value ht (by simp [hlen]) hxs hr, if_pos hfits]

theorem evaluateAll_of_two {par : Params} {idx x y : Nat} {cs : Packets} {p q : Packet}
    (hcs : cs.toList = [p, q]) (hp : evaluate par idx p = .ok x)
    (hq : evaluate par (idx + p.size) q = .ok y) : evaluateAll par idx cs = .ok [x, y] := by
  obtain ⟨ps, rfl, hps⟩ := Packets.toList_eq_cons hcs
  obtain ⟨qs, rfl, hqs⟩ := Packets.toList_eq_cons hps
  obtain rfl := Packets.toList_eq_nil_iff.1 hqs
  refine evaluateAll_cons_ok.2 ⟨x, [y], hp, ?_, rfl⟩
  exact evaluateAll_cons_ok.2 ⟨y, [], hq, evaluateAll_nil par _, rfl⟩

/-- Settles O32: two values in order, and a 0 or a 1 that every legal width holds. -/
theorem comparisonValues : Obligations.ComparisonValues := by
  unfold Obligations.ComparisonValues
  intro par idx v cs x y hlegal hvalues
  have hxs : evaluateAll par (idx + 1) cs = .ok [x, y] := by
    rcases hvalues with h | ⟨p, q, hcs, hp, hq⟩
    · exact h
    · exact evaluateAll_of_two hcs hp hq
  have hbit (c : Prop) [Decidable c] : fits par (if c then 1 else 0) = true := by
    have hcap := inCap_pos_of_legal hlegal
    refine fits_of_legal hlegal ?_
    split <;> omega
  exact ⟨evaluate_op_of_two (op := .gt) rfl hxs rfl (hbit _),
    evaluate_op_of_two (op := .lt) rfl hxs rfl (hbit _),
    evaluate_op_of_two (op := .eq) rfl hxs rfl (hbit _)⟩

/-- The arity check of EVALUATE, whatever the children are. -/
theorem evaluate_op_of_arity {par : Params} {idx : Nat} {v : Version} {t : TypeId} {op : Opcode}
    {cs : Packets} (ht : Opcode.ofTypeId t = some op) (hstage : par.arityStage = .evaluate)
    (hcmp : op.isComparison = true) (hlen : cs.length ≠ 2) :
    evaluate par idx (.op v t cs) = .error (.raised (.structural .cmpArity) idx) := by
  simp only [evaluate, ht]
  exact if_pos ⟨hstage, hcmp, hlen⟩

theorem opValue_nil (op : Opcode) : opValue op [] = none := by
  cases op <;> rfl

/-- Settles O33: the checks come before `evaluateAll`, and no opcode has a value over no values. -/
theorem nodeChecksComeFirst : Obligations.NodeChecksComeFirst := by
  unfold Obligations.NodeChecksComeFirst
  intro par idx v cs
  refine ⟨?_, ?_, ?_⟩
  · have hnone : Opcode.ofTypeId 4 = none := rfl
    simp only [evaluate, hnone]
  · intro hstage hlen t ht
    rw [← Packets.length_eq_toList_length] at hlen
    simp only [List.mem_cons, List.not_mem_nil, or_false] at ht
    rcases ht with rfl | rfl | rfl
    · exact evaluate_op_of_arity (op := .gt) rfl hstage rfl hlen
    · exact evaluate_op_of_arity (op := .lt) rfl hstage rfl hlen
    · exact evaluate_op_of_arity (op := .eq) rfl hstage rfl hlen
  · intro op hpass
    have harity : ¬ (par.arityStage = .evaluate ∧ op.isComparison ∧ Packets.nil.length ≠ 2) := by
      rintro ⟨hstage, hcmp, -⟩
      rcases hpass with h | h
      · simp [h] at hstage
      · simp [h] at hcmp
    simp only [evaluate, Opcode.ofTypeId_code, if_neg harity, evaluateAll_nil, opValue_nil]

/-! ## A valid tree -/

theorem Packet.valid_op_iff {par : Params} {v : Version} {t : TypeId} {cs : Packets} :
    (Packet.op v t cs).valid par = true ↔
      (∃ op, Opcode.ofTypeId t = some op ∧ cs ≠ .nil ∧
        (par.arityStage = .decode → op.isComparison = true → cs.length = 2)) ∧ cs.valid par = true := by
  rw [Packet.valid]
  cases Opcode.ofTypeId t with
  | none => simp
  | some op =>
    simp only [Bool.and_eq_true, decide_eq_true_eq, Option.some.injEq, exists_eq_left', ne_eq]

/-- An opcode has no value over no values, and a comparison none over other than two; that is all. -/
theorem opValue_isSome {op : Opcode} {xs : List Nat} (hne : xs ≠ [])
    (harity : op.isComparison = true → xs.length = 2) : ∃ r, opValue op xs = some r := by
  obtain ⟨x, ys, rfl⟩ := List.exists_cons_of_ne_nil hne
  cases hcmp : op.isComparison with
  | false =>
    cases op with
    | sum | prod | min | max => exact ⟨_, rfl⟩
    | gt | lt | eq => simp [Opcode.isComparison] at hcmp
  | true =>
    obtain ⟨a, b, hab⟩ := List.length_eq_two.1 (harity hcmp)
    rw [hab]
    cases op with
    | gt | lt | eq => exact ⟨_, rfl⟩
    | sum | prod | min | max => simp [Opcode.isComparison] at hcmp

/-- The errors that an evaluation of a valid tree can end with. -/
def evaluateErrors (par : Params) (e : ErrorClass) : Prop :=
  e = .overflow ∨ (e = .structural .cmpArity ∧ par.arityStage = .evaluate)

mutual

/-- A valid tree has a value that fits W, or an error of `evaluateErrors` (42_evaluate.md R164 to R169). -/
theorem evaluate_of_valid {par : Params} :
    ∀ {idx : Nat} {p : Packet}, p.valid par = true →
      (∃ x, fits par x = true ∧ evaluate par idx p = .ok x) ∨
      ∃ e pos, evaluateErrors par e ∧ evaluate par idx p = .error (.raised e pos)
  | idx, .lit v x, h => .inl ⟨x, by simpa [Packet.valid] using h, evaluate_lit par idx v x⟩
  | idx, .op v t cs, h => by
    obtain ⟨⟨op', ht', hne, hdecode⟩, hcs⟩ := Packet.valid_op_iff.1 h
    rcases evaluate_op_cases par idx v t cs with ⟨ht, -⟩ | ⟨op, ht, ⟨hstage, -, -, heq⟩ | ⟨harity, hrest⟩⟩
    · simp [ht] at ht'
    · exact .inr ⟨_, idx, .inr ⟨rfl, hstage⟩, heq⟩
    · obtain rfl : op' = op := Option.some.inj (ht'.symm.trans ht)
      rcases evaluateAll_of_valid (idx := idx + 1) hcs with ⟨xs, hxs⟩ | ⟨e, pos, he, hall⟩
      · have hlen : xs.length = cs.length := by
          rw [Packets.length_eq_toList_length]
          exact evaluateAll_ok_length hxs
        have hvalue : ∃ r, opValue op' xs = some r := by
          refine opValue_isSome
            (evaluateAll_ok_ne_nil hxs (fun hnil => hne (Packets.toList_eq_nil_iff.1 hnil))) ?_
          intro hcmp
          rw [hlen]
          cases hstage : par.arityStage with
          | decode => exact hdecode hstage hcmp
          | evaluate =>
            by_contra hlen2
            exact harity ⟨hstage, hcmp, hlen2⟩
        obtain ⟨r, hr⟩ := hvalue
        rw [evaluate_op_of_value ht harity hxs hr]
        cases hfits : fits par r with
        | true => exact .inl ⟨r, hfits, if_pos rfl⟩
        | false => exact .inr ⟨.overflow, idx, .inl rfl, if_neg (by simp)⟩
      · exact .inr ⟨e, pos, he, evaluate_op_of_child_error ht harity hall⟩

theorem evaluateAll_of_valid {par : Params} :
    ∀ {idx : Nat} {cs : Packets}, cs.valid par = true →
      (∃ xs, evaluateAll par idx cs = .ok xs) ∨
      ∃ e pos, evaluateErrors par e ∧ evaluateAll par idx cs = .error (.raised e pos)
  | idx, .nil, _ => .inl ⟨[], evaluateAll_nil par idx⟩
  | idx, .cons p ps, h => by
    simp only [Packets.valid, Bool.and_eq_true] at h
    obtain ⟨hp, hps⟩ := h
    rcases evaluate_of_valid (idx := idx) hp with ⟨x, -, hx⟩ | ⟨e, pos, he, herr⟩
    · rcases evaluateAll_of_valid (idx := idx + p.size) hps with ⟨xs, hxs⟩ | ⟨e, pos, he, herr⟩
      · exact .inl ⟨x :: xs, evaluateAll_cons_ok.2 ⟨x, xs, hx, hxs, rfl⟩⟩
      · exact .inr ⟨e, pos, he, by simp [evaluateAll, hx, herr]⟩
    · exact .inr ⟨e, pos, he, by simp [evaluateAll, herr]⟩

end

theorem execEvaluate_of_ok {s : State} {p : Packet} {v : Nat} (htree : s.tree = some p)
    (hv : evaluate s.par 0 p = .ok v) : execEvaluate s = .next (completeOk v s) := by
  simp [execEvaluate, htree, hv]

theorem execEvaluate_of_raised {s : State} {p : Packet} {e : ErrorClass} {pos : Nat} (htree : s.tree = some p)
    (herr : evaluate s.par 0 p = .error (.raised e pos)) : execEvaluate s = .next (raise e pos s) := by
  simp [execEvaluate, htree, herr]

/-- What EVALUATE of a valid tree answers: a value that fits W, or an error of `evaluateErrors` at an index of the
tree. -/
theorem execEvaluate_of_valid {s : State} {p : Packet} (htree : s.tree = some p)
    (hvalid : p.valid s.par = true) :
    (∃ v, fits s.par v = true ∧ execEvaluate s = .next (completeOk v s)) ∨
    (∃ e pos, evaluateErrors s.par e ∧ pos < p.size ∧ execEvaluate s = .next (raise e pos s)) := by
  rcases evaluate_of_valid (idx := 0) hvalid with ⟨v, hfits, hv⟩ | ⟨e, pos, he, herr⟩
  · exact .inl ⟨v, hfits, execEvaluate_of_ok htree hv⟩
  · have hpos := evaluate_raised_index herr
    exact .inr ⟨e, pos, he, by omega, execEvaluate_of_raised htree herr⟩

/-- Settles O38: the tree's answer is a value or an error with an index inside it, and EVALUATE completes with it. -/
theorem evaluateOfAValidTreeCompletes : Obligations.EvaluateOfAValidTreeCompletes := by
  unfold Obligations.EvaluateOfAValidTreeCompletes
  intro s p _ htree hvalid
  rcases execEvaluate_of_valid htree hvalid with hok | ⟨e, pos, rfl | ⟨rfl, hstage⟩, hpos, hexec⟩
  · exact .inl hok
  · exact .inr (.inl ⟨pos, hpos, hexec⟩)
  · exact .inr (.inr ⟨pos, hpos, hstage, hexec⟩)

end Sys2Proof.Machine
end

section
/-! The engine's turn (41_packet_decode.md section 2, 43_host_commands.md R204): what each micro-step does where the
stream holds its fields, and all that an engine step can do, said once as a relation. -/

namespace Sys2Proof.Machine

/-! ## Moving the decoder -/

/-- The state with CURSOR and FRAMES as given: what a micro-step that does not end the DECODE writes. -/
def moveTo (c : Nat) (fs : List Frame) (s : State) : State :=
  { s with cursor := c, frames := fs }

section MoveTo

variable (c : Nat) (fs : List Frame) (s : State)

@[simp] theorem moveTo_par : (moveTo c fs s).par = s.par := rfl
@[simp] theorem moveTo_status : (moveTo c fs s).status = s.status := rfl
@[simp] theorem moveTo_err : (moveTo c fs s).err = s.err := rfl
@[simp] theorem moveTo_errPos : (moveTo c fs s).errPos = s.errPos := rfl
@[simp] theorem moveTo_result : (moveTo c fs s).result = s.result := rfl
@[simp] theorem moveTo_inLen : (moveTo c fs s).inLen = s.inLen := rfl
@[simp] theorem moveTo_inBuf : (moveTo c fs s).inBuf = s.inBuf := rfl
@[simp] theorem moveTo_snap : (moveTo c fs s).snap = s.snap := rfl
@[simp] theorem moveTo_bits : (moveTo c fs s).bits = s.bits := rfl
@[simp] theorem moveTo_cursor : (moveTo c fs s).cursor = c := rfl
@[simp] theorem moveTo_tree : (moveTo c fs s).tree = s.tree := rfl
@[simp] theorem moveTo_pending : (moveTo c fs s).pending = s.pending := rfl
@[simp] theorem moveTo_frames : (moveTo c fs s).frames = fs := rfl
@[simp] theorem moveTo_host : (moveTo c fs s).host = s.host := rfl
@[simp] theorem moveTo_rdata : (moveTo c fs s).rdata = s.rdata := rfl
@[simp] theorem moveTo_draws : (moveTo c fs s).draws = s.draws := rfl

end MoveTo

theorem moveTo_self {s : State} {fs : List Frame} (h : s.frames = fs) : moveTo s.cursor fs s = s := by
  subst h
  rfl

/-! ## Reads and the unread stream -/

theorem readAt_eq_none {bits : Bits} {c n : Nat} : readAt bits c n = none ↔ bits.length < c + n := by
  simp [readAt]

theorem readAt_eq_some {bits : Bits} {c n v : Nat} :
    readAt bits c n = some v ↔ c + n ≤ bits.length ∧ natOfBits ((bits.drop c).take n) = v := by
  by_cases h : bits.length < c + n
  · simp [readAt, h]
  · simp [readAt, h, Nat.le_of_not_lt h]

/-- A read gives the field that stands at CURSOR. -/
theorem readAt_of_drop {bits rest : Bits} {c n v : Nat} (hn : 0 < n) (hv : v < 2 ^ n)
    (h : bits.drop c = bitsOfNat n v ++ rest) : readAt bits c n = some v := by
  have hlen : bits.length - c = n + rest.length := by
    simpa using congrArg List.length h
  refine readAt_eq_some.2 ⟨by omega, ?_⟩
  have htake : (bitsOfNat n v ++ rest).take n = bitsOfNat n v := by
    simp
  rw [h, htake, natOfBits_bitsOfNat, Nat.mod_eq_of_lt hv]

/-- What follows a field that stands at CURSOR. -/
theorem drop_of_drop {bits front rest : Bits} {c : Nat} (h : bits.drop c = front ++ rest) :
    bits.drop (c + front.length) = rest := by
  rw [← List.drop_drop, h, List.drop_left]

/-- A read of one bit gives the bit that stands at CURSOR. -/
theorem readAt_of_cons {bits rest : Bits} {c : Nat} {b : Bool} (h : bits.drop c = b :: rest) :
    readAt bits c 1 = some b.toNat := by
  refine readAt_of_drop (by decide) (Bool.toNat_lt b) (rest := rest) (h.trans ?_)
  cases b <;> rfl

theorem drop_of_cons {bits rest : Bits} {c : Nat} {b : Bool} (h : bits.drop c = b :: rest) :
    bits.drop (c + 1) = rest :=
  drop_of_drop (front := [b]) h

/-- The decoder's field of the unread stream is the bit reader's (40_conversion_and_reader.md R105). -/
theorem takeField_drop {n : Nat} (hn : 0 < n) (bits : Bits) (c : Nat) :
    takeField n (bits.drop c) = (readAt bits c n).map fun v => (v, bits.drop (c + n)) := by
  unfold takeField readAt
  have hlen : (bits.drop c).length < n ↔ bits.length < c + n := by
    rw [List.length_drop]
    omega
  by_cases h : bits.length < c + n
  · rw [if_pos (hlen.2 h), if_pos h]
    rfl
  · rw [if_neg (fun h' => h (hlen.1 h')), if_neg h]
    simp [List.drop_drop]

theorem readBits_of_readAt {n v : Nat} {s : State} (h : readAt s.bits s.cursor n = some v) :
    readBits n s = some (v, { s with cursor := s.cursor + n }) := by
  simp [readBits, h]

theorem readBits_of_cut {n : Nat} {s : State} (h : readAt s.bits s.cursor n = none) :
    readBits n s = none := by
  simp [readBits, h]

/-! ## The header -/

/-- The frame that a header's V and T select (41_packet_decode.md R143). -/
def headerFrame (v : Version) (t : TypeId) : Frame :=
  match Opcode.ofTypeId t with
  | none => .literalGroupLoop v 0
  | some op => .operatorLengthModeSelect v op

theorem headerFrame_of_none {v : Version} {t : TypeId} (h : Opcode.ofTypeId t = none) :
    headerFrame v t = .literalGroupLoop v 0 := by
  simp [headerFrame, h]

theorem headerFrame_of_some {v : Version} {t : TypeId} {op : Opcode} (h : Opcode.ofTypeId t = some op) :
    headerFrame v t = .operatorLengthModeSelect v op := by
  simp [headerFrame, h]

section Header

variable {s : State} {v t : Nat}

theorem headerStep_of_reads (fs : List Frame) (hv : readAt s.bits s.cursor 3 = some v)
    (ht : readAt s.bits (s.cursor + 3) 3 = some t) :
    headerStep fs s =
      moveTo (s.cursor + 6) (headerFrame (BitVec.ofNat 3 v) (BitVec.ofNat 3 t) :: fs) s := by
  have ht' := readBits_of_readAt (s := { s with cursor := s.cursor + 3 }) ht
  simp only [headerStep, readBits_of_readAt hv, ht', headerFrame]
  cases Opcode.ofTypeId (BitVec.ofNat 3 t) <;> rfl

theorem headerStep_of_cut_version (fs : List Frame) (hv : readAt s.bits s.cursor 3 = none) :
    headerStep fs s = raise .truncatedStream s.cursor s := by
  simp only [headerStep, readBits_of_cut hv, raiseTruncated]

theorem headerStep_of_cut_type (fs : List Frame) (hv : readAt s.bits s.cursor 3 = some v)
    (ht : readAt s.bits (s.cursor + 3) 3 = none) :
    headerStep fs s = raise .truncatedStream (s.cursor + 3) { s with cursor := s.cursor + 3 } := by
  have ht' := readBits_of_cut (s := { s with cursor := s.cursor + 3 }) ht
  simp only [headerStep, readBits_of_readAt hv, ht', raiseTruncated]

end Header

/-! ## A group -/

section Group

variable {s : State} {c g : Nat} (ver : Version) (acc : Nat) (fs : List Frame)

theorem literalGroup_of_last (hc : readAt s.bits s.cursor 1 = some 0)
    (hg : readAt s.bits (s.cursor + 1) 4 = some g) (hfits : fits s.par (16 * acc + g) = true) :
    literalGroup ver acc fs s = moveTo (s.cursor + 5) (.done (.lit ver (16 * acc + g)) :: fs) s := by
  have hg' := readBits_of_readAt (s := { s with cursor := s.cursor + 1 }) hg
  simp only [literalGroup, readBits_of_readAt hc, hg', if_pos hfits, if_pos]
  rfl

theorem literalGroup_of_more (hc : readAt s.bits s.cursor 1 = some c) (hc0 : c ≠ 0)
    (hg : readAt s.bits (s.cursor + 1) 4 = some g) (hfits : fits s.par (16 * acc + g) = true) :
    literalGroup ver acc fs s =
      moveTo (s.cursor + 5) (.literalGroupLoop ver (16 * acc + g) :: fs) s := by
  have hg' := readBits_of_readAt (s := { s with cursor := s.cursor + 1 }) hg
  simp only [literalGroup, readBits_of_readAt hc, hg', if_pos hfits, if_neg hc0]
  rfl

theorem literalGroup_of_not_fits (hc : readAt s.bits s.cursor 1 = some c)
    (hg : readAt s.bits (s.cursor + 1) 4 = some g) (hfits : fits s.par (16 * acc + g) = false) :
    literalGroup ver acc fs s =
      raise .overflow (s.cursor + 5) { s with cursor := s.cursor + 5 } := by
  have hg' := readBits_of_readAt (s := { s with cursor := s.cursor + 1 }) hg
  simp only [literalGroup, readBits_of_readAt hc, hg', hfits]
  rfl

theorem literalGroup_of_cut_flag (hc : readAt s.bits s.cursor 1 = none) :
    literalGroup ver acc fs s = raise .truncatedStream s.cursor s := by
  simp only [literalGroup, readBits_of_cut hc, raiseTruncated]

theorem literalGroup_of_cut_nibble (hc : readAt s.bits s.cursor 1 = some c)
    (hg : readAt s.bits (s.cursor + 1) 4 = none) :
    literalGroup ver acc fs s =
      raise .truncatedStream (s.cursor + 1) { s with cursor := s.cursor + 1 } := by
  have hg' := readBits_of_cut (s := { s with cursor := s.cursor + 1 }) hg
  simp only [literalGroup, readBits_of_readAt hc, hg', raiseTruncated]

end Group

/-! ## The engine's step by its turn -/

section Engine

variable {s t : State} {f : Frame} {fs : List Frame}

theorem engineTurn_of_frames (hpending : s.pending = some .decode) (hframes : s.frames = f :: fs) :
    engineTurn s = frameTurn f fs s := by
  simp [engineTurn, hpending, hframes]

theorem engineStep_of_frame_run {i : Instr} (hpending : s.pending = some .decode)
    (hframes : s.frames = f :: fs) (hturn : frameTurn f fs s = .run i) : engineStep s = exec i s := by
  simp [engineStep, engineTurn_of_frames hpending hframes, hturn]

theorem engineStep_of_frame_internal {r : Result} (hpending : s.pending = some .decode)
    (hframes : s.frames = f :: fs) (hturn : frameTurn f fs s = .internal r) : engineStep s = r := by
  simp [engineStep, engineTurn_of_frames hpending hframes, hturn]

theorem engineStep_of_none (hpending : s.pending = none) : engineStep s = .next s := by
  simp [engineStep, engineTurn, hpending]

theorem engineStep_of_command {c : Command} (hpending : s.pending = some c) (hframes : s.frames = []) :
    engineStep s = exec c.toInstr s := by
  cases c <;> simp [engineStep, engineTurn, hpending, hframes, Command.toInstr]

theorem step_of_host_nil (hhost : s.host = []) : step s = engineStep s := by
  simp [step, hhost]

theorem step_of_idle {rest : List HostAction} (hhost : s.host = .idle :: rest) :
    step s = engineStep { s with host := rest } := by
  simp [step, hhost]

theorem step_of_decoding (h : s.decoding f fs) : step s = engineStep s := by
  obtain ⟨hhost, -, -⟩ := h
  exact step_of_host_nil hhost

theorem engineStep_readHeader (hpending : s.pending = some .decode) (hframes : s.frames = .readHeader :: fs) :
    engineStep s = .next (headerStep fs s) :=
  engineStep_of_frame_internal hpending hframes rfl

theorem engineStep_literalGroupLoop {v : Version} {acc : Nat} (hpending : s.pending = some .decode)
    (hframes : s.frames = .literalGroupLoop v acc :: fs) :
    engineStep s = .next (literalGroup v acc fs s) := by
  rw [engineStep_of_frame_run hpending hframes rfl]
  exact execLit_next.2 ⟨v, acc, fs, hframes, rfl⟩

theorem engineStep_fixedLoop {v : Version} {op : Opcode} {target : Nat} {cs : Packets}
    (hpending : s.pending = some .decode)
    (hframes : s.frames = .fixedBitLengthChildrenLoop v op target cs :: fs) :
    engineStep s = .next (lengthLoop v op target cs fs s) :=
  engineStep_of_frame_internal hpending hframes rfl

theorem engineStep_countedLoop {v : Version} {op : Opcode} {n : Nat} {cs : Packets}
    (hpending : s.pending = some .decode) (hframes : s.frames = .countedChildrenLoop v op n cs :: fs) :
    engineStep s = .next (countLoop v op n cs fs s) :=
  engineStep_of_frame_internal hpending hframes rfl

theorem engineStep_done {p : Packet} (hpending : s.pending = some .decode) (hframes : s.frames = .done p :: fs) :
    engineStep s = leaveFrame p fs s :=
  engineStep_of_frame_internal hpending hframes rfl

end Engine

/-! ## The length type -/

section LengthMode

variable {s : State} {v : Version} {op : Opcode} {fs : List Frame} {i x : Nat}

theorem engineStep_lengthMode_of_len (hpending : s.pending = some .decode)
    (hframes : s.frames = .operatorLengthModeSelect v op :: fs) (hi : readAt s.bits s.cursor 1 = some 0)
    (hl : readAt s.bits (s.cursor + 1) 15 = some x) :
    engineStep s = .next
      (moveTo (s.cursor + 16) (.fixedBitLengthChildrenLoop v op (s.cursor + 16 + x) .nil :: fs) s) := by
  have hlt : x < 2 ^ 15 := by
    obtain ⟨-, rfl⟩ := readAt_eq_some.1 hl
    exact lt_of_lt_of_le (natOfBits_lt _) (Nat.pow_le_pow_right (by decide) (List.length_take_le _ _))
  have hform : decodeForm v op.code (s.bits.drop s.cursor) = .ok (op.lenForm v (BitVec.ofNat 15 x)) := by
    simp [decodeForm, takeField_drop, hi, hl]
  rw [engineStep_of_frame_run hpending hframes (frameTurn_lengthMode fs hform), exec_lenForm]
  refine openByLength_next.2 ⟨v, op, fs, hframes, ?_⟩
  rw [toNat_ofNat_of_lt hlt]
  rfl

theorem engineStep_lengthMode_of_count (hpending : s.pending = some .decode)
    (hframes : s.frames = .operatorLengthModeSelect v op :: fs) (hi : readAt s.bits s.cursor 1 = some i)
    (hi0 : i ≠ 0) (hn : readAt s.bits (s.cursor + 1) 11 = some x) :
    engineStep s = .next (moveTo (s.cursor + 12) (.countedChildrenLoop v op x .nil :: fs) s) := by
  have hlt : x < 2 ^ 11 := by
    obtain ⟨-, rfl⟩ := readAt_eq_some.1 hn
    exact lt_of_lt_of_le (natOfBits_lt _) (Nat.pow_le_pow_right (by decide) (List.length_take_le _ _))
  have hform : decodeForm v op.code (s.bits.drop s.cursor) = .ok (op.cntForm v (BitVec.ofNat 11 x)) := by
    simp [decodeForm, takeField_drop, hi, hi0, hn]
  rw [engineStep_of_frame_run hpending hframes (frameTurn_lengthMode fs hform), exec_cntForm]
  refine openByCount_next.2 ⟨v, op, fs, hframes, ?_⟩
  rw [toNat_ofNat_of_lt hlt]
  rfl

/-- A truncated length field ends the DECODE where the decoder's offset, counted from the header, says. -/
theorem engineStep_lengthMode_of_truncated {off : Nat} (hpending : s.pending = some .decode)
    (hframes : s.frames = .operatorLengthModeSelect v op :: fs)
    (hform : decodeForm v op.code (s.bits.drop s.cursor) = .error (.truncated off)) :
    engineStep s = .next
      (raise .truncatedStream (s.cursor + off - 6) { s with cursor := s.cursor + off - 6 }) := by
  refine engineStep_of_frame_internal hpending hframes ?_
  simp only [frameTurn, hform]
  rfl

theorem engineStep_lengthMode_of_cut_flag (hpending : s.pending = some .decode)
    (hframes : s.frames = .operatorLengthModeSelect v op :: fs) (hi : readAt s.bits s.cursor 1 = none) :
    engineStep s = .next (raise .truncatedStream s.cursor s) := by
  have hform : decodeForm v op.code (s.bits.drop s.cursor) = .error (.truncated 6) := by
    simp [decodeForm, takeField_drop, hi]
  exact engineStep_lengthMode_of_truncated hpending hframes hform

theorem engineStep_lengthMode_of_cut_len (hpending : s.pending = some .decode)
    (hframes : s.frames = .operatorLengthModeSelect v op :: fs) (hi : readAt s.bits s.cursor 1 = some 0)
    (hl : readAt s.bits (s.cursor + 1) 15 = none) :
    engineStep s = .next
      (raise .truncatedStream (s.cursor + 1) { s with cursor := s.cursor + 1 }) := by
  have hform : decodeForm v op.code (s.bits.drop s.cursor) = .error (.truncated 7) := by
    simp [decodeForm, takeField_drop, hi, hl]
  exact engineStep_lengthMode_of_truncated hpending hframes hform

theorem engineStep_lengthMode_of_cut_count (hpending : s.pending = some .decode)
    (hframes : s.frames = .operatorLengthModeSelect v op :: fs) (hi : readAt s.bits s.cursor 1 = some i)
    (hi0 : i ≠ 0) (hn : readAt s.bits (s.cursor + 1) 11 = none) :
    engineStep s = .next
      (raise .truncatedStream (s.cursor + 1) { s with cursor := s.cursor + 1 }) := by
  have hform : decodeForm v op.code (s.bits.drop s.cursor) = .error (.truncated 7) := by
    simp [decodeForm, takeField_drop, hi, hi0, hn]
  exact engineStep_lengthMode_of_truncated hpending hframes hform

end LengthMode

/-! ## All that a micro-step can do -/

/-- The errors that a micro-step can end a DECODE with (60_exceptions.md R222). -/
def decodeErrors (par : Params) (e : ErrorClass) : Prop :=
  e ∈ [ErrorClass.truncatedStream, .overflow, .structural .len0Overshoot, .structural .zeroChildren,
    .structural .depthLimit] ∨
  (e = .structural .cmpArity ∧ par.arityStage = .decode)

/-- A micro-step that goes on: from the top frame `f` over `fs` it reads so many bits and leaves a stack. One
constructor for each way of 41_packet_decode.md R143 to R150. -/
inductive Advances (s : State) : Frame → List Frame → Nat → List Frame → Prop where
  | literalHeader (fs : List Frame) (v : Version) (hbits : s.cursor + 6 ≤ s.bitlen) :
      Advances s .readHeader fs 6 (.literalGroupLoop v 0 :: fs)
  | operatorHeader (fs : List Frame) (v : Version) (op : Opcode) (hbits : s.cursor + 6 ≤ s.bitlen) :
      Advances s .readHeader fs 6 (.operatorLengthModeSelect v op :: fs)
  | group (fs : List Frame) (v : Version) (acc g : Nat) (hbits : s.cursor + 5 ≤ s.bitlen)
      (hfits : fits s.par (16 * acc + g) = true) :
      Advances s (.literalGroupLoop v acc) fs 5 (.literalGroupLoop v (16 * acc + g) :: fs)
  | lastGroup (fs : List Frame) (v : Version) (acc g : Nat) (hbits : s.cursor + 5 ≤ s.bitlen)
      (hfits : fits s.par (16 * acc + g) = true) :
      Advances s (.literalGroupLoop v acc) fs 5 (.done (.lit v (16 * acc + g)) :: fs)
  | openLength (fs : List Frame) (v : Version) (op : Opcode) (l : LenField)
      (hbits : s.cursor + 16 ≤ s.bitlen) :
      Advances s (.operatorLengthModeSelect v op) fs 16
        (.fixedBitLengthChildrenLoop v op (s.cursor + 16 + l.toNat) .nil :: fs)
  | openCount (fs : List Frame) (v : Version) (op : Opcode) (n : CountField)
      (hbits : s.cursor + 12 ≤ s.bitlen) :
      Advances s (.operatorLengthModeSelect v op) fs 12 (.countedChildrenLoop v op n.toNat .nil :: fs)
  | push (fs : List Frame) (f : Frame) (hawaits : f.awaits = true)
      (hdepth : depthAllowed s.par (fs.length + 2) = true) :
      Advances s f fs 0 (.readHeader :: f :: fs)
  | completeLength (fs : List Frame) (v : Version) (op : Opcode) (target : Nat) (cs : Packets)
      (hne : cs ≠ .nil)
      (harity : s.par.arityStage = .decode → op.isComparison = true → cs.length = 2) :
      Advances s (.fixedBitLengthChildrenLoop v op target cs) fs 0 (.done (.op v op.code cs) :: fs)
  | completeCount (fs : List Frame) (v : Version) (op : Opcode) (n : Nat) (cs : Packets)
      (hne : cs ≠ .nil)
      (harity : s.par.arityStage = .decode → op.isComparison = true → cs.length = 2) :
      Advances s (.countedChildrenLoop v op n cs) fs 0 (.done (.op v op.code cs) :: fs)
  | handToLength (gs : List Frame) (p : Packet) (v : Version) (op : Opcode) (target : Nat) (cs : Packets)
      (htarget : s.cursor ≤ target) :
      Advances s (.done p) (.fixedBitLengthChildrenLoop v op target cs :: gs) 0
        (.fixedBitLengthChildrenLoop v op target (cs.snoc p) :: gs)
  | handToCount (gs : List Frame) (p : Packet) (v : Version) (op : Opcode) (n : Nat) (cs : Packets) :
      Advances s (.done p) (.countedChildrenLoop v op n cs :: gs) 0
        (.countedChildrenLoop v op (n - 1) (cs.snoc p) :: gs)

/-- What a micro-step on the top frame `f` over `fs` can do: go on, complete the DECODE, or end it with an error at
the CURSOR it leaves behind. -/
inductive MicroStep (s : State) : Frame → List Frame → State → Prop where
  | advances {f : Frame} {fs fs' : List Frame} {n : Nat} (h : Advances s f fs n fs') :
      MicroStep s f fs (moveTo (s.cursor + n) fs' s)
  | completes (p : Packet) : MicroStep s (.done p) [] (completeDecode p s)
  | raises {f : Frame} {fs : List Frame} {e : ErrorClass} {c : Nat} (herr : decodeErrors s.par e)
      (hge : s.cursor ≤ c) (hle : c ≤ max s.cursor s.bitlen) :
      MicroStep s f fs (raise e c { s with cursor := c })

section Inversion

variable {s t : State} {f : Frame} {fs : List Frame}

/-- An error at the CURSOR of the state is a micro-step. -/
theorem MicroStep.raises_here {e : ErrorClass} (herr : decodeErrors s.par e) :
    MicroStep s f fs (raise e s.cursor s) :=
  .raises herr le_rfl (le_max_left _ _)

theorem decodeErrors_truncated (par : Params) : decodeErrors par .truncatedStream := .inl (by decide)

theorem microStep_headerStep : MicroStep s .readHeader fs (headerStep fs s) := by
  rcases headerStep_cases fs s with ⟨v, hbits, heq | ⟨op, heq⟩⟩ | ⟨-, heq⟩ | ⟨hthree, -, heq⟩
  · rw [heq]
    exact .advances (.literalHeader fs v hbits)
  · rw [heq]
    exact .advances (.operatorHeader fs v op hbits)
  · rw [heq]
    exact .raises_here (decodeErrors_truncated _)
  · rw [heq]
    exact .raises (decodeErrors_truncated _) (by omega) (le_max_of_le_right hthree)

theorem microStep_literalGroup (v : Version) (acc : Nat) :
    MicroStep s (.literalGroupLoop v acc) fs (literalGroup v acc fs s) := by
  rcases literalGroup_cases v acc fs s with ⟨g, hbits, -, hfits, heq | heq⟩ | ⟨hbits, heq⟩ | ⟨-, heq⟩ |
    ⟨hone, -, heq⟩
  · rw [heq]
    exact .advances (.lastGroup fs v acc g hbits hfits)
  · rw [heq]
    exact .advances (.group fs v acc g hbits hfits)
  · rw [heq]
    exact .raises (.inl (by decide)) (by omega) (le_max_of_le_right hbits)
  · rw [heq]
    exact .raises_here (decodeErrors_truncated _)
  · rw [heq]
    exact .raises (decodeErrors_truncated _) (by omega) (le_max_of_le_right hone)

theorem microStep_lengthMode {v : Version} {op : Opcode} (hpending : s.pending = some .decode)
    (hframes : s.frames = .operatorLengthModeSelect v op :: fs) :
    ∃ t, engineStep s = .next t ∧ MicroStep s (.operatorLengthModeSelect v op) fs t := by
  cases hi : readAt s.bits s.cursor 1 with
  | none =>
    exact ⟨_, engineStep_lengthMode_of_cut_flag hpending hframes hi,
      .raises_here (decodeErrors_truncated _)⟩
  | some i =>
    have hone : s.cursor + 1 ≤ s.bitlen := (readAt_eq_some.1 hi).1
    have hcut : MicroStep s (.operatorLengthModeSelect v op) fs
        (raise .truncatedStream (s.cursor + 1) { s with cursor := s.cursor + 1 }) :=
      .raises (decodeErrors_truncated _) (by omega) (le_max_of_le_right hone)
    by_cases hi0 : i = 0
    · subst hi0
      cases hl : readAt s.bits (s.cursor + 1) 15 with
      | none => exact ⟨_, engineStep_lengthMode_of_cut_len hpending hframes hi hl, hcut⟩
      | some l =>
        obtain ⟨hbits, rfl⟩ := readAt_eq_some.1 hl
        have hlt := natOfBits_lt ((s.bits.drop (s.cursor + 1)).take 15)
        have hlen := List.length_take_le 15 (s.bits.drop (s.cursor + 1))
        have hopen := Advances.openLength (s := s) fs v op
          (BitVec.ofNat 15 (natOfBits ((s.bits.drop (s.cursor + 1)).take 15))) hbits
        rw [toNat_ofNat_of_lt (lt_of_lt_of_le hlt (Nat.pow_le_pow_right (by decide) hlen))] at hopen
        exact ⟨_, engineStep_lengthMode_of_len hpending hframes hi hl, .advances hopen⟩
    · cases hn : readAt s.bits (s.cursor + 1) 11 with
      | none => exact ⟨_, engineStep_lengthMode_of_cut_count hpending hframes hi hi0 hn, hcut⟩
      | some n =>
        obtain ⟨hbits, rfl⟩ := readAt_eq_some.1 hn
        have hlt := natOfBits_lt ((s.bits.drop (s.cursor + 1)).take 11)
        have hlen := List.length_take_le 11 (s.bits.drop (s.cursor + 1))
        have hopen := Advances.openCount (s := s) fs v op
          (BitVec.ofNat 11 (natOfBits ((s.bits.drop (s.cursor + 1)).take 11))) hbits
        rw [toNat_ofNat_of_lt (lt_of_lt_of_le hlt (Nat.pow_le_pow_right (by decide) hlen))] at hopen
        exact ⟨_, engineStep_lengthMode_of_count hpending hframes hi hi0 hn, .advances hopen⟩

theorem microStep_pushChild (hframes : s.frames = f :: fs) (hawaits : f.awaits = true) :
    MicroStep s f fs (pushChild s) := by
  rcases pushChild_cases s with ⟨hdepth, heq⟩ | ⟨-, heq⟩
  · rw [heq, hframes]
    rw [hframes] at hdepth
    exact .advances (.push fs f hawaits hdepth)
  · rw [heq]
    exact .raises_here (.inl (by decide))

/-- Completing a loop's frame, given the step that leaves it done. -/
theorem microStep_completeFrame {v : Version} {op : Opcode} {cs : Packets}
    (hdone : cs ≠ .nil → (s.par.arityStage = .decode → op.isComparison = true → cs.length = 2) →
      Advances s f fs 0 (.done (.op v op.code cs) :: fs)) :
    MicroStep s f fs (completeFrame v op cs fs s) := by
  rcases completeFrame_cases v op cs fs s with ⟨-, heq⟩ | ⟨-, hstage, -, -, heq⟩ | ⟨hne, harity, heq⟩
  · rw [heq]
    exact .raises_here (.inl (by decide))
  · rw [heq]
    exact .raises_here (.inr ⟨rfl, hstage⟩)
  · rw [heq]
    exact .advances (hdone hne harity)

theorem microStep_leaveFrame {p : Packet} (h : leaveFrame p fs s = .next t) :
    MicroStep s (.done p) fs t := by
  rcases leaveFrame_next h with ⟨rfl, rfl⟩ | ⟨v, op, target, cs, gs, rfl, ⟨-, rfl⟩ | ⟨hle, rfl⟩⟩ |
    ⟨v, op, n, cs, gs, rfl, rfl⟩
  · exact .completes p
  · exact .raises_here (.inl (by decide))
  · exact .advances (.handToLength gs p v op target cs hle)
  · exact .advances (.handToCount gs p v op n cs)

/-- Every step of a running DECODE is a micro-step of its top frame. -/
theorem microStep_of_engineStep (hpending : s.pending = some .decode) (hframes : s.frames = f :: fs)
    (h : engineStep s = .next t) : MicroStep s f fs t := by
  cases f with
  | readHeader =>
    obtain rfl := Host.Outcome.next.inj ((engineStep_readHeader hpending hframes).symm.trans h)
    exact microStep_headerStep
  | literalGroupLoop v acc =>
    obtain rfl := Host.Outcome.next.inj ((engineStep_literalGroupLoop hpending hframes).symm.trans h)
    exact microStep_literalGroup v acc
  | operatorLengthModeSelect v op =>
    obtain ⟨t', ht', hmicro⟩ := microStep_lengthMode hpending hframes
    obtain rfl := Host.Outcome.next.inj (ht'.symm.trans h)
    exact hmicro
  | fixedBitLengthChildrenLoop v op target cs =>
    obtain rfl := Host.Outcome.next.inj ((engineStep_fixedLoop hpending hframes).symm.trans h)
    unfold lengthLoop
    split
    · exact microStep_pushChild hframes rfl
    · exact microStep_completeFrame (.completeLength fs v op target cs)
  | countedChildrenLoop v op n cs =>
    obtain rfl := Host.Outcome.next.inj ((engineStep_countedLoop hpending hframes).symm.trans h)
    unfold countLoop
    split
    · exact microStep_pushChild hframes (by simpa [Frame.awaits])
    · exact microStep_completeFrame (.completeCount fs v op n cs)
  | done p => exact microStep_leaveFrame ((engineStep_done hpending hframes).symm.trans h)

/-- All that an engine step can do. -/
theorem engineStep_next_cases (h : engineStep s = .next t) :
    (s.pending = none ∧ t = s) ∨
    (∃ f fs, s.pending = some .decode ∧ s.frames = f :: fs ∧ MicroStep s f fs t) ∨
    (s.pending = some .decode ∧ s.frames = [] ∧ t = startDecode s) ∨
    (s.pending = some .sumVersions ∧ execSumVersions s = .next t) ∨
    (s.pending = some .evaluate ∧ execEvaluate s = .next t) := by
  rcases engineTurn_cases s with ⟨hpending, hturn⟩ | ⟨f, fs, hpending, hframes, -⟩ |
    ⟨c, hpending, hframes, hturn⟩
  · rw [engineStep, hturn] at h
    exact .inl ⟨hpending, (Host.Outcome.next.inj h).symm⟩
  · exact .inr (.inl ⟨f, fs, hpending, hframes, microStep_of_engineStep hpending hframes h⟩)
  · rw [engineStep, hturn] at h
    cases c with
    | decode => exact .inr (.inr (.inl ⟨hpending, hframes rfl, (Host.Outcome.next.inj h).symm⟩))
    | sumVersions => exact .inr (.inr (.inr (.inl ⟨hpending, h⟩)))
    | evaluate => exact .inr (.inr (.inr (.inr ⟨hpending, h⟩)))

end Inversion

end Sys2Proof.Machine
end

section
/-! The single steps of a DECODE (41_packet_decode.md R143 to R150) and of the queries (43_host_commands.md R196 to
R199), and what each step leaves as it was. -/

namespace Sys2Proof.Machine

/-! ## The step -/

/-- Settles O5: the step's and the turn's cases, with the form read after the header. -/
theorem stepRunsTheFetchedInstruction : Obligations.StepRunsTheFetchedInstruction := by
  unfold Obligations.StepRunsTheFetchedInstruction
  refine ⟨fun s h => step_of_host_nil h, fun s rest h => step_of_idle h, ?_, ?_, ?_⟩
  · intro s v acc fs hpending hframes
    exact engineStep_of_frame_run hpending hframes rfl
  · intro s v op fs i hpending hframes hdecode
    rw [decode, decodePacket_header] at hdecode
    exact engineStep_of_frame_run hpending hframes (frameTurn_lengthMode fs hdecode)
  · intro s c hpending hframes
    exact engineStep_of_command hpending hframes

/-- Settles O6: with no command pending the engine's turn is the state as it is. -/
theorem engineRestsWhenNothingIsPending : Obligations.EngineRestsWhenNothingIsPending := by
  unfold Obligations.EngineRestsWhenNothingIsPending
  intro s hhost hpending
  exact (step_of_host_nil hhost).trans (engineStep_of_none hpending)

/-! ## Reads by what stands ahead -/

section Ahead

variable {s : State}

/-- A read fails exactly where the unread stream is shorter. -/
theorem readAt_eq_none_iff_ahead {n : Nat} (hn : 0 < n) :
    readAt s.bits s.cursor n = none ↔ s.ahead.length < n := by
  rw [readAt_eq_none, Block.ahead, List.length_drop]
  omega

theorem readAt_of_long_ahead {n : Nat} (hn : 0 < n) (h : n ≤ s.ahead.length) :
    ∃ v, readAt s.bits s.cursor n = some v := by
  refine Option.ne_none_iff_exists'.1 fun hnone => ?_
  have hshort := (readAt_eq_none_iff_ahead hn).1 hnone
  omega

/-- A read past the front of the unread stream fails where that is shorter than both together. -/
theorem readAt_none_of_ahead {k n : Nat} (h : s.ahead.length < k + n) :
    readAt s.bits (s.cursor + k) n = none := by
  rw [Block.ahead, List.length_drop] at h
  exact readAt_eq_none.2 (by omega)

end Ahead

/-! ## The header step -/

theorem step_header {s : State} {fs : List Frame} {v : Version} {t : TypeId} {rest : Bits}
    (h : s.decoding .readHeader fs) (hahead : s.ahead = headerBits v t ++ rest) :
    step s = .next (moveTo (s.cursor + 6) (headerFrame v t :: fs) s) := by
  rw [headerBits, List.append_assoc] at hahead
  have hv : readAt s.bits s.cursor 3 = some v.toNat := readAt_of_drop (by decide) v.isLt hahead
  have hrest := drop_of_drop hahead
  rw [bitsOfNat_length] at hrest
  have ht : readAt s.bits (s.cursor + 3) 3 = some t.toNat := readAt_of_drop (by decide) t.isLt hrest
  obtain ⟨-, hpending, hframes⟩ := id h
  rw [step_of_decoding h, engineStep_readHeader hpending hframes, headerStep_of_reads fs hv ht]
  simp

/-- Settles O7: type id 4 names no opcode, and every opcode's code names it. -/
theorem headerStepReadsVersionAndType : Obligations.HeaderStepReadsVersionAndType := by
  unfold Obligations.HeaderStepReadsVersionAndType
  constructor
  · intro s fs v rest h hahead
    exact step_header h hahead
  · intro s fs v op rest h hahead
    rw [step_header h hahead, headerFrame_of_some (Opcode.ofTypeId_code op)]
    rfl

/-- Settles O8: the read of V fails, or it succeeds and the read of T three bits on fails. -/
theorem truncatedHeaderRaises : Obligations.TruncatedHeaderRaises := by
  unfold Obligations.TruncatedHeaderRaises
  intro s fs h
  obtain ⟨-, hpending, hframes⟩ := id h
  rw [step_of_decoding h, engineStep_readHeader hpending hframes]
  constructor
  · intro hshort
    exact ⟨s.cursor, by
      rw [headerStep_of_cut_version fs ((readAt_eq_none_iff_ahead (by decide)).2 hshort)]⟩
  · intro hthree hsix
    obtain ⟨v, hv⟩ := readAt_of_long_ahead (by decide) hthree
    exact ⟨s.cursor + 3, by
      rw [headerStep_of_cut_type fs hv (readAt_none_of_ahead hsix)]⟩

/-! ## The groups of a Literal -/

theorem exec_lit_of_frames {s : State} {v v' : Version} {acc : Nat} {fs : List Frame}
    (hframes : s.frames = .literalGroupLoop v' acc :: fs) :
    exec (.lit v) s = .next (literalGroup v acc fs s) :=
  execLit_next.2 ⟨v', acc, fs, hframes, rfl⟩

/-- Settles O9: the two reads of the group, and the exact value against W. -/
theorem litReadsOneGroup : Obligations.LitReadsOneGroup := by
  unfold Obligations.LitReadsOneGroup
  intro s v v' acc fs c g rest hframes hahead
  have hc := readAt_of_cons hahead
  have hg : readAt s.bits (s.cursor + 1) 4 = some g.toNat :=
    readAt_of_drop (by decide) g.isLt (drop_of_cons hahead)
  rw [exec_lit_of_frames hframes]
  refine ⟨?_, ?_, ?_⟩
  · rintro hfits rfl
    rw [literalGroup_of_more v acc fs hc (by decide) hg hfits]
    rfl
  · rintro hfits rfl
    rw [literalGroup_of_last v acc fs hc hg hfits]
    rfl
  · intro hfits
    rw [literalGroup_of_not_fits v acc fs hc hg hfits]

/-- Settles O10: the read of C fails, or it succeeds and the read of the nibble one bit on fails. -/
theorem truncatedGroupRaises : Obligations.TruncatedGroupRaises := by
  unfold Obligations.TruncatedGroupRaises
  intro s v v' acc fs hframes
  rw [exec_lit_of_frames hframes]
  constructor
  · intro hnone
    refine ⟨s.cursor, ?_⟩
    rw [literalGroup_of_cut_flag v acc fs ((readAt_eq_none_iff_ahead (by decide)).2 (by omega))]
  · intro hone hfive
    obtain ⟨c, hc⟩ := readAt_of_long_ahead (by decide) hone
    refine ⟨s.cursor + 1, ?_⟩
    rw [literalGroup_of_cut_nibble v acc fs hc (readAt_none_of_ahead hfive)]

/-! ## The length type -/

/-- Settles O11: each form is `openByLength` of its own opcode. -/
theorem lenFormsOpenAFixedLengthLoop : Obligations.LenFormsOpenAFixedLengthLoop := by
  unfold Obligations.LenFormsOpenAFixedLengthLoop
  intro s v v' op' fs l hframes opened
  have hopens (op : Opcode) : exec (op.lenForm v l) s = .next (opened op) := by
    rw [exec_lenForm]
    exact openByLength_next.2 ⟨v', op', fs, hframes, rfl⟩
  exact ⟨hopens .sum, hopens .prod, hopens .min, hopens .max, hopens .gt, hopens .lt, hopens .eq⟩

/-- Settles O12: each form is `openByCount` of its own opcode. -/
theorem cntFormsOpenACountedLoop : Obligations.CntFormsOpenACountedLoop := by
  unfold Obligations.CntFormsOpenACountedLoop
  intro s v v' op' fs n hframes opened
  have hopens (op : Opcode) : exec (op.cntForm v n) s = .next (opened op) := by
    rw [exec_cntForm]
    exact openByCount_next.2 ⟨v', op', fs, hframes, rfl⟩
  exact ⟨hopens .sum, hopens .prod, hopens .min, hopens .max, hopens .gt, hopens .lt, hopens .eq⟩

/-- Settles O13: the unread stream decodes to the form, whose step opens the loop. -/
theorem lengthModeStepReadsItsField : Obligations.LengthModeStepReadsItsField := by
  unfold Obligations.LengthModeStepReadsItsField
  exact ⟨fun _ _ _ _ _ _ h hahead => step_opens_by_length h hahead,
    fun _ _ _ _ _ _ h hahead => step_opens_by_count h hahead⟩

/-- Settles O14: the read of I fails, or it succeeds and the read of L or N one bit on fails. -/
theorem truncatedLengthFieldRaises : Obligations.TruncatedLengthFieldRaises := by
  unfold Obligations.TruncatedLengthFieldRaises
  intro s v op fs h
  obtain ⟨-, hpending, hframes⟩ := id h
  rw [step_of_decoding h]
  refine ⟨?_, ?_, ?_⟩
  · intro hnil
    refine ⟨s.cursor, engineStep_lengthMode_of_cut_flag hpending hframes ?_⟩
    exact (readAt_eq_none_iff_ahead (by decide)).2 (by simp [hnil])
  · intro bs hahead hshort
    refine ⟨s.cursor + 1, engineStep_lengthMode_of_cut_len hpending hframes (readAt_of_cons hahead) ?_⟩
    refine readAt_none_of_ahead ?_
    rw [hahead, List.length_cons]
    omega
  · intro bs hahead hshort
    refine ⟨s.cursor + 1,
      engineStep_lengthMode_of_cut_count hpending hframes (readAt_of_cons hahead) (by decide) ?_⟩
    refine readAt_none_of_ahead ?_
    rw [hahead, List.length_cons]
    omega

/-! ## The children loops, completion and Done -/

theorem pushChild_of_allowed {s : State} (h : depthAllowed s.par (s.frames.length + 1) = true) :
    pushChild s = { s with frames := .readHeader :: s.frames } :=
  if_pos h

theorem pushChild_of_not_allowed {s : State} (h : depthAllowed s.par (s.frames.length + 1) = false) :
    pushChild s = raise (.structural .depthLimit) s.cursor s :=
  if_neg (by simp [h])

/-- Settles O15: the loop's test, and under it the depth check of the push. -/
theorem childrenLoopsPushOrComplete : Obligations.ChildrenLoopsPushOrComplete := by
  unfold Obligations.ChildrenLoopsPushOrComplete
  constructor
  · intro s v op target cs fs h
    obtain ⟨-, hpending, hframes⟩ := id h
    rw [step_of_decoding h, engineStep_fixedLoop hpending hframes]
    refine ⟨fun hlt hdepth => ?_, fun hlt hdepth => ?_, fun heq => ?_⟩
    · rw [lengthLoop, if_pos hlt, pushChild_of_allowed hdepth]
    · rw [lengthLoop, if_pos hlt, pushChild_of_not_allowed hdepth]
    · rw [lengthLoop, if_neg (by omega)]
  · intro s v op n cs fs h
    obtain ⟨-, hpending, hframes⟩ := id h
    rw [step_of_decoding h, engineStep_countedLoop hpending hframes]
    refine ⟨fun hlt hdepth => ?_, fun hlt hdepth => ?_, fun heq => ?_⟩
    · rw [countLoop, if_pos hlt, pushChild_of_allowed hdepth]
    · rw [countLoop, if_pos hlt, pushChild_of_not_allowed hdepth]
    · rw [countLoop, if_neg (by omega)]

/-- A frame with children of a right number is done. -/
theorem completeFrame_of_arity {v : Version} {op : Opcode} {cs : Packets} {fs : List Frame} {s : State}
    (hne : cs ≠ .nil) (harity : s.par.arityStage = .decode → op.isComparison = true → cs.length = 2) :
    completeFrame v op cs fs s = moveTo s.cursor (.done (.op v op.code cs) :: fs) s := by
  rcases completeFrame_cases v op cs fs s with ⟨hnil, -⟩ | ⟨-, hstage, hcmp, hlen, -⟩ | ⟨-, -, heq⟩
  · exact absurd hnil hne
  · exact absurd (harity hstage hcmp) hlen
  · exact heq

/-- Settles O16: the cases of `completeFrame`, told apart by the list of the children. -/
theorem completionChecksChildren : Obligations.CompletionChecksChildren := by
  unfold Obligations.CompletionChecksChildren
  intro s v op cs fs
  rw [← Packets.length_eq_toList_length, Packets.toList_eq_nil_iff, ne_eq, Packets.toList_eq_nil_iff]
  refine ⟨?_, ?_, ?_⟩
  · rintro rfl
    exact completeFrame_nil v op fs s
  · intro hne hstage hcmp hlen
    rw [completeFrame, if_neg hne, if_pos ⟨hstage, hcmp, hlen⟩]
  · intro hne hright
    refine completeFrame_of_arity hne fun hstage hcmp => ?_
    rcases hright with h | h | h
    · simp [h] at hstage
    · simp [h] at hcmp
    · exact h

theorem Packets.toList_snoc : ∀ (cs : Packets) (p : Packet), (cs.snoc p).toList = cs.toList ++ [p]
  | .nil, _ => rfl
  | .cons q qs, p => by simp [Packets.snoc, Packets.toList, Packets.toList_snoc qs p]

/-- Settles O17: the cases of `leaveFrame` by the frame under the finished packet. -/
theorem doneStepHandsThePacketOn : Obligations.DoneStepHandsThePacketOn := by
  unfold Obligations.DoneStepHandsThePacketOn
  refine ⟨?_, ?_, ?_⟩
  · intro s p h
    obtain ⟨-, hpending, hframes⟩ := id h
    rw [step_of_decoding h, engineStep_done hpending hframes]
    rfl
  · intro s p v op target cs fs h
    obtain ⟨-, hpending, hframes⟩ := id h
    rw [step_of_decoding h, engineStep_done hpending hframes, leaveFrame]
    constructor
    · intro hle
      exact ⟨cs.snoc p, Packets.toList_snoc cs p, if_neg (by omega)⟩
    · intro hlt
      exact if_pos hlt
  · intro s p v op n cs fs h
    obtain ⟨-, hpending, hframes⟩ := id h
    rw [step_of_decoding h, engineStep_done hpending hframes]
    exact ⟨cs.snoc p, Packets.toList_snoc cs p, rfl⟩

/-! ## CURSOR -/

theorem Advances.cursor_le {s : State} {f : Frame} {fs fs' : List Frame} {n : Nat}
    (h : Advances s f fs n fs') (hcursor : s.cursor ≤ s.bitlen) : s.cursor + n ≤ s.bitlen := by
  cases h with
  | literalHeader _ _ hbits | operatorHeader _ _ _ hbits => exact hbits
  | group _ _ _ _ hbits | lastGroup _ _ _ _ hbits => exact hbits
  | openLength _ _ _ _ hbits | openCount _ _ _ _ hbits => exact hbits
  | push | completeLength | completeCount | handToLength | handToCount => exact hcursor

/-- Settles O21: a micro-step goes on past the bits it reads, or leaves CURSOR where its read failed. -/
theorem cursorOnlyMovesForward : Obligations.CursorOnlyMovesForward := by
  unfold Obligations.CursorOnlyMovesForward
  intro s t f fs h hcursor hstep
  obtain ⟨-, hpending, hframes⟩ := id h
  rw [step_of_decoding h] at hstep
  cases microStep_of_engineStep hpending hframes hstep with
  | advances hadv => exact ⟨rfl, Nat.le_add_right _ _, hadv.cursor_le hcursor⟩
  | completes p => exact ⟨rfl, le_rfl, hcursor⟩
  | raises _ hge hle =>
    rw [max_eq_right hcursor] at hle
    exact ⟨rfl, hge, hle⟩

/-! ## Taking an error, and the queries -/

/-- Settles O44: the fields that `raise` writes, and the two codes of each class. -/
theorem raiseCompletesWithTheError : Obligations.RaiseCompletesWithTheError := by
  unfold Obligations.RaiseCompletesWithTheError
  intro s e pos
  refine ⟨rfl, ?_⟩
  rw [raise_err]
  cases e with
  | structural d => cases d <;> rfl
  | hexDecode | truncatedStream | overflow | noTree => rfl

/-- Settles O36: `completeOk` or `raise` of the traversal's answer. -/
theorem queriesCompleteOnATree : Obligations.QueriesCompleteOnATree := by
  unfold Obligations.QueriesCompleteOnATree
  intro s p htree
  refine ⟨?_, ?_, ?_⟩
  · rcases execSumVersions_cases s with ⟨hnone, -⟩ | ⟨q, hq, heq⟩
    · simp [htree] at hnone
    · obtain rfl : p = q := Option.some.inj (htree.symm.trans hq)
      exact heq
  · intro v hv
    exact execEvaluate_of_ok htree hv
  · intro e pos herr
    exact execEvaluate_of_raised htree herr

theorem exec_query_of_no_tree {s : State} {i : Instr} (htree : s.tree = none)
    (hi : i ∈ [Instr.sumVersions, Instr.evaluate]) : exec i s = .next (raise .noTree 0 s) := by
  simp only [List.mem_cons, List.not_mem_nil, or_false] at hi
  rcases hi with rfl | rfl
  · simp [exec, execSumVersions, htree]
  · simp [exec, execEvaluate, htree]

/-- Settles O37: both queries take NO_TREE, which leaves the missing tree as it is. -/
theorem queriesWithoutATreeAreNoTree : Obligations.QueriesWithoutATreeAreNoTree := by
  unfold Obligations.QueriesWithoutATreeAreNoTree
  intro s i htree hi
  exact ⟨raise .noTree 0 s, exec_query_of_no_tree htree hi, rfl, by rw [raise_err]; rfl, rfl, rfl, htree, rfl⟩

/-- What a query that ends answers: one completion, whatever state with this tree and these parameters it is asked
in. -/
theorem exec_query_cases {s t : State} {i : Instr} (hi : i ∈ [Instr.sumVersions, Instr.evaluate])
    (h : exec i s = .next t) :
    (∃ r, t = completeOk r s ∧
      ∀ s' : State, s'.tree = s.tree → s'.par = s.par → exec i s' = .next (completeOk r s')) ∨
    (∃ e pos, t = raise e pos s ∧
      ∀ s' : State, s'.tree = s.tree → s'.par = s.par → exec i s' = .next (raise e pos s')) := by
  cases htree : s.tree with
  | none =>
    rw [exec_query_of_no_tree htree hi] at h
    exact .inr ⟨.noTree, 0, (Host.Outcome.next.inj h).symm,
      fun s' htree' _ => exec_query_of_no_tree htree' hi⟩
  | some p =>
    simp only [List.mem_cons, List.not_mem_nil, or_false] at hi
    rcases hi with rfl | rfl
    · simp only [exec, execSumVersions, htree, Host.Outcome.next.injEq] at h
      exact .inl ⟨_, h.symm, fun s' htree' _ => by simp [exec, execSumVersions, htree']⟩
    · rcases execEvaluate_cases s with ⟨hnone, -⟩ | ⟨q, hq, ⟨v, hv, heq⟩ | ⟨e, pos, herr, heq⟩ | ⟨-, heq⟩⟩
      · simp [htree] at hnone
      · obtain rfl : p = q := Option.some.inj (htree.symm.trans hq)
        exact .inl ⟨v, Host.Outcome.next.inj (h.symm.trans heq),
          fun s' htree' hpar => execEvaluate_of_ok htree' (hpar ▸ hv)⟩
      · obtain rfl : p = q := Option.some.inj (htree.symm.trans hq)
        exact .inr ⟨e, pos, Host.Outcome.next.inj (h.symm.trans heq),
          fun s' htree' hpar => execEvaluate_of_raised htree' (hpar ▸ herr)⟩
      · rw [exec, heq] at h
        simp at h

/-- Settles O39: a completion keeps the tree and the parameters, so the query gives the same completion again. -/
theorem queriesKeepTheTree : Obligations.QueriesKeepTheTree := by
  unfold Obligations.QueriesKeepTheTree
  intro s t i hi h
  rcases exec_query_cases hi h with ⟨r, rfl, hagain⟩ | ⟨e, pos, rfl, hagain⟩
  · exact ⟨rfl, rfl, completeOk r (completeOk r s), hagain _ rfl rfl, rfl, rfl, rfl, rfl, rfl⟩
  · exact ⟨rfl, rfl, raise e pos (raise e pos s), hagain _ rfl rfl, rfl, rfl, rfl, rfl, rfl⟩

/-! ## What an instruction leaves alone -/

/-- All that an instruction can do: a packet form moves the decoder or ends the DECODE with an error, DECODE opens
the outermost packet, and a query completes. -/
theorem exec_next_cases {i : Instr} {s t : State} (h : exec i s = .next t) :
    (∃ c fs, t = moveTo c fs s) ∨ (∃ e pos c, t = raise e pos { s with cursor := c }) ∨
    (∃ bs, i = .decode ∧ t = { s with bits := bs, cursor := 0, frames := [.readHeader] }) ∨
    (∃ r, i ∈ [Instr.sumVersions, Instr.evaluate] ∧ t = completeOk r s) := by
  rcases instr_shapes i with ⟨v, rfl⟩ | ⟨op, v, l, rfl⟩ | ⟨op, v, n, rfl⟩ | ⟨c, rfl⟩
  · obtain ⟨v', acc, fs, -, rfl⟩ := execLit_next.1 h
    rcases literalGroup_cases v acc fs s with ⟨g, -, -, -, heq | heq⟩ | ⟨-, heq⟩ | ⟨-, heq⟩ | ⟨-, -, heq⟩
    · exact .inl ⟨_, _, heq⟩
    · exact .inl ⟨_, _, heq⟩
    · exact .inr (.inl ⟨_, _, _, heq⟩)
    · exact .inr (.inl ⟨_, _, s.cursor, heq⟩)
    · exact .inr (.inl ⟨_, _, _, heq⟩)
  · rw [exec_lenForm] at h
    obtain ⟨-, -, fs, -, rfl⟩ := openByLength_next.1 h
    exact .inl ⟨_, _, rfl⟩
  · rw [exec_cntForm] at h
    obtain ⟨-, -, fs, -, rfl⟩ := openByCount_next.1 h
    exact .inl ⟨_, _, rfl⟩
  · cases c with
    | decode =>
      obtain rfl : startDecode s = t := Host.Outcome.next.inj h
      rcases startDecode_cases s with ⟨bs, -, heq⟩ | ⟨j, -, heq⟩
      · exact .inr (.inr (.inl ⟨bs, rfl, heq⟩))
      · exact .inr (.inl ⟨_, j, s.cursor, heq⟩)
    | sumVersions | evaluate =>
      rcases exec_query_cases (by simp [Command.toInstr]) h with ⟨r, rfl, -⟩ | ⟨e, pos, rfl, -⟩
      · exact .inr (.inr (.inr ⟨r, by simp [Command.toInstr], rfl⟩))
      · exact .inr (.inl ⟨e, pos, s.cursor, rfl⟩)

/-- Settles O40: each of the four ways writes the decoder's fields or the outputs. -/
theorem instructionsLeaveTheInputAlone : Obligations.InstructionsLeaveTheInputAlone := by
  unfold Obligations.InstructionsLeaveTheInputAlone
  intro i s t h
  rcases exec_next_cases h with ⟨c, fs, rfl⟩ | ⟨e, pos, c, rfl⟩ | ⟨bs, rfl, rfl⟩ | ⟨r, hi, rfl⟩
  · exact ⟨fun _ => rfl, rfl, rfl, rfl, rfl, rfl, rfl, rfl, rfl, rfl, fun _ => rfl, fun _ _ _ => rfl⟩
  · exact ⟨fun _ => rfl, rfl, rfl, rfl, rfl, rfl, rfl, rfl, rfl, rfl, fun _ => rfl,
      fun _ hnone hsome => absurd hnone.symm hsome⟩
  · exact ⟨fun _ => rfl, rfl, rfl, rfl, rfl, rfl, rfl, rfl, rfl, rfl, fun hne => absurd rfl hne,
      fun hi => absurd (by simp) hi⟩
  · exact ⟨fun _ => rfl, rfl, rfl, rfl, rfl, rfl, rfl, rfl, rfl, rfl, fun _ => rfl,
      fun _ hnone hsome => absurd hnone.symm hsome⟩

/-! ## The outputs until completion -/

/-- PENDING and all outputs are as they were. -/
def KeepsOutputs (s t : State) : Prop :=
  t.pending = s.pending ∧ t.status = s.status ∧ t.err = s.err ∧ t.errPos = s.errPos ∧
    t.result = s.result ∧ t.tree = s.tree

/-- The end of a command: nothing pending, and OK or ERROR. -/
def Completed (s : State) : Prop :=
  s.pending = none ∧ (s.status.state = .ok ∨ s.status.state = .error)

theorem exec_keeps_or_completes {i : Instr} {s t : State} (h : exec i s = .next t) :
    KeepsOutputs s t ∨ Completed t := by
  rcases exec_next_cases h with ⟨c, fs, rfl⟩ | ⟨e, pos, c, rfl⟩ | ⟨bs, rfl, rfl⟩ | ⟨r, -, rfl⟩
  · exact .inl ⟨rfl, rfl, rfl, rfl, rfl, rfl⟩
  · exact .inr ⟨rfl, .inr rfl⟩
  · exact .inl ⟨rfl, rfl, rfl, rfl, rfl, rfl⟩
  · exact .inr ⟨rfl, .inl rfl⟩

theorem MicroStep.keeps_or_completes {s t : State} {f : Frame} {fs : List Frame} (h : MicroStep s f fs t) :
    KeepsOutputs s t ∨ Completed t := by
  cases h with
  | advances _ => exact .inl ⟨rfl, rfl, rfl, rfl, rfl, rfl⟩
  | completes p => exact .inr ⟨rfl, .inl rfl⟩
  | raises _ _ _ => exact .inr ⟨rfl, .inr rfl⟩

/-- An engine step of a pending command keeps PENDING and the outputs, or completes the command. -/
theorem engineStep_keeps_or_completes {s t : State} (hpending : s.pending ≠ none)
    (h : engineStep s = .next t) : KeepsOutputs s t ∨ Completed t := by
  rcases engineStep_next_cases h with ⟨hnone, -⟩ | ⟨f, fs, -, -, hmicro⟩ | ⟨-, -, rfl⟩ | ⟨-, hsum⟩ |
    ⟨-, heval⟩
  · exact absurd hnone hpending
  · exact hmicro.keeps_or_completes
  · exact exec_keeps_or_completes (i := .decode) rfl
  · exact exec_keeps_or_completes (i := .sumVersions) hsum
  · exact exec_keeps_or_completes (i := .evaluate) heval

/-- Settles O41: with no host access the step is the engine's. -/
theorem outputsHoldUntilCompletion : Obligations.OutputsHoldUntilCompletion := by
  unfold Obligations.OutputsHoldUntilCompletion
  intro s t hhost hpending hstep
  exact engineStep_keeps_or_completes hpending ((step_of_host_nil hhost).symm.trans hstep)

end Sys2Proof.Machine
end

section
/-! The host's side (43_host_commands.md sections 1 to 4, 10_state.md, 70_reset_and_hazards.md): the layout of STATUS,
accesses by name and on the bus, the snapshot, reset, and what no step changes. -/

namespace Sys2Proof.Machine

/-! ## STATUS -/

theorem toNat_append_eq_add {m n : Nat} (x : BitVec m) (y : BitVec n) :
    (x ++ y).toNat = x.toNat * 2 ^ n + y.toNat := by
  rw [BitVec.toNat_append, ← Nat.shiftLeft_add_eq_or_of_lt y.isLt, Nat.shiftLeft_eq]

/-- Each field spells its number above the fields to its right (10_state.md R23). -/
theorem Status.word_toNat (st : Status) :
    st.word.toNat = 16 * st.lastCmd.toNat + 8 * st.rejected.toNat + 4 * st.treeValid.toNat +
      st.state.code.toNat := by
  simp only [Status.word, toNat_append_eq_add, BitVec.toNat_ofBool]
  ring

/-- Settles O45: the layout of the word, with the codes of STATE. -/
theorem statusWordLayout : Obligations.StatusWordLayout := by
  unfold Obligations.StatusWordLayout
  intro st
  rw [Status.word_toNat]
  cases st.state <;> rfl

/-! ## Absent input bytes -/

theorem step_of_absent_index {s : State} {a : HostAction} {rest : List HostAction} {i : Nat}
    (hhost : s.host = a :: rest) (hidle : a ≠ .idle) (hindex : a.index s.par.busMap = some i)
    (habsent : s.par.inCap ≤ i) : step s = .fault (.noSuchInputByte i) := by
  rcases step_cases s with ⟨hnil, -⟩ | ⟨rest', hidle', -⟩ | ⟨a', rest', hhost', -, hstep⟩
  · simp [hnil] at hhost
  · rw [hidle'] at hhost
    exact absurd (List.cons.inj hhost).1.symm hidle
  · rw [hhost'] at hhost
    obtain ⟨rfl, rfl⟩ := List.cons.inj hhost
    rw [hstep, hostAccess]
    simp only [hindex]
    exact if_neg (by omega)

/-- Settles O51: both accesses name the absent index. -/
theorem absentInputByteStops : Obligations.AbsentInputByteStops := by
  unfold Obligations.AbsentInputByteStops
  intro s a v rest habsent
  exact ⟨fun hhost => step_of_absent_index hhost (by simp) rfl habsent,
    fun hhost => step_of_absent_index hhost (by simp) rfl habsent⟩

/-! ## Reads -/

section Reads

variable {s : State} {rest : List HostAction}

theorem step_of_read {r : HostReg} (hexists : ∀ i ∈ regIndex r, i < s.par.inCap) :
    step { s with host := .read r :: rest } = .next (hostRead r { s with host := rest }) :=
  step_of_hostAccess (s := { s with host := .read r :: rest }) rfl (by simp) hexists

/-- Reading a register that needs no draw. -/
theorem step_of_read_value {r : HostReg} {x : Nat} (hexists : ∀ i ∈ regIndex r, i < s.par.inCap)
    (hx : readReg r { s with host := rest } = (x, s.draws)) :
    step { s with host := .read r :: rest } = .next { s with host := rest, rdata := some x } := by
  rw [step_of_read hexists, hostRead]
  simp only [hx]

/-- A read that gives a value without a draw is of a register that exists. -/
theorem readReg_of_step_of_read {r : HostReg} {x : Nat}
    (h : step { s with host := .read r :: rest } = .next { s with host := rest, rdata := some x }) :
    (∀ i ∈ regIndex r, i < s.par.inCap) ∧ readReg r { s with host := rest } = (x, s.draws) := by
  have haccess : hostAccess (.read r) { s with host := rest } =
      .next { s with host := rest, rdata := some x } := h
  obtain ⟨hexists, heq⟩ := hostAccess_next.1 haccess
  have hrdata := congrArg (fun u : State => u.rdata) heq
  have hdraws := congrArg (fun u : State => u.draws) heq
  exact ⟨hexists, Prod.ext (Option.some.inj hrdata).symm hdraws.symm⟩

theorem step_of_busRead {address x : Nat} {w : BusWindow} (hw : busWindow s.par.busMap address = some w)
    (hexists : ∀ i ∈ regIndex w.reg, i < s.par.inCap)
    (hx : readReg w.reg { s with host := rest } = (x, s.draws)) :
    step { s with host := .busRead address :: rest } = .next { s with
      host := rest, rdata := some (x / 2 ^ w.lo % 2 ^ min w.size s.par.busMap.width) } := by
  rw [step_of_hostAccess (s := { s with host := .busRead address :: rest }) rfl (by simp)
    (by simpa [HostAction.index, hw] using hexists)]
  simp only [hostEffect, busRead, hw, hx, busCarried]

end Reads

/-- Settles O52: only a read of an UNWRITTEN byte draws, and a bus read shows a part of the same value. -/
theorem readsReturnValuesWithoutEffect : Obligations.ReadsReturnValuesWithoutEffect := by
  unfold Obligations.ReadsReturnValuesWithoutEffect
  intro s rest reads
  refine ⟨step_of_read_value (by simp [regIndex]) rfl, step_of_read_value (by simp [regIndex]) rfl,
    step_of_read_value (by simp [regIndex]) rfl, step_of_read_value (by simp [regIndex]) rfl,
    step_of_read_value (by simp [regIndex]) rfl, step_of_read_value (by simp [regIndex]) rfl, ?_, ?_, ?_⟩
  · intro a b ha hb
    have hb' : Block.readByte { s.toBlock with } a = some b := hb
    refine step_of_read_value (by simpa [regIndex] using ha) ?_
    simp only [readReg, settle, hb']
  · intro a ha _
    exact ⟨_, _, step_of_read (by simpa [regIndex] using ha)⟩
  · intro address w x hw hx
    obtain ⟨hexists, hvalue⟩ := readReg_of_step_of_read hx
    exact step_of_busRead hw hexists hvalue

/-! ## Writes -/

/-- The write of a register by name that a bus write of a number to the whole register is (log 13). -/
def writeByName (v : Nat) : HostReg → HostAction
  | .cmd => .writeCmd (BitVec.ofNat 8 v)
  | .inLen => .writeInLen v
  | .inBuf a => .writeInBuf a (BitVec.ofNat 8 v)
  | .status => .writeReadOnly .status v
  | .err => .writeReadOnly .err v
  | .errPos => .writeReadOnly .errPos v
  | .result => .writeReadOnly .result v

theorem writeByName_index (m : BusMap) (v : Nat) (r : HostReg) : (writeByName v r).index m = regIndex r := by
  cases r <;> rfl

theorem hostEffect_writeByName (v : Nat) (r : HostReg) (s : State) :
    hostEffect (writeByName v r) s = writeReg r v s := by
  cases r <;> rfl

theorem writeByName_ne_idle (v : Nat) (r : HostReg) : writeByName v r ≠ .idle := by
  cases r <;> simp [writeByName]

theorem step_of_host_cons {s : State} {a : HostAction} {rest : List HostAction} (hidle : a ≠ .idle) :
    step { s with host := a :: rest } = hostAccess a { s with host := rest } := by
  cases a with
  | idle => exact absurd rfl hidle
  | read | writeCmd | writeInLen | writeInBuf | writeReadOnly | busRead | busWrite | reset => rfl

/-- A whole write on the bus is the write by name, also where the index is absent. -/
theorem step_of_busWrite {s : State} {rest : List HostAction} {address v : Nat} {w : BusWindow}
    (hw : busWindow s.par.busMap address = some w) (hlo : w.lo = 0)
    (hv : v < 2 ^ min w.size s.par.busMap.width) :
    step { s with host := .busWrite address v :: rest } =
      step { s with host := writeByName v w.reg :: rest } := by
  rw [step_of_host_cons (by simp), step_of_host_cons (writeByName_ne_idle v w.reg)]
  have hindex : (HostAction.busWrite address v).index s.par.busMap = (writeByName v w.reg).index s.par.busMap := by
    rw [writeByName_index]
    simp [HostAction.index, hw]
  have heffect (s' : State) (hpar : s'.par = s.par) :
      hostEffect (.busWrite address v) s' = hostEffect (writeByName v w.reg) s' := by
    rw [hostEffect_writeByName]
    simp [hostEffect, busWrite, busCarried, hpar, hw, hlo, Nat.mod_eq_of_lt hv]
  simp only [hostAccess, hindex, heffect { s with host := rest } rfl]

theorem step_of_unplaced {s : State} {rest : List HostAction} {a : HostAction} (hidle : a ≠ .idle)
    (hindex : a.index s.par.busMap = none) :
    step { s with host := a :: rest } = .next (hostEffect a { s with host := rest }) :=
  step_of_hostAccess (s := { s with host := a :: rest }) rfl hidle (by simp [hindex])

theorem writeCmd_of_code {s : State} {c : Command} (hfree : s.status.state ≠ .busy) :
    writeCmd c.code s = accept c s := by
  simp [writeCmd, Block.isBusy, hfree]

/-- Settles O47: an accepted code is `accept`, whose fields are known; the bus reaches the same register. -/
theorem acceptedCmdWrite : Obligations.AcceptedCmdWrite := by
  unfold Obligations.AcceptedCmdWrite
  refine ⟨?_, ?_, ?_⟩
  · intro s c rest hhost hfree
    have hstep : step s = .next (accept c { s with host := rest }) :=
      (step_of_writeCmd hhost).trans (congrArg Host.Outcome.next (writeCmd_of_code hfree))
    have hcode : (c.code.setWidth 4).toNat = c.code.toNat := by cases c <;> rfl
    have hword : BitVec.ofNat 8 c.code.toNat = c.code := by simp
    refine ⟨accept c { s with host := rest }, hstep, by simp, by simp, by simp, by simp, by simp [hcode],
      by simp, by simp, by simp, by simp, by simp, by simp, by simp, ?_, ?_, ?_⟩
    · rintro rfl
      simp
    · intro hc
      simp [hc]
    · intro address w hw hreg hlo hv
      rw [step_of_busWrite hw hlo hv, hreg, writeByName, hword, ← hstep, ← hhost]
  · intro s rest address v w hw hlo hv
    rw [step_of_busWrite hw hlo hv]
    cases w.reg <;> rfl
  · intro s rest address v hnone
    constructor
    · rw [step_of_unplaced (by simp) (by simp [HostAction.index, hnone])]
      simp [hostEffect, busWrite, hnone]
    · rw [step_of_unplaced (by simp) (by simp [HostAction.index, hnone])]
      simp [hostEffect, busRead, hnone]

/-! ## The snapshot -/

/-- A run of reads gives each written byte at its place. -/
theorem readRun_getElem_of_written (m : Memory) :
    ∀ (n a draws i : Nat) (b : Byte), i < n → m.read (a + i) = some b →
      (readRun m n a draws).1[i]? = some b
  | n + 1, a, draws, 0, b, _, hb => by
    have hb' : m.read a = some b := hb
    simp [readRun, settle, hb']
  | n + 1, a, draws, i + 1, b, hi, hb => by
    have hb' : m.read (a + 1 + i) = some b := by
      rw [← hb]
      congr 1
      omega
    simpa [readRun] using readRun_getElem_of_written m n (a + 1) _ i b (by omega) hb'

/-- Settles O48: the accepted DECODE reads IN_BUF once from index 0. -/
theorem snapshotHoldsTheWrittenBytes : Obligations.SnapshotHoldsTheWrittenBytes := by
  unfold Obligations.SnapshotHoldsTheWrittenBytes
  intro s t rest hhost hfree hstep
  have haccept : step s = .next (accept .decode { s with host := rest }) :=
    (step_of_writeCmd hhost).trans
      (congrArg Host.Outcome.next (writeCmd_of_code (s := { s with host := rest }) (c := .decode) hfree))
  obtain rfl := Host.Outcome.next.inj (haccept.symm.trans hstep)
  rw [accept_snap, if_pos rfl]
  refine ⟨readRun_length _ _ _ _, fun i b hi hb => ?_⟩
  refine readRun_getElem_of_written s.inBuf s.inLen 0 s.draws i b hi ?_
  rw [Nat.zero_add]
  exact hb

/-! ## Reset and the parameters -/

/-- Settles O54: `resetEvent` gives the block its reset value, and `State.reset` is that value. -/
theorem resetGivesResetValues : Obligations.ResetGivesResetValues := by
  unfold Obligations.ResetGivesResetValues
  constructor
  · intro s rest hhost
    have hstep : step s = .next (resetEvent { s with host := rest }) :=
      step_of_hostAccess hhost (by simp) (by simp [HostAction.index])
    exact ⟨_, hstep, rfl, (by decide : Block.reset.status.word = 0x00),
      (by decide : Block.reset.err.word = 0x00), rfl, rfl, rfl, fun _ => rfl, rfl, rfl, rfl⟩
  · exact ⟨by decide, by decide, rfl, rfl, rfl, fun _ => rfl, rfl, rfl, rfl⟩

/-- What a host access can change: nothing, REJECTED, an accepted write, what was read, or everything by reset. -/
inductive HostChange (s : State) : HostAction → State → Prop where
  | nothing (a : HostAction) : HostChange s a s
  | rejects (a : HostAction) : HostChange s a (reject s)
  | accepts (a : HostAction) (c : Command) (hfree : s.status.state ≠ .busy) : HostChange s a (accept c s)
  | setsInLen (a : HostAction) (n : Nat) (hfree : s.status.state ≠ .busy) (hn : n ≤ s.par.inCap) :
      HostChange s a { s with inLen := n }
  | setsInBuf (a : HostAction) (i : Nat) (v : Byte) (hfree : s.status.state ≠ .busy)
      (hindex : a.index s.par.busMap = some i) : HostChange s a { s with inBuf := s.inBuf.write i v }
  | reads (a : HostAction) (r : Option Nat) (d : Nat) : HostChange s a { s with rdata := r, draws := d }
  | resets : HostChange s .reset (resetEvent s)

section HostChange

variable (s : State) (a : HostAction)

theorem hostChange_writeCmd (c : BitVec 8) : HostChange s a (writeCmd c s) := by
  rcases writeCmd_cases c s with ⟨heq, -⟩ | ⟨hfree, k, -, heq⟩
  · exact heq ▸ .rejects a
  · exact heq ▸ .accepts a k hfree

theorem hostChange_writeInLen (n : Nat) : HostChange s a (writeInLen n s) := by
  rcases writeInLen_cases n s with ⟨heq, -⟩ | ⟨hfree, hn, heq⟩
  · exact heq ▸ .rejects a
  · exact heq ▸ .setsInLen a n hfree hn

theorem hostChange_writeInBuf (i : Nat) (v : Byte) (hindex : a.index s.par.busMap = some i) :
    HostChange s a (writeInBuf i v s) := by
  rcases writeInBuf_cases i v s with ⟨-, heq⟩ | ⟨hfree, heq⟩
  · exact heq ▸ .rejects a
  · exact heq ▸ .setsInBuf a i v hfree hindex

theorem hostChange_busWrite (address v : Nat) :
    HostChange s (.busWrite address v) (busWrite address v s) := by
  rcases busWrite_cases address v s with ⟨-, heq⟩ | ⟨w, hw, heq⟩
  · rw [heq]
    exact .nothing _
  · rw [heq]
    rcases writeReg_cases w.reg (v % 2 ^ busCarried s.par.busMap w * 2 ^ w.lo) s with
      ⟨-, heq'⟩ | ⟨-, heq'⟩ | ⟨i, hi, heq'⟩ | ⟨-, heq'⟩
    · exact heq' ▸ hostChange_writeCmd s _ _
    · exact heq' ▸ hostChange_writeInLen s _ _
    · exact heq' ▸ hostChange_writeInBuf s _ i _ (by simp [HostAction.index, hw, regIndex, hi])
    · rw [heq']
      exact .nothing _

theorem hostChange_hostEffect : HostChange s a (hostEffect a s) := by
  cases a with
  | idle | writeReadOnly => exact .nothing _
  | read r => exact .reads _ _ _
  | writeCmd c => exact hostChange_writeCmd s _ c
  | writeInLen n => exact hostChange_writeInLen s _ n
  | writeInBuf i v => exact hostChange_writeInBuf s _ i v rfl
  | busRead address =>
    rcases busRead_cases address s with ⟨-, heq⟩ | ⟨w, -, heq⟩
    · rw [hostEffect, heq]
      exact .reads _ none s.draws
    · rw [hostEffect, heq]
      exact .reads _ _ _
  | busWrite address v => exact hostChange_busWrite s address v
  | reset => exact .resets

end HostChange

theorem HostChange.par {s t : State} {a : HostAction} (h : HostChange s a t) : t.par = s.par := by
  cases h with
  | accepts _ c hfree => exact accept_par c s
  | nothing | rejects | setsInLen | setsInBuf | reads | resets => rfl

theorem exec_par {i : Instr} {s t : State} (h : exec i s = .next t) : t.par = s.par := by
  rcases exec_next_cases h with ⟨c, fs, rfl⟩ | ⟨e, pos, c, rfl⟩ | ⟨bs, -, rfl⟩ | ⟨r, -, rfl⟩ <;> rfl

theorem engineStep_par {s t : State} (h : engineStep s = .next t) : t.par = s.par := by
  rcases engineStep_next_cases h with ⟨-, rfl⟩ | ⟨f, fs, -, -, hmicro⟩ | ⟨-, -, rfl⟩ | ⟨-, hsum⟩ |
    ⟨-, heval⟩
  · rfl
  · cases hmicro <;> rfl
  · exact exec_par (i := .decode) rfl
  · exact exec_par (i := .sumVersions) hsum
  · exact exec_par (i := .evaluate) heval

/-- All that a step can do: the engine's turn, on the state without the entry it used up, or a host access that
exists. -/
theorem step_next_cases {s t : State} (h : step s = .next t) :
    (∃ rest, engineStep { s with host := rest } = .next t) ∨
    (∃ a rest, (∀ i ∈ a.index s.par.busMap, i < s.par.inCap) ∧ HostChange { s with host := rest } a t) := by
  rcases step_cases s with ⟨hnil, heq⟩ | ⟨rest, -, heq⟩ | ⟨a, rest, -, -, heq⟩
  · rw [heq] at h
    exact .inl ⟨[], by rw [← hnil]; exact h⟩
  · exact .inl ⟨rest, heq ▸ h⟩
  · rw [heq] at h
    obtain ⟨hexists, rfl⟩ := hostAccess_next.1 h
    exact .inr ⟨a, rest, hexists, hostChange_hostEffect _ a⟩

/-- Settles O55: neither the engine nor a host access writes the parameters. -/
theorem parametersAreFixed : Obligations.ParametersAreFixed := by
  unfold Obligations.ParametersAreFixed
  intro s t h
  rcases step_next_cases h with ⟨rest, hengine⟩ | ⟨a, rest, -, hchange⟩
  · exact engineStep_par (s := { s with host := rest }) hengine
  · exact hchange.par

end Sys2Proof.Machine
end

section
/-! The conversion of the input (40_conversion_and_reader.md section 1, 30_encoding.md section 1): the whitespace set
and the digits, the trimmed region, and what CONVERT answers for digits and at the first other byte. -/

namespace Sys2Proof.Machine

/-! ## Characters -/

/-- The whitespace set, byte by byte (40_conversion_and_reader.md R100). -/
theorem isSpace_iff (b : Byte) :
    isSpace b = true ↔ b ∈ [0x09#8, 0x0A#8, 0x0B#8, 0x0C#8, 0x0D#8, 0x20#8] := by
  simp only [isSpace, Bool.or_eq_true, Bool.and_eq_true, decide_eq_true_eq, List.mem_cons, List.not_mem_nil,
    or_false, BitVec.toNat_eq]
  simp only [BitVec.toNat_ofNat]
  omega

/-- Settles O22: the three ranges of digits, and the gaps between them. -/
theorem hexDigitValues : Obligations.HexDigitValues := by
  unfold Obligations.HexDigitValues
  refine ⟨by decide, by decide, fun b hb => ?_⟩
  have hdecimal : ¬ (0x30 ≤ b.toNat ∧ b.toNat ≤ 0x39) := by omega
  have hupper : ¬ (0x41 ≤ b.toNat ∧ b.toNat ≤ 0x46) := by omega
  have hlower : ¬ (0x61 ≤ b.toNat ∧ b.toNat ≤ 0x66) := by omega
  simp only [hexval, if_neg hdecimal, if_neg hupper, if_neg hlower]

/-- A hex digit is no whitespace. -/
theorem isSpace_of_hexval {b : Byte} (h : hexval b ≠ none) : isSpace b = false := by
  by_contra hspace
  simp only [Bool.not_eq_false, isSpace, Bool.or_eq_true, Bool.and_eq_true, decide_eq_true_eq] at hspace
  obtain ⟨-, -, hother⟩ := hexDigitValues
  exact h (hother b (by omega))

/-! ## TRIM -/

theorem dropWhile_of_head {α : Type} {p : α → Bool} {l : List α} (h : ∀ x ∈ l.head?, p x = false) :
    l.dropWhile p = l := by
  cases l with
  | nil => rfl
  | cons x xs =>
    have hx : p x = false := h x rfl
    simp [hx]

theorem takeWhile_of_head {α : Type} {p : α → Bool} {l : List α} (h : ∀ x ∈ l.head?, p x = false) :
    l.takeWhile p = [] := by
  cases l with
  | nil => rfl
  | cons x xs =>
    have hx : p x = false := h x rfl
    simp [hx]

section Region

variable {w₁ w₂ region : List Byte}

/-- TRIM takes whitespace off both ends, up to bytes that are none. -/
theorem trimmed_of_region (hw₁ : ∀ b ∈ w₁, isSpace b = true) (hw₂ : ∀ b ∈ w₂, isSpace b = true)
    (hhead : ∀ b ∈ region.head?, isSpace b = false) (hlast : ∀ b ∈ region.getLast?, isSpace b = false) :
    trimmed (w₁ ++ region ++ w₂) = region := by
  have hback : (region ++ w₂).reverse.dropWhile isSpace = region.reverse := by
    rw [List.reverse_append, List.dropWhile_append_of_pos (by simpa using hw₂)]
    exact dropWhile_of_head (by simpa using hlast)
  have hfront : ((region ++ w₂).dropWhile isSpace).reverse.dropWhile isSpace = region.reverse := by
    cases region with
    | nil =>
      have hnone : w₂.dropWhile isSpace = [] := List.dropWhile_eq_nil_iff.2 hw₂
      simp [hnone]
    | cons b rest =>
      rw [dropWhile_of_head (l := b :: rest ++ w₂) hhead]
      exact hback
  rw [trimmed, List.append_assoc, List.dropWhile_append_of_pos hw₁, hfront, List.reverse_reverse]

theorem leadingSpaces_of_region (hw₁ : ∀ b ∈ w₁, isSpace b = true) (hne : region ≠ [])
    (hhead : ∀ b ∈ region.head?, isSpace b = false) :
    leadingSpaces (w₁ ++ region ++ w₂) = w₁.length := by
  obtain ⟨b, rest, rfl⟩ := List.exists_cons_of_ne_nil hne
  rw [leadingSpaces, List.append_assoc, List.takeWhile_append_of_pos hw₁,
    takeWhile_of_head (l := b :: rest ++ w₂) hhead, List.append_nil]

end Region

/-- The region and the whitespace before it are part of the text. -/
theorem leadingSpaces_add_trimmed_le (S : List Byte) :
    leadingSpaces S + (trimmed S).length ≤ S.length := by
  have hsplit := congrArg List.length (List.takeWhile_append_dropWhile (p := isSpace) (l := S))
  have hback := (List.dropWhile_suffix (l := (S.dropWhile isSpace).reverse) isSpace).length_le
  rw [List.length_append] at hsplit
  rw [List.length_reverse] at hback
  rw [leadingSpaces, trimmed, List.length_reverse]
  omega

/-! ## CONVERT -/

theorem convertFrom_cons_bad {j : Nat} {b : Byte} (rest : List Byte) (h : hexval b = none) :
    convertFrom j (b :: rest) = .error j := by
  simp [convertFrom, h]

theorem convertFrom_cons_error {j e : Nat} {b : Byte} {rest : List Byte} (h : hexval b ≠ none)
    (hrest : convertFrom (j + 1) rest = .error e) : convertFrom j (b :: rest) = .error e := by
  obtain ⟨d, hd⟩ := Option.ne_none_iff_exists'.1 h
  simp [convertFrom, hd, hrest]

theorem convertFrom_cons_ok {j d : Nat} {b : Byte} {rest : List Byte} {bs : Bits} (h : hexval b = some d)
    (hrest : convertFrom (j + 1) rest = .ok bs) : convertFrom j (b :: rest) = .ok (bitsOfNat 4 d ++ bs) := by
  simp [convertFrom, h, hrest]

/-- CONVERT answers the first bad byte of the region, or four bits for each digit. -/
theorem convertFrom_cases : ∀ (j : Nat) (region : List Byte),
    (∃ e, convertFrom j region = .error e ∧ e < j + region.length) ∨
    (∃ bs, convertFrom j region = .ok bs ∧ bs.length = 4 * region.length)
  | j, [] => .inr ⟨[], rfl, rfl⟩
  | j, b :: rest => by
    cases hb : hexval b with
    | none => exact .inl ⟨j, convertFrom_cons_bad rest hb, by simp⟩
    | some d =>
      rcases convertFrom_cases (j + 1) rest with ⟨e, he, hlt⟩ | ⟨bs, hbs, hlen⟩
      · refine .inl ⟨e, convertFrom_cons_error (by simp [hb]) he, ?_⟩
        rw [List.length_cons]
        omega
      · refine .inr ⟨_, convertFrom_cons_ok hb hbs, ?_⟩
        rw [List.length_append, bitsOfNat_length, List.length_cons]
        omega

/-- The conversion stays inside the snapshot: its error is at an index of it, its bits are four a byte at most. -/
theorem convertInput_cases (S : List Byte) :
    (∃ e, convertInput S = .error e ∧ e < S.length) ∨
    (∃ bs, convertInput S = .ok bs ∧ bs.length ≤ 4 * S.length) := by
  have hle := leadingSpaces_add_trimmed_le S
  rcases convertFrom_cases (leadingSpaces S) (trimmed S) with ⟨e, he, hlt⟩ | ⟨bs, hbs, hlen⟩
  · exact .inl ⟨e, he, by omega⟩
  · exact .inr ⟨bs, hbs, by omega⟩

theorem convertFrom_digits : ∀ {j : Nat} {ds : List (Byte × Nat)}, (∀ d ∈ ds, hexval d.1 = some d.2) →
    convertFrom j (ds.map Prod.fst) = .ok (ds.map fun d => bitsOfNat 4 d.2).flatten
  | _, [], _ => rfl
  | j, d :: ds, h =>
    convertFrom_cons_ok (h d (by simp)) (convertFrom_digits fun d' hd' => h d' (by simp [hd']))

theorem convertFrom_first_bad {b : Byte} (rest : List Byte) (hb : hexval b = none) :
    ∀ {j : Nat} {ds : List Byte}, (∀ x ∈ ds, hexval x ≠ none) →
      convertFrom j (ds ++ b :: rest) = .error (j + ds.length)
  | _, [], _ => convertFrom_cons_bad rest hb
  | j, d :: ds, h => by
    have hrest := convertFrom_first_bad rest hb (j := j + 1) (ds := ds) fun x hx => h x (by simp [hx])
    rw [List.cons_append, convertFrom_cons_error (h d (by simp)) hrest, List.length_cons]
    congr 1
    omega

/-- A region of digits converts whatever whitespace stands around it. -/
theorem convertInput_of_digits {w₁ w₂ region : List Byte} {bs : Bits} (hw₁ : ∀ b ∈ w₁, isSpace b = true)
    (hw₂ : ∀ b ∈ w₂, isSpace b = true) (hdigits : ∀ b ∈ region, hexval b ≠ none)
    (hconvert : ∀ j, convertFrom j region = .ok bs) : convertInput (w₁ ++ region ++ w₂) = .ok bs := by
  have htrim : trimmed (w₁ ++ region ++ w₂) = region :=
    trimmed_of_region hw₁ hw₂ (fun b hb => isSpace_of_hexval (hdigits b (List.mem_of_mem_head? hb)))
      (fun b hb => isSpace_of_hexval (hdigits b (List.mem_of_mem_getLast? hb)))
  rw [convertInput, htrim, hconvert]

theorem startDecode_of_ok {s : State} {bs : Bits} (h : convertInput s.snap = .ok bs) :
    startDecode s = { s with bits := bs, cursor := 0, frames := [.readHeader] } := by
  simp [startDecode, h]

/-! ## The statements -/

/-- Settles O23: the digits are the trimmed region, and each gives its four bits. -/
theorem decodeConvertsTheTrimmedDigits : Obligations.DecodeConvertsTheTrimmedDigits := by
  unfold Obligations.DecodeConvertsTheTrimmedDigits
  intro s w₁ w₂ ds hw₁ hw₂ hds hsnap
  have hdigits : ∀ b ∈ ds.map Prod.fst, hexval b ≠ none := by
    intro b hb
    obtain ⟨d, hd, rfl⟩ := List.mem_map.1 hb
    simp [hds d hd]
  have hconvert : convertInput s.snap = .ok (ds.map fun d => bitsOfNat 4 d.2).flatten := by
    rw [hsnap]
    exact convertInput_of_digits (fun b hb => (isSpace_iff b).2 (hw₁ b hb))
      (fun b hb => (isSpace_iff b).2 (hw₂ b hb)) hdigits fun j => convertFrom_digits hds
  exact congrArg Host.Outcome.next (startDecode_of_ok hconvert)

/-- Settles O24: the region is trimmed to its ends, and CONVERT stops at its first byte that is no digit. -/
theorem firstBadByteIsHexDecodeError : Obligations.FirstBadByteIsHexDecodeError := by
  unfold Obligations.FirstBadByteIsHexDecodeError
  intro s w₁ w₂ ds rest b hw₁ hw₂ hhead hlast hds hb hsnap
  have hspace (x : Byte) (hx : x ∉ [0x09#8, 0x0A#8, 0x0B#8, 0x0C#8, 0x0D#8, 0x20#8]) :
      isSpace x = false := by
    rw [← isSpace_iff] at hx
    exact Bool.eq_false_iff.2 hx
  have hw₁' : ∀ x ∈ w₁, isSpace x = true := fun x hx => (isSpace_iff x).2 (hw₁ x hx)
  have hw₂' : ∀ x ∈ w₂, isSpace x = true := fun x hx => (isSpace_iff x).2 (hw₂ x hx)
  have hhead' : ∀ x ∈ (ds ++ b :: rest).head?, isSpace x = false := fun x hx => hspace x (hhead x hx)
  have hconvert : convertInput s.snap = .error (w₁.length + ds.length) := by
    rw [hsnap, convertInput, trimmed_of_region hw₁' hw₂' hhead' fun x hx => hspace x (hlast x hx),
      leadingSpaces_of_region hw₁' (by simp) hhead']
    exact convertFrom_first_bad rest hb hds
  have hraise : startDecode s = raise .hexDecode (w₁.length + ds.length) s := by
    simp [startDecode, hconvert]
  exact congrArg Host.Outcome.next hraise

/-! ## Letter case -/

/-- Equal bytes, or two digits of one value. -/
def SameDigit (a b : Byte) : Prop :=
  a = b ∨ (hexval a ≠ none ∧ hexval a = hexval b)

theorem SameDigit.isSpace_eq {a b : Byte} (h : SameDigit a b) : isSpace a = isSpace b := by
  rcases h with rfl | ⟨ha, hab⟩
  · rfl
  · rw [isSpace_of_hexval ha, isSpace_of_hexval (hab ▸ ha)]

theorem SameDigit.hexval_eq {a b : Byte} (h : SameDigit a b) : hexval a = hexval b := by
  rcases h with rfl | ⟨-, hab⟩
  · rfl
  · exact hab

theorem dropWhile_sameDigit {S S' : List Byte} (h : List.Forall₂ SameDigit S S') :
    List.Forall₂ SameDigit (S.dropWhile isSpace) (S'.dropWhile isSpace) := by
  induction h with
  | nil => exact .nil
  | @cons a b S S' hab hrest ih =>
    rw [List.dropWhile_cons, List.dropWhile_cons, ← hab.isSpace_eq]
    split
    · exact ih
    · exact .cons hab hrest

theorem leadingSpaces_sameDigit {S S' : List Byte} (h : List.Forall₂ SameDigit S S') :
    leadingSpaces S = leadingSpaces S' := by
  induction h with
  | nil => rfl
  | cons hab _ ih =>
    unfold leadingSpaces at ih ⊢
    rw [List.takeWhile_cons, List.takeWhile_cons, ← hab.isSpace_eq]
    split
    · rw [List.length_cons, List.length_cons, ih]
    · rfl

theorem convertFrom_sameDigit {S S' : List Byte} (h : List.Forall₂ SameDigit S S') :
    ∀ j, convertFrom j S = convertFrom j S' := by
  induction h with
  | nil => exact fun _ => rfl
  | cons hab _ ih =>
    intro j
    simp only [convertFrom, hab.hexval_eq, ih]

/-- Settles O25: digits of one value are trimmed alike and give the same bits or the same bad index. -/
theorem letterCaseDoesNotMatter : Obligations.LetterCaseDoesNotMatter := by
  unfold Obligations.LetterCaseDoesNotMatter
  intro S S' h
  have hsame : List.Forall₂ SameDigit S S' := h
  have hregion : List.Forall₂ SameDigit (trimmed S) (trimmed S') :=
    List.forall₂_reverse_iff.2
      (dropWhile_sameDigit (List.forall₂_reverse_iff.2 (dropWhile_sameDigit hsame)))
  rw [convertInput, convertInput, leadingSpaces_sameDigit hsame, convertFrom_sameDigit hregion]

end Sys2Proof.Machine
end

section
/-! The registers agree with one another (10_state.md R23 to R29, R35 to R37): what each update of the state does to
that, and that every step keeps it. -/

namespace Sys2Proof.Machine

/-! ## The register rules by name -/

/-- The rules of `registersOk`, one field each. -/
structure RegistersAgree (s : State) : Prop where
  busy : s.status.state = .busy ↔ s.pending ≠ none
  treeValid : s.status.treeValid = s.tree.isSome
  lastCmd : ∀ c ∈ s.pending, s.status.lastCmd = c.code.setWidth 4
  idle : s.status.lastCmd = 0 ↔ s.status.state = .idle
  lastCmd_le : s.status.lastCmd.toNat ≤ 3
  decode : s.pending = some .decode → s.tree = none
  err : errOk s.err = true
  errPos : s.err = noErr → s.errPos = 0
  result : s.err ≠ noErr → s.result = 0
  ok : s.status.state = .ok → s.err = noErr
  error : s.status.state = .error → s.err ≠ noErr
  reset : s.status.state = .idle → s.err = noErr ∧ s.result = 0 ∧ s.tree = none
  inLen : s.inLen ≤ s.par.inCap
  wf : s.inBuf.wf = true
  below : s.inBuf.below s.par.inCap = true

theorem registersOk_iff {s : State} : registersOk s = true ↔ RegistersAgree s := by
  constructor
  · intro h
    simp only [registersOk, Bool.and_eq_true, decide_eq_true_eq] at h
    obtain ⟨⟨⟨⟨⟨⟨⟨⟨⟨⟨⟨⟨⟨⟨busy, treeValid⟩, lastCmd⟩, idle⟩, lastCmd_le⟩, decode⟩, err⟩, errPos⟩, result⟩, ok⟩,
      error⟩, reset⟩, inLen⟩, wf⟩, below⟩ := h
    exact ⟨busy, treeValid, lastCmd, idle, lastCmd_le, decode, err, errPos, result, ok, error, reset, inLen,
      wf, below⟩
  · rintro ⟨busy, treeValid, lastCmd, idle, lastCmd_le, decode, err, errPos, result, ok, error, reset, inLen,
      wf, below⟩
    simp only [registersOk, Bool.and_eq_true, decide_eq_true_eq]
    exact ⟨⟨⟨⟨⟨⟨⟨⟨⟨⟨⟨⟨⟨⟨busy, treeValid⟩, lastCmd⟩, idle⟩, lastCmd_le⟩, decode⟩, err⟩, errPos⟩, result⟩, ok⟩,
      error⟩, reset⟩, inLen⟩, wf⟩, below⟩

theorem registersOk_not_busy_iff {s : State} (h : registersOk s = true) :
    s.status.state ≠ .busy ↔ s.pending = none := by
  rw [ne_eq, (registersOk_iff.1 h).busy, not_not]

/-! ## The codes of ERR -/

theorem errOk_toErr (e : ErrorClass) : errOk e.toErr = true := by
  cases e with
  | structural d => cases d <;> decide
  | hexDecode | truncatedStream | overflow | noTree => decide

theorem toErr_ne_noErr (e : ErrorClass) : e.toErr ≠ noErr := by
  cases e with
  | structural d => cases d <;> decide
  | hexDecode | truncatedStream | overflow | noTree => decide

theorem command_code_facts (c : Command) :
    (c.code.setWidth 4 : BitVec 4) ≠ 0 ∧ (c.code.setWidth 4 : BitVec 4).toNat ≤ 3 := by
  cases c <;> decide

/-! ## The updates -/

section Updates

variable {s : State}

/-- LAST_CMD of a command in progress is not 0. -/
theorem RegistersAgree.lastCmd_ne_zero (h : RegistersAgree s) (hpending : s.pending ≠ none) :
    s.status.lastCmd ≠ 0 := by
  intro hzero
  have hbusy := h.busy.2 hpending
  rw [h.idle.1 hzero] at hbusy
  simp at hbusy

theorem registersOk_raise (h : registersOk s = true) (hpending : s.pending ≠ none) (e : ErrorClass) (pos : Nat) :
    registersOk (raise e pos s) = true := by
  rw [registersOk_iff] at h ⊢
  exact
    { busy := by simp
      treeValid := h.treeValid
      lastCmd := by simp
      idle := by simpa using h.lastCmd_ne_zero hpending
      lastCmd_le := h.lastCmd_le
      decode := by simp
      err := errOk_toErr e
      errPos := fun hnone => absurd hnone (toErr_ne_noErr e)
      result := fun _ => rfl
      ok := by simp
      error := fun _ => toErr_ne_noErr e
      reset := by simp
      inLen := h.inLen
      wf := h.wf
      below := h.below }

theorem registersOk_completeOk (h : registersOk s = true) (hpending : s.pending ≠ none) (r : Nat) :
    registersOk (completeOk r s) = true := by
  rw [registersOk_iff] at h ⊢
  exact
    { busy := by simp
      treeValid := h.treeValid
      lastCmd := by simp
      idle := by simpa using h.lastCmd_ne_zero hpending
      lastCmd_le := h.lastCmd_le
      decode := by simp
      err := (by decide : errOk noErr = true)
      errPos := fun _ => rfl
      result := by simp
      ok := fun _ => rfl
      error := by simp
      reset := by simp
      inLen := h.inLen
      wf := h.wf
      below := h.below }

theorem registersOk_completeDecode (h : registersOk s = true) (hpending : s.pending ≠ none) (p : Packet) :
    registersOk (completeDecode p s) = true := by
  have hok := registersOk_completeOk h hpending s.cursor
  rw [registersOk_iff] at hok ⊢
  exact { hok with treeValid := rfl, decode := by simp, reset := by simp }

theorem registersOk_accept (h : registersOk s = true) (c : Command) : registersOk (accept c s) = true := by
  rw [registersOk_iff] at h ⊢
  obtain ⟨hcode, hcode_le⟩ := command_code_facts c
  exact
    { busy := by simp
      treeValid := by
        rw [accept_status, accept_tree]
        by_cases hc : c = .decode
        · simp [hc]
        · simpa [hc] using h.treeValid
      lastCmd := by simp
      idle := by simpa using hcode
      lastCmd_le := by simpa using hcode_le
      decode := by simp +contextual
      err := by simpa using h.err
      errPos := by simpa using h.errPos
      result := by simpa using h.result
      ok := by simp
      error := by simp
      reset := by simp
      inLen := by simpa using h.inLen
      wf := by simpa using h.wf
      below := by simpa using h.below }

/-- The block is that of `State.reset`; its empty IN_BUF is within every IN_CAP. -/
theorem registersOk_resetEvent (s : State) : registersOk (resetEvent s) = true := by
  have hreset : RegistersAgree State.reset := registersOk_iff.1 (by decide)
  rw [registersOk_iff]
  exact { hreset with inLen := Nat.zero_le _, below := rfl }

theorem registersOk_setInLen (h : registersOk s = true) {n : Nat} (hn : n ≤ s.par.inCap) :
    registersOk { s with inLen := n } = true := by
  rw [registersOk_iff] at h ⊢
  exact { h with inLen := hn }

theorem registersOk_setInBuf (h : registersOk s = true) {i : Nat} (v : Byte) (hi : i < s.par.inCap) :
    registersOk { s with inBuf := s.inBuf.write i v } = true := by
  rw [registersOk_iff] at h ⊢
  exact { h with wf := Memory.wf_write _ i v h.wf, below := Memory.below_write _ i _ v hi h.below }

end Updates

/-! ## The step -/

theorem HostChange.registersOk {s t : State} {a : HostAction} (hchange : HostChange s a t)
    (h : registersOk s = true) (hexists : ∀ i ∈ a.index s.par.busMap, i < s.par.inCap) :
    registersOk t = true := by
  cases hchange with
  | nothing | rejects | reads => exact h
  | accepts _ c _ => exact registersOk_accept h c
  | setsInLen _ n _ hn => exact registersOk_setInLen h hn
  | setsInBuf _ i v _ hindex => exact registersOk_setInBuf h v (hexists i hindex)
  | resets => exact registersOk_resetEvent s

theorem MicroStep.registersOk {s t : State} {f : Frame} {fs : List Frame} (hmicro : MicroStep s f fs t)
    (h : registersOk s = true) (hpending : s.pending ≠ none) : registersOk t = true := by
  cases hmicro with
  | advances _ => exact h
  | completes p => exact registersOk_completeDecode h hpending p
  | raises _ _ _ => exact registersOk_raise h hpending _ _

theorem registersOk_of_query {s t : State} {i : Instr} (h : registersOk s = true) (hpending : s.pending ≠ none)
    (hi : i ∈ [Instr.sumVersions, Instr.evaluate]) (hexec : exec i s = .next t) : registersOk t = true := by
  rcases exec_query_cases hi hexec with ⟨r, rfl, -⟩ | ⟨e, pos, rfl, -⟩
  · exact registersOk_completeOk h hpending r
  · exact registersOk_raise h hpending e pos

theorem registersOk_of_engineStep {s t : State} (h : registersOk s = true) (hstep : engineStep s = .next t) :
    registersOk t = true := by
  rcases engineStep_next_cases hstep with ⟨-, rfl⟩ | ⟨f, fs, hpending, -, hmicro⟩ | ⟨hpending, -, rfl⟩ |
    ⟨hpending, hsum⟩ | ⟨hpending, heval⟩
  · exact h
  · exact hmicro.registersOk h (by simp [hpending])
  · rcases startDecode_cases s with ⟨bs, -, heq⟩ | ⟨j, -, heq⟩
    · rw [heq]
      exact h
    · rw [heq]
      exact registersOk_raise h (by simp [hpending]) _ _
  · exact registersOk_of_query (i := .sumVersions) h (by simp [hpending]) (by simp) hsum
  · exact registersOk_of_query (i := .evaluate) h (by simp [hpending]) (by simp) heval

/-- Settles O58: each update keeps the rules; a command completes only while it is pending. -/
theorem stepKeepsRegistersInAgreement : Obligations.StepKeepsRegistersInAgreement := by
  unfold Obligations.StepKeepsRegistersInAgreement
  intro s t h hstep
  rcases step_next_cases hstep with ⟨rest, hengine⟩ | ⟨a, rest, hexists, hchange⟩
  · exact registersOk_of_engineStep (s := { s with host := rest }) h hengine
  · exact hchange.registersOk h hexists

/-- Settles O57: the invariant is decidable and the reset state is closed. -/
theorem resetSatisfiesInvariant : Obligations.ResetSatisfiesInvariant := by
  unfold Obligations.ResetSatisfiesInvariant
  decide

end Sys2Proof.Machine
end

section
/-! The invariant (10_state.md, 41_packet_decode.md section 2): the decoder's stack under each micro-step, the whole
invariant under every step, that no step of it stops, and which error each command can end with. -/

namespace Sys2Proof.Machine

/-! ## Depths and packet sequences -/

theorem depthAllowed_mono {par : Params} {d d' : Nat} (h : depthAllowed par d = true) (hle : d' ≤ d) :
    depthAllowed par d' = true := by
  unfold depthAllowed at h ⊢
  split
  · rfl
  · rename_i m hm
    simp only [hm, decide_eq_true_eq] at h ⊢
    omega

theorem depthAllowed_one_of_legal {par : Params} (hlegal : par.legal = true) : depthAllowed par 1 = true := by
  unfold Params.legal at hlegal
  unfold depthAllowed
  cases hm : par.maxDepth with
  | none => rfl
  | some m =>
    simp only [hm, Bool.and_eq_true, decide_eq_true_eq] at hlegal ⊢
    exact hlegal.2

theorem Packets.snoc_size : ∀ (cs : Packets) (p : Packet), (cs.snoc p).size = cs.size + p.size
  | .nil, p => by simp [Packets.snoc, Packets.size]
  | .cons q qs, p => by
    simp only [Packets.snoc, Packets.size, Packets.snoc_size qs p]
    omega

theorem Packets.snoc_length : ∀ (cs : Packets) (p : Packet), (cs.snoc p).length = cs.length + 1
  | .nil, p => rfl
  | .cons q qs, p => by simp [Packets.snoc, Packets.length, Packets.snoc_length qs p]

theorem Packets.snoc_depth : ∀ (cs : Packets) (p : Packet), (cs.snoc p).depth = max cs.depth p.depth
  | .nil, p => by simp [Packets.snoc, Packets.depth]
  | .cons q qs, p => by
    simp only [Packets.snoc, Packets.depth, Packets.snoc_depth qs p]
    omega

theorem Packets.snoc_valid {par : Params} : ∀ {cs : Packets} {p : Packet}, cs.valid par = true →
    p.valid par = true → (cs.snoc p).valid par = true
  | .nil, p, _, hp => by simp [Packets.snoc, Packets.valid, hp]
  | .cons q qs, p, hcs, hp => by
    simp only [Packets.valid, Packets.snoc, Bool.and_eq_true] at hcs ⊢
    exact ⟨hcs.1, Packets.snoc_valid hcs.2 hp⟩

/-- A further child keeps a sequence valid and within MAX_DEPTH. -/
theorem children_snoc {par : Params} {k : Nat} {cs : Packets} {p : Packet} (hcs : cs.valid par = true)
    (hdepth : depthAllowed par (k + cs.depth) = true) (hp : p.valid par = true)
    (hpdepth : depthAllowed par (k + p.depth) = true) :
    (cs.snoc p).valid par = true ∧ depthAllowed par (k + (cs.snoc p).depth) = true := by
  refine ⟨Packets.snoc_valid hcs hp, ?_⟩
  rw [Packets.snoc_depth]
  rcases Nat.le_total cs.depth p.depth with hle | hle
  · rwa [max_eq_right hle]
  · rwa [max_eq_left hle]

/-! ## Sound stacks -/

theorem stackOk_cons {par : Params} {f : Frame} {fs : List Frame} :
    stackOk par (f :: fs) = true ↔
      f.sound par fs.length = true ∧ (∀ g ∈ fs, g.awaits = true) ∧ stackOk par fs = true := by
  simp [stackOk, and_assoc]

theorem Frame.sound_done {par : Params} {under : Nat} {p : Packet} :
    (Frame.done p).sound par under = true ↔
      p.valid par = true ∧ depthAllowed par (under + p.depth) = true := by
  simp [Frame.sound]

theorem Frame.sound_fixed {par : Params} {under target : Nat} {v : Version} {op : Opcode} {cs : Packets} :
    (Frame.fixedBitLengthChildrenLoop v op target cs).sound par under = true ↔
      cs.valid par = true ∧ depthAllowed par (under + 1 + cs.depth) = true := by
  simp [Frame.sound]

theorem Frame.sound_counted {par : Params} {under n : Nat} {v : Version} {op : Opcode} {cs : Packets} :
    (Frame.countedChildrenLoop v op n cs).sound par under = true ↔
      (cs.valid par = true ∧ depthAllowed par (under + 1 + cs.depth) = true) ∧ n + cs.length ≤ 2047 := by
  simp [Frame.sound]

/-- An Operator over a loop's children is sound where the loop was. -/
theorem Frame.sound_done_of_children {par : Params} {under : Nat} {v : Version} {op : Opcode} {cs : Packets}
    (hcs : cs.valid par = true) (hdepth : depthAllowed par (under + 1 + cs.depth) = true) (hne : cs ≠ .nil)
    (harity : par.arityStage = .decode → op.isComparison = true → cs.length = 2) :
    (Frame.done (.op v op.code cs)).sound par under = true := by
  refine Frame.sound_done.2 ⟨Packet.valid_op_iff.2 ⟨⟨op, Opcode.ofTypeId_code op, hne, harity⟩, hcs⟩, ?_⟩
  rw [Packet.depth]
  refine depthAllowed_mono hdepth ?_
  omega

section Advances

variable {s : State} {f : Frame} {fs fs' : List Frame} {n : Nat}

theorem Advances.stackOk (h : Advances s f fs n fs') (hdepth : depthAllowed s.par (fs.length + 1) = true)
    (hstack : stackOk s.par (f :: fs) = true) : stackOk s.par fs' = true := by
  obtain ⟨hsound, hawait, hrest⟩ := stackOk_cons.1 hstack
  cases h with
  | literalHeader _ v _ => exact stackOk_cons.2 ⟨fits_zero s.par, hawait, hrest⟩
  | operatorHeader _ v op _ => exact stackOk_cons.2 ⟨rfl, hawait, hrest⟩
  | group _ v acc g _ hfits => exact stackOk_cons.2 ⟨hfits, hawait, hrest⟩
  | lastGroup _ v acc g _ hfits =>
    exact stackOk_cons.2 ⟨Frame.sound_done.2 ⟨by simpa [Packet.valid] using hfits, hdepth⟩, hawait, hrest⟩
  | openLength _ v op l _ => exact stackOk_cons.2 ⟨Frame.sound_fixed.2 ⟨rfl, hdepth⟩, hawait, hrest⟩
  | openCount _ v op k _ =>
    have hk : k.toNat + Packets.nil.length ≤ 2047 := Nat.le_of_lt_succ k.isLt
    exact stackOk_cons.2 ⟨Frame.sound_counted.2 ⟨⟨rfl, hdepth⟩, hk⟩, hawait, hrest⟩
  | push _ _ hf _ =>
    refine stackOk_cons.2 ⟨rfl, fun g hg => ?_, hstack⟩
    rcases List.mem_cons.1 hg with rfl | hg
    · exact hf
    · exact hawait g hg
  | completeLength _ v op target cs hne harity =>
    obtain ⟨hcs, hcsdepth⟩ := Frame.sound_fixed.1 hsound
    exact stackOk_cons.2 ⟨Frame.sound_done_of_children hcs hcsdepth hne harity, hawait, hrest⟩
  | completeCount _ v op k cs hne harity =>
    obtain ⟨⟨hcs, hcsdepth⟩, -⟩ := Frame.sound_counted.1 hsound
    exact stackOk_cons.2 ⟨Frame.sound_done_of_children hcs hcsdepth hne harity, hawait, hrest⟩
  | handToLength gs p v op target cs _ =>
    obtain ⟨hp, hpdepth⟩ := Frame.sound_done.1 hsound
    obtain ⟨hparent, hawait', hrest'⟩ := stackOk_cons.1 hrest
    obtain ⟨hcs, hcsdepth⟩ := Frame.sound_fixed.1 hparent
    exact stackOk_cons.2 ⟨Frame.sound_fixed.2 (children_snoc hcs hcsdepth hp hpdepth), hawait', hrest'⟩
  | handToCount gs p v op k cs =>
    obtain ⟨hp, hpdepth⟩ := Frame.sound_done.1 hsound
    obtain ⟨hparent, hawait', hrest'⟩ := stackOk_cons.1 hrest
    obtain ⟨⟨hcs, hcsdepth⟩, hk⟩ := Frame.sound_counted.1 hparent
    have hkpos : 0 < k := by simpa [Frame.awaits] using hawait _ List.mem_cons_self
    have hk' : k - 1 + (cs.snoc p).length ≤ 2047 := by
      rw [Packets.snoc_length]
      omega
    exact stackOk_cons.2
      ⟨Frame.sound_counted.2 ⟨children_snoc hcs hcsdepth hp hpdepth, hk'⟩, hawait', hrest'⟩

/-- Every packet on the stack is paid for by 11 bits read (30_encoding.md R79). -/
theorem Advances.stackWeight_le (h : Advances s f fs n fs') (hweight : stackWeight (f :: fs) ≤ s.cursor) :
    stackWeight fs' ≤ s.cursor + n := by
  cases h
  all_goals
    simp only [stackWeight, Frame.weight, Packets.snoc_size, Packet.size, Packets.size] at hweight ⊢
    omega

theorem Advances.depthAllowed (h : Advances s f fs n fs')
    (hdepth : Machine.depthAllowed s.par (fs.length + 1) = true) :
    Machine.depthAllowed s.par fs'.length = true := by
  cases h with
  | push _ _ _ hpush => exact hpush
  | handToLength | handToCount => exact depthAllowed_mono hdepth (by simp)
  | literalHeader | operatorHeader | group | lastGroup | openLength | openCount | completeLength
  | completeCount => exact hdepth

/-- A length-type-0 loop is opened and continued before its target (41_packet_decode.md R146, R150). -/
theorem Advances.topBeforeTarget (h : Advances s f fs n fs') :
    topBeforeTarget (moveTo (s.cursor + n) fs' s) = true := by
  cases h with
  | openLength => simp [Machine.topBeforeTarget]
  | handToLength _ _ _ _ _ _ htarget => simpa [Machine.topBeforeTarget] using htarget
  | literalHeader | operatorHeader | group | lastGroup | openCount | push | completeLength | completeCount
  | handToCount => rfl

end Advances

/-! ## The decoder's part of the invariant -/

/-- The rules of `decoderOk` for a running DECODE, one field each. -/
structure DecoderSound (s : State) : Prop where
  bitlen : s.bitlen ≤ 4 * s.par.inCap
  cursor : s.cursor ≤ s.bitlen
  depth : depthAllowed s.par s.frames.length = true
  stack : stackOk s.par s.frames = true
  target : topBeforeTarget s = true
  weight : stackWeight s.frames ≤ s.cursor

section DecoderOk

variable {s : State} {f : Frame} {fs : List Frame}

theorem decoderOk_running (hpending : s.pending = some .decode) (hframes : s.frames ≠ []) :
    decoderOk s = true ↔ DecoderSound s := by
  rw [decoderOk, if_pos hpending, if_neg hframes]
  simp only [Bool.and_eq_true, decide_eq_true_eq]
  constructor
  · rintro ⟨⟨⟨⟨⟨bitlen, cursor⟩, depth⟩, stack⟩, target⟩, weight⟩
    exact ⟨bitlen, cursor, depth, stack, target, weight⟩
  · rintro ⟨bitlen, cursor, depth, stack, target, weight⟩
    exact ⟨⟨⟨⟨⟨bitlen, cursor⟩, depth⟩, stack⟩, target⟩, weight⟩

theorem decoderOk_starting (hpending : s.pending = some .decode) (hframes : s.frames = []) :
    decoderOk s = true ↔ s.snap.length ≤ s.par.inCap := by
  simp [decoderOk, hpending, hframes]

theorem decoderOk_resting (hpending : s.pending ≠ some .decode) : decoderOk s = true ↔ s.frames = [] := by
  simp [decoderOk, hpending]

theorem DecoderSound.advance (h : DecoderSound s) (hframes : s.frames = f :: fs) {n : Nat} {fs' : List Frame}
    (hadv : Advances s f fs n fs') : DecoderSound (moveTo (s.cursor + n) fs' s) := by
  have hdepth := h.depth
  have hstack := h.stack
  have hweight := h.weight
  rw [hframes] at hdepth hstack hweight
  exact
    { bitlen := h.bitlen
      cursor := hadv.cursor_le h.cursor
      depth := hadv.depthAllowed hdepth
      stack := hadv.stackOk hdepth hstack
      target := hadv.topBeforeTarget
      weight := hadv.stackWeight_le hweight }

end DecoderOk

theorem Advances.ne_nil {s : State} {f : Frame} {fs fs' : List Frame} {n : Nat} (h : Advances s f fs n fs') :
    fs' ≠ [] := by
  cases h <;> simp

/-! ## The whole invariant -/

/-- The parts of `Inv`, one field each. -/
structure Sound (s : State) : Prop where
  legal : s.par.legal = true
  registers : registersOk s = true
  tree : treeOk s = true
  decoder : decoderOk s = true
  result : fits s.par s.result = true
  errPos : fits s.par s.errPos = true

theorem inv_iff {s : State} : Inv s = true ↔ Sound s := by
  simp only [Inv, valuesOk, Bool.and_eq_true]
  constructor
  · rintro ⟨⟨⟨⟨legal, registers⟩, tree⟩, decoder⟩, result, errPos⟩
    exact ⟨legal, registers, tree, decoder, result, errPos⟩
  · rintro ⟨legal, registers, tree, decoder, result, errPos⟩
    exact ⟨⟨⟨⟨legal, registers⟩, tree⟩, decoder⟩, result, errPos⟩

theorem treeOk_some {s : State} {p : Packet} (htree : s.tree = some p) :
    treeOk s = true ↔
      (p.valid s.par = true ∧ depthAllowed s.par p.depth = true) ∧ 11 * p.size ≤ 4 * s.par.inCap := by
  simp [treeOk, htree]

section Sound

variable {s : State} {f : Frame} {fs : List Frame}

theorem Sound.decoderSound (h : Sound s) (hpending : s.pending = some .decode) (hframes : s.frames = f :: fs) :
    DecoderSound s :=
  (decoderOk_running hpending (by simp [hframes])).1 h.decoder

theorem Sound.raise (h : Sound s) (hpending : s.pending ≠ none) (e : ErrorClass) {pos : Nat}
    (hpos : pos ≤ 4 * s.par.inCap) : Sound (Machine.raise e pos s) where
  legal := h.legal
  registers := registersOk_raise h.registers hpending e pos
  tree := h.tree
  decoder := (decoderOk_resting (by simp)).2 rfl
  result := fits_zero s.par
  errPos := fits_of_legal h.legal hpos

theorem Sound.completeOk (h : Sound s) {c : Command} (hpending : s.pending = some c) (hc : c ≠ .decode) {r : Nat}
    (hr : fits s.par r = true) : Sound (Machine.completeOk r s) where
  legal := h.legal
  registers := registersOk_completeOk h.registers (by simp [hpending]) r
  tree := h.tree
  decoder := (decoderOk_resting (by simp)).2
    ((decoderOk_resting (s := s) (by simp [hpending, hc])).1 h.decoder)
  result := hr
  errPos := fits_zero s.par

theorem Sound.completeDecode (h : Sound s) {p : Packet} (hpending : s.pending = some .decode)
    (hframes : s.frames = [.done p]) : Sound (Machine.completeDecode p s) := by
  obtain ⟨hbitlen, hcursor, -, hstack, -, hweight⟩ := h.decoderSound hpending hframes
  rw [hframes] at hstack hweight
  obtain ⟨hsound, -, -⟩ := stackOk_cons.1 hstack
  obtain ⟨hvalid, hdepth⟩ := Frame.sound_done.1 hsound
  have hsize : 11 * p.size ≤ 4 * s.par.inCap := by
    simp only [stackWeight, Frame.weight] at hweight
    omega
  have hdepth' : depthAllowed s.par p.depth = true := by simpa using hdepth
  exact
    { legal := h.legal
      registers := registersOk_completeDecode h.registers (by simp [hpending]) p
      tree := (treeOk_some rfl).2 ⟨⟨hvalid, hdepth'⟩, hsize⟩
      decoder := (decoderOk_resting (by simp)).2 rfl
      result := fits_of_legal h.legal (hcursor.trans hbitlen)
      errPos := fits_zero s.par }

/-- A move of the decoder touches nothing but CURSOR and FRAMES. -/
theorem Sound.moveTo (h : Sound s) {c : Nat} {fs' : List Frame} (hpending : s.pending = some .decode)
    (hne : fs' ≠ []) (hdecoder : DecoderSound (Machine.moveTo c fs' s)) : Sound (Machine.moveTo c fs' s) where
  legal := h.legal
  registers := h.registers
  tree := h.tree
  decoder := (decoderOk_running (s := Machine.moveTo c fs' s) hpending hne).2 hdecoder
  result := h.result
  errPos := h.errPos

theorem Sound.microStep {t : State} (h : Sound s) (hpending : s.pending = some .decode)
    (hframes : s.frames = f :: fs) (hmicro : MicroStep s f fs t) : Sound t := by
  have hdecoder := h.decoderSound hpending hframes
  cases hmicro with
  | advances hadv => exact h.moveTo hpending hadv.ne_nil (hdecoder.advance hframes hadv)
  | completes p => exact h.completeDecode hpending hframes
  | @raises _ _ e c _ _ hle =>
    rw [max_eq_right hdecoder.cursor] at hle
    have hraise := h.raise (by simp [hpending]) e (hle.trans hdecoder.bitlen)
    exact
      { legal := h.legal
        registers := hraise.registers
        tree := h.tree
        decoder := (decoderOk_resting (by simp)).2 rfl
        result := hraise.result
        errPos := hraise.errPos }

theorem Sound.startDecode (h : Sound s) (hpending : s.pending = some .decode) (hframes : s.frames = []) :
    Sound (Machine.startDecode s) := by
  have hsnap := (decoderOk_starting hpending hframes).1 h.decoder
  rcases convertInput_cases s.snap with ⟨j, hj, hlt⟩ | ⟨bs, hbs, hlen⟩
  · have hraise : Machine.startDecode s = Machine.raise .hexDecode j s := by simp [Machine.startDecode, hj]
    rw [hraise]
    exact h.raise (by simp [hpending]) _ (by omega)
  · rw [startDecode_of_ok hbs]
    have hdecoder : DecoderSound { s with bits := bs, cursor := 0, frames := [.readHeader] } :=
      { bitlen := hlen.trans (Nat.mul_le_mul_left 4 hsnap)
        cursor := Nat.zero_le _
        depth := depthAllowed_one_of_legal h.legal
        stack := rfl
        target := rfl
        weight := le_rfl }
    exact
      { legal := h.legal
        registers := h.registers
        tree := h.tree
        decoder := (decoderOk_running
          (s := { s with bits := bs, cursor := 0, frames := [.readHeader] }) hpending (by simp)).2 hdecoder
        result := h.result
        errPos := h.errPos }

/-- A tree of the invariant: it is valid, and every index of it and its version sum fit. -/
theorem Sound.tree_facts (h : Sound s) {p : Packet} (htree : s.tree = some p) :
    p.valid s.par = true ∧ 11 * p.size ≤ 4 * s.par.inCap := by
  obtain ⟨⟨hvalid, -⟩, hsize⟩ := (treeOk_some htree).1 h.tree
  exact ⟨hvalid, hsize⟩

theorem Sound.sumVersions (h : Sound s) {t : State} (hpending : s.pending = some .sumVersions)
    (hexec : execSumVersions s = .next t) : Sound t := by
  rcases execSumVersions_cases s with ⟨-, heq⟩ | ⟨p, htree, heq⟩
  · obtain rfl := Host.Outcome.next.inj (heq.symm.trans hexec)
    exact h.raise (by simp [hpending]) _ (Nat.zero_le _)
  · obtain rfl := Host.Outcome.next.inj (heq.symm.trans hexec)
    obtain ⟨-, hsize⟩ := h.tree_facts htree
    have hsum := sumOfVersions_le p
    exact h.completeOk hpending (by simp) (fits_of_legal h.legal (by omega))

/-- What EVALUATE does in the invariant: NO_TREE without a tree, else a value that fits or an error of
`evaluateErrors`. -/
theorem Sound.execEvaluate_cases (h : Sound s) :
    (s.tree = none ∧ execEvaluate s = .next (Machine.raise .noTree 0 s)) ∨
    (∃ v, fits s.par v = true ∧ execEvaluate s = .next (Machine.completeOk v s)) ∨
    (∃ e pos, evaluateErrors s.par e ∧ pos ≤ 4 * s.par.inCap ∧
      execEvaluate s = .next (Machine.raise e pos s)) := by
  cases htree : s.tree with
  | none => exact .inl ⟨rfl, by simp [execEvaluate, htree]⟩
  | some p =>
    obtain ⟨hvalid, hsize⟩ := h.tree_facts htree
    rcases execEvaluate_of_valid htree hvalid with ⟨v, hfits, heq⟩ | ⟨e, pos, he, hpos, heq⟩
    · exact .inr (.inl ⟨v, hfits, heq⟩)
    · exact .inr (.inr ⟨e, pos, he, by omega, heq⟩)

theorem Sound.evaluate (h : Sound s) {t : State} (hpending : s.pending = some .evaluate)
    (hexec : execEvaluate s = .next t) : Sound t := by
  rcases h.execEvaluate_cases with ⟨-, heq⟩ | ⟨v, hfits, heq⟩ | ⟨e, pos, -, hpos, heq⟩
  · obtain rfl := Host.Outcome.next.inj (heq.symm.trans hexec)
    exact h.raise (by simp [hpending]) _ (Nat.zero_le _)
  · obtain rfl := Host.Outcome.next.inj (heq.symm.trans hexec)
    exact h.completeOk hpending (by simp) hfits
  · obtain rfl := Host.Outcome.next.inj (heq.symm.trans hexec)
    exact h.raise (by simp [hpending]) _ hpos

theorem Sound.engineStep {t : State} (h : Sound s) (hstep : Machine.engineStep s = .next t) : Sound t := by
  rcases engineStep_next_cases hstep with ⟨-, rfl⟩ | ⟨f, fs, hpending, hframes, hmicro⟩ |
    ⟨hpending, hframes, rfl⟩ | ⟨hpending, hsum⟩ | ⟨hpending, heval⟩
  · exact h
  · exact h.microStep hpending hframes hmicro
  · exact h.startDecode hpending hframes
  · exact h.sumVersions hpending hsum
  · exact h.evaluate hpending heval

/-! ## Host accesses -/

/-- With no command in progress the decoder rests. -/
theorem Sound.frames_of_not_busy (h : Sound s) (hfree : s.status.state ≠ .busy) : s.frames = [] := by
  have hnone := (registersOk_not_busy_iff h.registers).1 hfree
  exact (decoderOk_resting (by simp [hnone])).1 h.decoder

theorem decoderOk_of_no_frames (hframes : s.frames = []) (hsnap : s.pending = some .decode →
    s.snap.length ≤ s.par.inCap) : decoderOk s = true := by
  by_cases hpending : s.pending = some .decode
  · exact (decoderOk_starting hpending hframes).2 (hsnap hpending)
  · exact (decoderOk_resting hpending).2 hframes

theorem Sound.accept (h : Sound s) (hfree : s.status.state ≠ .busy) (c : Command) :
    Sound (Machine.accept c s) where
  legal := by simpa using h.legal
  registers := registersOk_accept h.registers c
  tree := by
    cases c with
    | decode => rfl
    | sumVersions | evaluate => exact h.tree
  decoder := by
    refine decoderOk_of_no_frames (by simpa using h.frames_of_not_busy hfree) fun hpending => ?_
    obtain rfl : c = .decode := by simpa using hpending
    rw [accept_snap, if_pos rfl, readRun_length, accept_par]
    exact (registersOk_iff.1 h.registers).inLen
  result := by simpa using h.result
  errPos := by simpa using h.errPos

theorem Sound.resetEvent (h : Sound s) : Sound (Machine.resetEvent s) where
  legal := h.legal
  registers := registersOk_resetEvent s
  tree := rfl
  decoder := rfl
  result := fits_zero s.par
  errPos := fits_zero s.par

theorem Sound.hostChange {t : State} {a : HostAction} (h : Sound s) (hchange : HostChange s a t)
    (hexists : ∀ i ∈ a.index s.par.busMap, i < s.par.inCap) : Sound t := by
  have hregisters := hchange.registersOk h.registers hexists
  cases hchange with
  | accepts _ c hfree => exact h.accept hfree c
  | resets => exact h.resetEvent
  | nothing | rejects | setsInLen | setsInBuf | reads =>
    exact ⟨h.legal, hregisters, h.tree, h.decoder, h.result, h.errPos⟩

end Sound

/-- The entry of the host's list that a step uses up is no part of the invariant. -/
theorem Sound.withHost {s : State} (h : Sound s) (rest : List HostAction) : Sound { s with host := rest } :=
  ⟨h.legal, h.registers, h.tree, h.decoder, h.result, h.errPos⟩

/-- Settles O59: the parts of the invariant under an engine step and under a host access. -/
theorem stepKeepsInvariant : Obligations.StepKeepsInvariant := by
  unfold Obligations.StepKeepsInvariant
  intro s t hinv hstep
  have h := inv_iff.1 hinv
  refine inv_iff.2 ?_
  rcases step_next_cases hstep with ⟨rest, hengine⟩ | ⟨a, rest, hexists, hchange⟩
  · exact (h.withHost rest).engineStep hengine
  · exact (h.withHost rest).hostChange hchange hexists

/-! ## No stop -/

theorem leaveFrame_of_awaits {p : Packet} {g : Frame} {gs : List Frame} (s : State) (hg : g.awaits = true) :
    ∃ t, leaveFrame p (g :: gs) s = .next t := by
  cases g with
  | fixedBitLengthChildrenLoop v op target cs =>
    by_cases hlt : target < s.cursor
    · exact ⟨_, if_pos hlt⟩
    · exact ⟨_, if_neg hlt⟩
  | countedChildrenLoop v op n cs => exact ⟨_, rfl⟩
  | readHeader | literalGroupLoop | operatorLengthModeSelect | done => simp [Frame.awaits] at hg

theorem Sound.microStep_exists {s : State} {f : Frame} {fs : List Frame} (h : Sound s)
    (hpending : s.pending = some .decode) (hframes : s.frames = f :: fs) :
    ∃ t, Machine.engineStep s = .next t := by
  cases f with
  | readHeader => exact ⟨_, engineStep_readHeader hpending hframes⟩
  | literalGroupLoop v acc => exact ⟨_, engineStep_literalGroupLoop hpending hframes⟩
  | operatorLengthModeSelect v op =>
    obtain ⟨t, ht, -⟩ := microStep_lengthMode hpending hframes
    exact ⟨t, ht⟩
  | fixedBitLengthChildrenLoop v op target cs => exact ⟨_, engineStep_fixedLoop hpending hframes⟩
  | countedChildrenLoop v op n cs => exact ⟨_, engineStep_countedLoop hpending hframes⟩
  | done p =>
    rw [engineStep_done hpending hframes]
    cases fs with
    | nil => exact ⟨_, rfl⟩
    | cons g gs =>
      have hstack := (h.decoderSound hpending hframes).stack
      rw [hframes] at hstack
      obtain ⟨-, hawait, -⟩ := stackOk_cons.1 hstack
      exact leaveFrame_of_awaits s (hawait g List.mem_cons_self)

theorem Sound.engineStep_exists {s : State} (h : Sound s) : ∃ t, Machine.engineStep s = .next t := by
  rcases engineTurn_cases s with ⟨hpending, -⟩ | ⟨f, fs, hpending, hframes, -⟩ | ⟨c, -, -, hturn⟩
  · exact ⟨s, engineStep_of_none hpending⟩
  · exact h.microStep_exists hpending hframes
  · rw [Machine.engineStep, hturn]
    cases c with
    | decode => exact ⟨_, rfl⟩
    | sumVersions =>
      rcases execSumVersions_cases s with ⟨-, heq⟩ | ⟨p, -, heq⟩
      · exact ⟨_, heq⟩
      · exact ⟨_, heq⟩
    | evaluate =>
      rcases h.execEvaluate_cases with ⟨-, heq⟩ | ⟨v, -, heq⟩ | ⟨e, pos, -, -, heq⟩
      · exact ⟨_, heq⟩
      · exact ⟨_, heq⟩
      · exact ⟨_, heq⟩

theorem hostOk_cons {s : State} {a : HostAction} {rest : List HostAction} (h : hostOk s = true)
    (hhost : s.host = a :: rest) : ∀ i ∈ a.index s.par.busMap, i < s.par.inCap := by
  rw [hostOk, hhost, List.all_cons, Bool.and_eq_true] at h
  obtain ⟨ha, -⟩ := h
  intro i hi
  rw [Option.mem_def] at hi
  simpa [hi] using ha

/-- Settles O60: the engine stops at no sound stack and no valid tree, and the host's index exists. -/
theorem stepNeverStops : Obligations.StepNeverStops := by
  unfold Obligations.StepNeverStops
  intro s hinv hhostOk
  have h := inv_iff.1 hinv
  rcases step_cases s with ⟨-, heq⟩ | ⟨rest, -, heq⟩ | ⟨a, rest, hhost, -, heq⟩
  · rw [heq]
    exact h.engineStep_exists
  · rw [heq]
    exact (h.withHost rest).engineStep_exists
  · have hexists := hostOk_cons hhostOk hhost
    exact ⟨_, heq.trans (hostAccess_next.2 ⟨hexists, rfl⟩)⟩

/-! ## Each command's errors -/

theorem toErr_mem_of_decodeErrors {par : Params} {e : ErrorClass} (h : decodeErrors par e) :
    e.toErr ∈ [ErrorClass.hexDecode.toErr, ErrorClass.truncatedStream.toErr, ErrorClass.overflow.toErr,
      (ErrorClass.structural .len0Overshoot).toErr, (ErrorClass.structural .zeroChildren).toErr,
      (ErrorClass.structural .depthLimit).toErr] ∨
    (e.toErr = (ErrorClass.structural .cmpArity).toErr ∧ par.arityStage = .decode) := by
  rcases h with hmem | ⟨rfl, hstage⟩
  · simp only [List.mem_cons, List.not_mem_nil, or_false] at hmem
    left
    rcases hmem with rfl | rfl | rfl | rfl | rfl <;> decide
  · exact .inr ⟨rfl, hstage⟩

/-- Settles O42: a step that ends in ERROR is the one that raised, since a pending command is BUSY before it. -/
theorem eachCommandHasItsOwnErrors : Obligations.EachCommandHasItsOwnErrors := by
  unfold Obligations.EachCommandHasItsOwnErrors
  intro s t c hinv hhost hpending hstep hstate
  have h := inv_iff.1 hinv
  have hregs := registersOk_iff.1 h.registers
  have hbusy : s.status.state = .busy := hregs.busy.2 (by simp [hpending])
  rw [step_of_host_nil hhost] at hstep
  have hpend {c' : Command} (hc' : s.pending = some c') : c = c' :=
    Option.some.inj (hpending.symm.trans hc')
  rcases engineStep_next_cases hstep with ⟨hnone, -⟩ | ⟨f, fs, hdecode, hframes, hmicro⟩ |
    ⟨hdecode, hframes, rfl⟩ | ⟨hquery, hexec⟩ | ⟨hquery, hexec⟩
  · simp [hpending] at hnone
  · obtain rfl := hpend hdecode
    have htree := hregs.decode hdecode
    have hvalid := hregs.treeValid
    cases hmicro with
    | advances _ => simp [hbusy] at hstate
    | completes p => simp at hstate
    | raises herr _ _ => exact ⟨htree, by simpa [htree] using hvalid, toErr_mem_of_decodeErrors herr⟩
  · obtain rfl := hpend hdecode
    have htree := hregs.decode hdecode
    have hvalid := hregs.treeValid
    rcases startDecode_cases s with ⟨bs, -, heq⟩ | ⟨j, -, heq⟩
    · rw [heq] at hstate
      simp [hbusy] at hstate
    · rw [heq]
      exact ⟨htree, by simpa [htree] using hvalid, .inl (by simp)⟩
  · obtain rfl := hpend hquery
    rcases execSumVersions_cases s with ⟨-, heq⟩ | ⟨p, -, heq⟩
    · obtain rfl := Host.Outcome.next.inj (heq.symm.trans hexec)
      rfl
    · obtain rfl := Host.Outcome.next.inj (heq.symm.trans hexec)
      simp at hstate
  · obtain rfl := hpend hquery
    rcases h.execEvaluate_cases with ⟨-, heq⟩ | ⟨v, -, heq⟩ | ⟨e, pos, rfl | ⟨rfl, hstage⟩, -, heq⟩
    · obtain rfl := Host.Outcome.next.inj (heq.symm.trans hexec)
      exact .inl rfl
    · obtain rfl := Host.Outcome.next.inj (heq.symm.trans hexec)
      simp at hstate
    · obtain rfl := Host.Outcome.next.inj (heq.symm.trans hexec)
      exact .inr (.inl rfl)
    · obtain rfl := Host.Outcome.next.inj (heq.symm.trans hexec)
      exact .inr (.inr ⟨rfl, hstage⟩)

end Sys2Proof.Machine
end

section
/-! Runs of a DECODE (41_packet_decode.md R153, 43_host_commands.md R200): a measure that every micro-step lowers,
which bounds the steps of a DECODE by its stream, and with the invariant the completion of every command. -/

namespace Sys2Proof.Machine

/-! ## Runs -/

theorem runSteps_rest {s : State} (hhost : s.host = []) (hpending : s.pending = none) :
    ∀ n, runSteps n s = .next s
  | 0 => rfl
  | n + 1 => by
    rw [runSteps_succ_of_step n (engineRestsWhenNothingIsPending s hhost hpending)]
    exact runSteps_rest hhost hpending n

theorem runSteps_succ_next {n : Nat} {s u : State} (h : runSteps (n + 1) s = .next u) :
    ∃ t, step s = .next t ∧ runSteps n t = .next u := by
  rw [runSteps] at h
  split at h
  · rename_i t ht
    exact ⟨t, ht, h⟩
  · simp at h
  · simp at h

theorem runSteps_add {n : Nat} {s t : State} (m : Nat) (h : runSteps n s = .next t) :
    runSteps (n + m) s = runSteps m t := by
  induction n generalizing s with
  | zero =>
    obtain rfl := Host.Outcome.next.inj h
    rw [Nat.zero_add]
  | succ n ih =>
    obtain ⟨u, hu, hrun⟩ := runSteps_succ_next h
    rw [Nat.succ_add, runSteps_succ_of_step (n + m) hu, ih hrun]

/-! ## The work that is left -/

/-- The micro-steps a frame on top can still take on its own, beyond the bits it reads. -/
def Frame.work : Frame → Nat
  | .readHeader => 0
  | .literalGroupLoop _ _ => 0
  | .operatorLengthModeSelect _ _ => 0
  | .fixedBitLengthChildrenLoop _ _ _ _ => 3
  | .countedChildrenLoop _ _ _ _ => 3
  | .done _ => 2

/-- The same for a stack: a frame under the top one takes two more steps, since its child comes back to it. -/
def stackWork : List Frame → Nat
  | [] => 0
  | f :: fs => f.work + 2 * fs.length

/-- The unread bits and the work of the stack. -/
def workLeft (s : State) : Nat :=
  (s.bitlen - s.cursor) + stackWork s.frames

theorem Frame.work_le (f : Frame) : f.work ≤ 3 := by
  cases f <;> simp [Frame.work]

theorem Frame.work_of_awaits {f : Frame} (h : f.awaits = true) : f.work = 3 := by
  cases f with
  | fixedBitLengthChildrenLoop | countedChildrenLoop => rfl
  | readHeader | literalGroupLoop | operatorLengthModeSelect | done => simp [Frame.awaits] at h

theorem Advances.work_lt {s : State} {f : Frame} {fs fs' : List Frame} {n : Nat} (h : Advances s f fs n fs') :
    (s.bitlen - (s.cursor + n)) + stackWork fs' < (s.bitlen - s.cursor) + stackWork (f :: fs) := by
  cases h with
  | push _ _ hawaits _ =>
    have hf := Frame.work_of_awaits hawaits
    have hheader : Frame.readHeader.work = 0 := rfl
    simp only [stackWork, List.length_cons]
    omega
  | literalHeader | operatorHeader | group | lastGroup | openLength | openCount | completeLength
  | completeCount | handToLength | handToCount =>
    simp only [stackWork, Frame.work, List.length_cons]
    omega

/-- A micro-step ends the DECODE, or leaves less work. -/
theorem MicroStep.work_lt {s t : State} {f : Frame} {fs : List Frame} (h : MicroStep s f fs t)
    (hframes : s.frames = f :: fs) :
    t.pending = none ∨
    (t.pending = s.pending ∧ (∃ f' fs', t.frames = f' :: fs') ∧ workLeft t < workLeft s) := by
  cases h with
  | advances hadv =>
    refine .inr ⟨rfl, List.exists_cons_of_ne_nil hadv.ne_nil, ?_⟩
    have hlt := hadv.work_lt
    rw [← hframes] at hlt
    exact hlt
  | completes p => exact .inl rfl
  | raises _ _ _ => exact .inl rfl

theorem MicroStep.host_eq {s t : State} {f : Frame} {fs : List Frame} (h : MicroStep s f fs t) :
    t.host = s.host := by
  cases h <;> rfl

/-- If a DECODE ends at all, it has ended after more steps than there was work. -/
theorem runSteps_of_workLeft_lt {u : State} (hu : u.pending = none) :
    ∀ {n m : Nat} {s : State} {f : Frame} {fs : List Frame}, s.decoding f fs → workLeft s < n →
      runSteps m s = .next u → runSteps n s = .next u
  | 0, _, _, _, _, _, hlt, _ => absurd hlt (Nat.not_lt_zero _)
  | n + 1, 0, s, f, fs, hs, _, hrun => by
    obtain ⟨-, hpending, -⟩ := hs
    obtain rfl := Host.Outcome.next.inj hrun
    simp [hu] at hpending
  | n + 1, m + 1, s, f, fs, hs, hlt, hrun => by
    obtain ⟨hhost, hpending, hframes⟩ := id hs
    obtain ⟨t, ht, hrun'⟩ := runSteps_succ_next hrun
    rw [runSteps_succ_of_step n ht]
    rw [step_of_decoding hs] at ht
    have hmicro := microStep_of_engineStep hpending hframes ht
    have hhost' : t.host = [] := hmicro.host_eq.trans hhost
    rcases hmicro.work_lt hframes with hdone | ⟨hkept, ⟨f', fs', hframes'⟩, hless⟩
    · rw [runSteps_rest hhost' hdone m] at hrun'
      rw [runSteps_rest hhost' hdone n]
      exact hrun'
    · exact runSteps_of_workLeft_lt hu ⟨hhost', hkept.trans hpending, hframes'⟩ (by omega) hrun'

/-! ## Every command completes -/

/-- Every frame that awaits a child has a weight of at least 11, which pays for its work. -/
theorem length_le_stackWeight : ∀ {fs : List Frame}, (∀ g ∈ fs, g.awaits = true) → 2 * fs.length ≤ stackWeight fs
  | [], _ => le_rfl
  | f :: fs, h => by
    have hrest := length_le_stackWeight fun g hg => h g (List.mem_cons_of_mem f hg)
    have hf : 11 ≤ f.weight := by
      have hawaits := h f List.mem_cons_self
      cases f with
      | fixedBitLengthChildrenLoop | countedChildrenLoop => simp [Frame.weight]
      | readHeader | literalGroupLoop | operatorLengthModeSelect | done => simp [Frame.awaits] at hawaits
    rw [List.length_cons, stackWeight]
    omega

theorem DecoderSound.workLeft_le {s : State} (h : DecoderSound s) : workLeft s ≤ 4 * s.par.inCap + 3 := by
  obtain ⟨hbitlen, hcursor, -, hstack, -, hweight⟩ := h
  have hwork : stackWork s.frames ≤ s.cursor + 3 := by
    cases hframes : s.frames with
    | nil => simp [stackWork]
    | cons f fs =>
      rw [hframes] at hstack hweight
      obtain ⟨-, hawait, -⟩ := stackOk_cons.1 hstack
      have hlen := length_le_stackWeight hawait
      have hf := f.work_le
      rw [stackWeight] at hweight
      rw [stackWork]
      omega
  rw [workLeft]
  omega

/-- A completing step followed by any number of steps at rest. -/
theorem runSteps_of_completing {s t : State} (hhost : s.host = []) (hpending : s.pending ≠ none)
    (hstep : step s = .next t) (hhost' : t.host = []) (hdone : t.pending = none) (n : Nat) :
    ∃ t, runSteps (n + 1) s = .next t ∧ Completed t := by
  refine ⟨t, ?_, ?_⟩
  · rw [runSteps_succ_of_step n hstep, runSteps_rest hhost' hdone n]
  · rw [step_of_host_nil hhost] at hstep
    rcases engineStep_keeps_or_completes hpending hstep with ⟨hkept, -⟩ | hcompleted
    · exact absurd (hkept.symm.trans hdone) hpending
    · exact hcompleted

/-- A sound DECODE at work completes in more steps than there is work. -/
theorem Sound.decoding_completes :
    ∀ {n : Nat} {s : State} {f : Frame} {fs : List Frame}, Sound s → s.decoding f fs → workLeft s < n →
      ∃ t, runSteps n s = .next t ∧ Completed t
  | 0, _, _, _, _, _, hlt => absurd hlt (Nat.not_lt_zero _)
  | n + 1, s, f, fs, h, hs, hlt => by
    obtain ⟨hhost, hpending, hframes⟩ := id hs
    obtain ⟨t, ht⟩ := h.engineStep_exists
    have hmicro := microStep_of_engineStep hpending hframes ht
    have hhost' : t.host = [] := hmicro.host_eq.trans hhost
    have hstep := (step_of_decoding hs).trans ht
    rcases hmicro.work_lt hframes with hdone | ⟨hkept, ⟨f', fs', hframes'⟩, hless⟩
    · exact runSteps_of_completing hhost (by simp [hpending]) hstep hhost' hdone n
    · rw [runSteps_succ_of_step n hstep]
      exact decoding_completes (h.engineStep ht) ⟨hhost', hkept.trans hpending, hframes'⟩ (by omega)

/-- A query is one step. -/
theorem query_completes {s t : State} {i : Instr} (hi : i ∈ [Instr.sumVersions, Instr.evaluate])
    (hexec : exec i s = .next t) : t.pending = none ∧ t.host = s.host := by
  rcases exec_query_cases hi hexec with ⟨r, rfl, -⟩ | ⟨e, pos, rfl, -⟩ <;> exact ⟨rfl, rfl⟩

/-- Settles O43: a query completes in one step, and a DECODE converts its input and then uses up its work. -/
theorem everyCommandCompletes : Obligations.EveryCommandCompletes := by
  unfold Obligations.EveryCommandCompletes
  intro s hinv hhost hpending
  have h := inv_iff.1 hinv
  obtain ⟨t, ht⟩ := h.engineStep_exists
  have hstep := (step_of_host_nil hhost).trans ht
  have hnext := h.engineStep ht
  rcases engineStep_next_cases ht with ⟨hnone, -⟩ | ⟨f, fs, hdecode, hframes, -⟩ |
    ⟨hdecode, hframes, heq⟩ | ⟨-, hexec⟩ | ⟨-, hexec⟩
  · exact absurd hnone hpending
  · have hwork := (h.decoderSound hdecode hframes).workLeft_le
    exact h.decoding_completes ⟨hhost, hdecode, hframes⟩ (by omega)
  · rcases startDecode_cases s with ⟨bs, -, hok⟩ | ⟨j, -, herr⟩
    · obtain rfl := heq.trans hok
      have hwork := (hnext.decoderSound (f := .readHeader) (fs := []) hdecode rfl).workLeft_le
      rw [runSteps_succ_of_step (8 * s.par.inCap + 7) hstep]
      exact hnext.decoding_completes ⟨hhost, hdecode, rfl⟩ (by simp only at hwork ⊢; omega)
    · obtain rfl := heq.trans herr
      exact runSteps_of_completing hhost hpending hstep hhost rfl _
  · obtain ⟨hdone, hhost'⟩ := query_completes (i := .sumVersions) (by simp) hexec
    exact runSteps_of_completing hhost hpending hstep (hhost'.trans hhost) hdone _
  · obtain ⟨hdone, hhost'⟩ := query_completes (i := .evaluate) (by simp) hexec
    exact runSteps_of_completing hhost hpending hstep (hhost'.trans hhost) hdone _

end Sys2Proof.Machine
end

section
/-! The command level of DECODE (41_packet_decode.md section 1): what each recursive function answers by what stands in
the stream, and from those that a decode depends on its own bits only and never lacks fuel. -/

namespace Sys2Proof.Machine

/-! ## The readers by the stream -/

theorem readField_of_some {bits : Bits} {n c v : Nat} (h : readAt bits c n = some v) :
    readField bits n c = .ok (v, c + n) := by
  simp [readField, h]

theorem readField_of_none {bits : Bits} {n c : Nat} (h : readAt bits c n = none) :
    readField bits n c = .error (.raised .truncatedStream c) := by
  simp [readField, h]

/-- An Operator's end over its children (41_packet_decode.md R127, R133). -/
def finishOperator (par : Params) (ver : Version) (op : Opcode) :
    Except ReadStop (Packets × Nat) → Except ReadStop (Packet × Nat)
  | .error e => .error e
  | .ok (cs, c) => completeOperator par ver op cs c

/-- What follows a header: the groups of a Literal or the children of an Operator (41_packet_decode.md R121). -/
def readForm (par : Params) (bits : Bits) (ver : Version) (t : TypeId) (k d c : Nat) :
    Except ReadStop (Packet × Nat) :=
  match Opcode.ofTypeId t with
  | none => readLiteral par bits ver k 0 c
  | some op => finishOperator par ver op (readChildren par bits k d c)

section Readers

variable {par : Params} {bits : Bits} {k d c : Nat}

theorem readForm_literal {t : TypeId} (ver : Version) (ht : Opcode.ofTypeId t = none) :
    readForm par bits ver t k d c = readLiteral par bits ver k 0 c := by
  simp [readForm, ht]

theorem readForm_operator {t : TypeId} {op : Opcode} (ver : Version) (ht : Opcode.ofTypeId t = some op) :
    readForm par bits ver t k d c = finishOperator par ver op (readChildren par bits k d c) := by
  simp [readForm, ht]

theorem readPacket_of_reads {v t : Nat} (hdepth : depthAllowed par d = true)
    (hv : readAt bits c 3 = some v) (ht : readAt bits (c + 3) 3 = some t) :
    readPacket par bits (k + 1) d c =
      readForm par bits (BitVec.ofNat 3 v) (BitVec.ofNat 3 t) k d (c + 6) := by
  simp only [readPacket, if_pos hdepth, readField_of_some hv, readField_of_some ht, readForm]
  cases Opcode.ofTypeId (BitVec.ofNat 3 t) with
  | none => rfl
  | some op =>
    simp only [Nat.add_assoc, Nat.reduceAdd]
    cases readChildren par bits k d (c + 6) <;> rfl

theorem readPacket_of_cut_version (hdepth : depthAllowed par d = true) (hv : readAt bits c 3 = none) :
    readPacket par bits (k + 1) d c = .error (.raised .truncatedStream c) := by
  simp only [readPacket, if_pos hdepth, readField_of_none hv]

theorem readPacket_of_cut_type {v : Nat} (hdepth : depthAllowed par d = true) (hv : readAt bits c 3 = some v)
    (ht : readAt bits (c + 3) 3 = none) :
    readPacket par bits (k + 1) d c = .error (.raised .truncatedStream (c + 3)) := by
  simp only [readPacket, if_pos hdepth, readField_of_some hv, readField_of_none ht]

theorem readPacket_of_too_deep (hdepth : depthAllowed par d = false) :
    readPacket par bits (k + 1) d c = .error (.raised (.structural .depthLimit) c) := by
  simp [readPacket, hdepth]

section Literal

variable {ver : Version} {acc i g : Nat}

theorem readLiteral_of_last (hi : readAt bits c 1 = some 0) (hg : readAt bits (c + 1) 4 = some g)
    (hfits : fits par (16 * acc + g) = true) :
    readLiteral par bits ver (k + 1) acc c = .ok (.lit ver (16 * acc + g), c + 5) := by
  simp only [readLiteral, readField_of_some hi, readField_of_some hg, if_pos hfits, if_pos]

theorem readLiteral_of_more (hi : readAt bits c 1 = some i) (hi0 : i ≠ 0)
    (hg : readAt bits (c + 1) 4 = some g) (hfits : fits par (16 * acc + g) = true) :
    readLiteral par bits ver (k + 1) acc c = readLiteral par bits ver k (16 * acc + g) (c + 5) := by
  simp only [readLiteral, readField_of_some hi, readField_of_some hg, if_pos hfits, if_neg hi0]

theorem readLiteral_of_not_fits (hi : readAt bits c 1 = some i) (hg : readAt bits (c + 1) 4 = some g)
    (hfits : fits par (16 * acc + g) = false) :
    readLiteral par bits ver (k + 1) acc c = .error (.raised .overflow (c + 5)) := by
  simp [readLiteral, readField_of_some hi, readField_of_some hg, hfits]

theorem readLiteral_of_cut_flag (hi : readAt bits c 1 = none) :
    readLiteral par bits ver (k + 1) acc c = .error (.raised .truncatedStream c) := by
  simp only [readLiteral, readField_of_none hi]

theorem readLiteral_of_cut_nibble (hi : readAt bits c 1 = some i) (hg : readAt bits (c + 1) 4 = none) :
    readLiteral par bits ver (k + 1) acc c = .error (.raised .truncatedStream (c + 1)) := by
  simp only [readLiteral, readField_of_some hi, readField_of_none hg]

end Literal

section Children

variable {i x : Nat}

theorem readChildren_of_len (hi : readAt bits c 1 = some 0) (hl : readAt bits (c + 1) 15 = some x) :
    readChildren par bits (k + 1) d c = readByLength par bits k d (c + 16 + x) .nil (c + 16) := by
  simp only [readChildren, readField_of_some hi, readField_of_some hl, if_pos]

theorem readChildren_of_count (hi : readAt bits c 1 = some i) (hi0 : i ≠ 0)
    (hn : readAt bits (c + 1) 11 = some x) :
    readChildren par bits (k + 1) d c = readByCount par bits k d x .nil (c + 12) := by
  simp only [readChildren, readField_of_some hi, readField_of_some hn, if_neg hi0]

theorem readChildren_of_cut_flag (hi : readAt bits c 1 = none) :
    readChildren par bits (k + 1) d c = .error (.raised .truncatedStream c) := by
  simp only [readChildren, readField_of_none hi]

theorem readChildren_of_cut_len (hi : readAt bits c 1 = some 0) (hl : readAt bits (c + 1) 15 = none) :
    readChildren par bits (k + 1) d c = .error (.raised .truncatedStream (c + 1)) := by
  simp only [readChildren, readField_of_some hi, readField_of_none hl, if_pos]

theorem readChildren_of_cut_count (hi : readAt bits c 1 = some i) (hi0 : i ≠ 0)
    (hn : readAt bits (c + 1) 11 = none) :
    readChildren par bits (k + 1) d c = .error (.raised .truncatedStream (c + 1)) := by
  simp only [readChildren, readField_of_some hi, readField_of_none hn, if_neg hi0]

end Children

section Loops

variable {target n c₁ : Nat} {cs : Packets} {p : Packet} {e : ReadStop}

theorem readByLength_of_end (h : target ≤ c) : readByLength par bits (k + 1) d target cs c = .ok (cs, c) := by
  simp only [readByLength, if_neg (Nat.not_lt.2 h)]

theorem readByLength_of_child_error (h : c < target) (hchild : readPacket par bits k (d + 1) c = .error e) :
    readByLength par bits (k + 1) d target cs c = .error e := by
  simp only [readByLength, if_pos h, hchild]

theorem readByLength_of_overshoot (h : c < target) (hchild : readPacket par bits k (d + 1) c = .ok (p, c₁))
    (hover : target < c₁) :
    readByLength par bits (k + 1) d target cs c = .error (.raised (.structural .len0Overshoot) c₁) := by
  simp only [readByLength, if_pos h, hchild, if_pos hover]

theorem readByLength_of_child (h : c < target) (hchild : readPacket par bits k (d + 1) c = .ok (p, c₁))
    (hin : c₁ ≤ target) :
    readByLength par bits (k + 1) d target cs c = readByLength par bits k d target (cs.snoc p) c₁ := by
  simp only [readByLength, if_pos h, hchild, if_neg (Nat.not_lt.2 hin)]

theorem readByCount_of_end : readByCount par bits (k + 1) d 0 cs c = .ok (cs, c) := by
  simp [readByCount]

theorem readByCount_of_child_error (h : 0 < n) (hchild : readPacket par bits k (d + 1) c = .error e) :
    readByCount par bits (k + 1) d n cs c = .error e := by
  simp only [readByCount, if_pos h, hchild]

theorem readByCount_of_child (h : 0 < n) (hchild : readPacket par bits k (d + 1) c = .ok (p, c₁)) :
    readByCount par bits (k + 1) d n cs c = readByCount par bits k d (n - 1) (cs.snoc p) c₁ := by
  simp only [readByCount, if_pos h, hchild]

end Loops

end Readers

/-! ## What a successful read says of the stream -/

section Ok

variable {par : Params} {bits : Bits} {k d c : Nat}

theorem readPacket_eq_ok {r : Packet × Nat} (h : readPacket par bits (k + 1) d c = .ok r) :
    depthAllowed par d = true ∧ ∃ v t, readAt bits c 3 = some v ∧ readAt bits (c + 3) 3 = some t ∧
      readForm par bits (BitVec.ofNat 3 v) (BitVec.ofNat 3 t) k d (c + 6) = .ok r := by
  cases hdepth : depthAllowed par d with
  | false => simp [readPacket_of_too_deep hdepth] at h
  | true =>
    cases hv : readAt bits c 3 with
    | none => simp [readPacket_of_cut_version hdepth hv] at h
    | some v =>
      cases ht : readAt bits (c + 3) 3 with
      | none => simp [readPacket_of_cut_type hdepth hv ht] at h
      | some t => exact ⟨rfl, v, t, rfl, rfl, (readPacket_of_reads hdepth hv ht).symm.trans h⟩

theorem finishOperator_eq_ok {ver : Version} {op : Opcode} {x : Except ReadStop (Packets × Nat)}
    {r : Packet × Nat} (h : finishOperator par ver op x = .ok r) :
    ∃ cs, x = .ok (cs, r.2) ∧ completeOperator par ver op cs r.2 = .ok r := by
  match x, h with
  | .ok (cs, c'), h =>
    have hcursor : c' = r.2 := by
      simp only [finishOperator, completeOperator] at h
      split_ifs at h
      cases h
      rfl
    subst hcursor
    exact ⟨cs, rfl, h⟩

theorem readLiteral_eq_ok {ver : Version} {acc : Nat} {r : Packet × Nat}
    (h : readLiteral par bits ver (k + 1) acc c = .ok r) :
    ∃ i g, readAt bits c 1 = some i ∧ readAt bits (c + 1) 4 = some g ∧
      fits par (16 * acc + g) = true ∧
      ((i = 0 ∧ r = (.lit ver (16 * acc + g), c + 5)) ∨
       (i ≠ 0 ∧ readLiteral par bits ver k (16 * acc + g) (c + 5) = .ok r)) := by
  cases hi : readAt bits c 1 with
  | none => simp [readLiteral_of_cut_flag hi] at h
  | some i =>
    cases hg : readAt bits (c + 1) 4 with
    | none => simp [readLiteral_of_cut_nibble hi hg] at h
    | some g =>
      cases hfits : fits par (16 * acc + g) with
      | false => simp [readLiteral_of_not_fits hi hg hfits] at h
      | true =>
        refine ⟨i, g, rfl, rfl, hfits, ?_⟩
        by_cases hi0 : i = 0
        · subst hi0
          rw [readLiteral_of_last hi hg hfits] at h
          exact .inl ⟨rfl, (Except.ok.inj h).symm⟩
        · exact .inr ⟨hi0, (readLiteral_of_more hi hi0 hg hfits).symm.trans h⟩

theorem readChildren_eq_ok {r : Packets × Nat} (h : readChildren par bits (k + 1) d c = .ok r) :
    (∃ x, readAt bits c 1 = some 0 ∧ readAt bits (c + 1) 15 = some x ∧
      readByLength par bits k d (c + 16 + x) .nil (c + 16) = .ok r) ∨
    (∃ i x, readAt bits c 1 = some i ∧ i ≠ 0 ∧ readAt bits (c + 1) 11 = some x ∧
      readByCount par bits k d x .nil (c + 12) = .ok r) := by
  cases hi : readAt bits c 1 with
  | none => simp [readChildren_of_cut_flag hi] at h
  | some i =>
    by_cases hi0 : i = 0
    · subst hi0
      cases hx : readAt bits (c + 1) 15 with
      | none => simp [readChildren_of_cut_len hi hx] at h
      | some x => exact .inl ⟨x, rfl, rfl, (readChildren_of_len hi hx).symm.trans h⟩
    · cases hx : readAt bits (c + 1) 11 with
      | none => simp [readChildren_of_cut_count hi hi0 hx] at h
      | some x => exact .inr ⟨i, x, rfl, hi0, rfl, (readChildren_of_count hi hi0 hx).symm.trans h⟩

theorem readByLength_eq_ok {target : Nat} {cs : Packets} {r : Packets × Nat}
    (h : readByLength par bits (k + 1) d target cs c = .ok r) :
    (target ≤ c ∧ r = (cs, c)) ∨
    (c < target ∧ ∃ p c₁, readPacket par bits k (d + 1) c = .ok (p, c₁) ∧ c₁ ≤ target ∧
      readByLength par bits k d target (cs.snoc p) c₁ = .ok r) := by
  rcases Nat.lt_or_ge c target with hlt | hge
  · refine .inr ⟨hlt, ?_⟩
    match hchild : readPacket par bits k (d + 1) c with
    | .error e => simp [readByLength_of_child_error hlt hchild] at h
    | .ok (p, c₁) =>
      rcases Nat.lt_or_ge target c₁ with hover | hin
      · simp [readByLength_of_overshoot hlt hchild hover] at h
      · exact ⟨p, c₁, rfl, hin, (readByLength_of_child hlt hchild hin).symm.trans h⟩
  · rw [readByLength_of_end hge] at h
    exact .inl ⟨hge, (Except.ok.inj h).symm⟩

theorem readByCount_eq_ok {n : Nat} {cs : Packets} {r : Packets × Nat}
    (h : readByCount par bits (k + 1) d n cs c = .ok r) :
    (n = 0 ∧ r = (cs, c)) ∨
    (0 < n ∧ ∃ p c₁, readPacket par bits k (d + 1) c = .ok (p, c₁) ∧
      readByCount par bits k d (n - 1) (cs.snoc p) c₁ = .ok r) := by
  rcases Nat.eq_zero_or_pos n with rfl | hpos
  · rw [readByCount_of_end] at h
    exact .inl ⟨rfl, (Except.ok.inj h).symm⟩
  · refine .inr ⟨hpos, ?_⟩
    match hchild : readPacket par bits k (d + 1) c with
    | .error e => simp [readByCount_of_child_error hpos hchild] at h
    | .ok (p, c₁) => exact ⟨p, c₁, rfl, (readByCount_of_child hpos hchild).symm.trans h⟩

end Ok

/-! ## A decode depends on its own bits only -/

/-- Every read that ends by index `e` gives the same in both streams. -/
def Agree (bits bits' : Bits) (e : Nat) : Prop :=
  ∀ c n v, c + n ≤ e → readAt bits c n = some v → readAt bits' c n = some v

theorem Agree.mono {bits bits' : Bits} {e e' : Nat} (h : Agree bits bits' e) (hle : e' ≤ e) :
    Agree bits bits' e' :=
  fun c n v hend hread => h c n v (hend.trans hle) hread

/-- The front of a stream, with anything after it, agrees with the stream up to its end. -/
theorem agree_take (bits pad : Bits) (e : Nat) : Agree bits (bits.take e ++ pad) e := by
  intro c n v hend hread
  obtain ⟨hbits, hvalue⟩ := readAt_eq_some.1 hread
  have hlen : e ≤ bits.length → (bits.take e).length = e := fun h => by simpa using h
  have hfront : ((bits.take e ++ pad).drop c).take n = (bits.drop c).take n := by
    have hin : c + n ≤ (bits.take e).length := by
      rw [List.length_take]
      omega
    rw [List.drop_append_of_le_length (by omega), List.take_append_of_le_length (by
      rw [List.length_drop]
      omega), List.drop_take, List.take_take, min_eq_left (by omega)]
  refine readAt_eq_some.2 ⟨?_, hfront ▸ hvalue⟩
  rw [List.length_append, List.length_take]
  omega

/-- A result `r` of a read from `c`: it took at least `least` bits of the stream, and the same read of any stream
that agrees up to its end gives it again, with `slack` more fuel than bits taken. -/
def Reproducible {α : Type} (bits : Bits) (c least slack : Nat) (read : Bits → Nat → Except ReadStop (α × Nat))
    (r : α × Nat) : Prop :=
  c + least ≤ r.2 ∧ r.2 ≤ bits.length ∧
    ∀ bits' k', Agree bits bits' r.2 → r.2 + slack ≤ c + k' → read bits' k' = .ok r

theorem readLiteral_reproducible {par : Params} {bits : Bits} {ver : Version} :
    ∀ {k acc c : Nat} {r : Packet × Nat}, readLiteral par bits ver k acc c = .ok r →
      Reproducible bits c 5 0 (fun bits' k' => readLiteral par bits' ver k' acc c) r
  | 0, _, _, _, h => by simp [readLiteral] at h
  | k + 1, acc, c, r, h => by
    obtain ⟨i, g, hi, hg, hfits, ⟨rfl, rfl⟩ | ⟨hi0, hrest⟩⟩ := readLiteral_eq_ok h
    · refine ⟨le_rfl, (readAt_eq_some.1 hg).1, fun bits' k' hagree hk => ?_⟩
      obtain ⟨k', rfl⟩ : ∃ j, k' = j + 1 := ⟨k' - 1, by simp only at hk; omega⟩
      exact readLiteral_of_last (hagree _ _ _ (by simp) hi) (hagree _ _ _ (by simp) hg) hfits
    · obtain ⟨hleast, hend, hagain⟩ := readLiteral_reproducible hrest
      refine ⟨by omega, hend, fun bits' k' hagree hk => ?_⟩
      obtain ⟨k', rfl⟩ : ∃ j, k' = j + 1 := ⟨k' - 1, by omega⟩
      simp only [readLiteral_of_more (hagree _ _ _ (by omega) hi) hi0 (hagree _ _ _ (by omega) hg) hfits]
      exact hagain bits' k' hagree (by omega)

section Reproducible

variable {par : Params} {bits : Bits}

/-- The four mutual readers with fuel `k` have reproducible results. -/
structure ReadersReproducible (par : Params) (bits : Bits) (k : Nat) : Prop where
  packet : ∀ {d c : Nat} {r : Packet × Nat}, readPacket par bits k d c = .ok r →
    Reproducible bits c 11 0 (fun bits' k' => readPacket par bits' k' d c) r
  children : ∀ {d c : Nat} {r : Packets × Nat}, readChildren par bits k d c = .ok r →
    Reproducible bits c 12 0 (fun bits' k' => readChildren par bits' k' d c) r
  byLength : ∀ {d target c : Nat} {cs : Packets} {r : Packets × Nat}, c ≤ bits.length →
    readByLength par bits k d target cs c = .ok r →
    Reproducible bits c 0 1 (fun bits' k' => readByLength par bits' k' d target cs c) r
  byCount : ∀ {d n c : Nat} {cs : Packets} {r : Packets × Nat}, c ≤ bits.length →
    readByCount par bits k d n cs c = .ok r →
    Reproducible bits c 0 1 (fun bits' k' => readByCount par bits' k' d n cs c) r

theorem readForm_reproducible {k d c : Nat} {ver : Version} {t : TypeId} {r : Packet × Nat}
    (ih : ReadersReproducible par bits k) (h : readForm par bits ver t k d c = .ok r) :
    Reproducible bits c 5 0 (fun bits' k' => readForm par bits' ver t k' d c) r := by
  cases ht : Opcode.ofTypeId t with
  | none =>
    rw [readForm_literal ver ht] at h
    obtain ⟨hleast, hend, hagain⟩ := readLiteral_reproducible h
    refine ⟨hleast, hend, fun bits' k' hagree hk => ?_⟩
    simp only [readForm_literal ver ht]
    exact hagain bits' k' hagree hk
  | some op =>
    rw [readForm_operator ver ht] at h
    obtain ⟨cs, hchildren, hcomplete⟩ := finishOperator_eq_ok h
    obtain ⟨hleast, hend, hagain⟩ := ih.children hchildren
    refine ⟨by simp only at hleast; omega, hend, fun bits' k' hagree hk => ?_⟩
    have hchildren' : readChildren par bits' k' d c = .ok (cs, r.2) := hagain bits' k' hagree hk
    simp only [readForm_operator ver ht, hchildren', finishOperator, hcomplete]

theorem readPacket_reproducible {k d c : Nat} {r : Packet × Nat} (ih : ReadersReproducible par bits k)
    (h : readPacket par bits (k + 1) d c = .ok r) :
    Reproducible bits c 11 0 (fun bits' k' => readPacket par bits' k' d c) r := by
  obtain ⟨hdepth, v, t, hv, ht, hform⟩ := readPacket_eq_ok h
  obtain ⟨hleast, hend, hagain⟩ := readForm_reproducible ih hform
  refine ⟨by omega, hend, fun bits' k' hagree hk => ?_⟩
  obtain ⟨k', rfl⟩ : ∃ j, k' = j + 1 := ⟨k' - 1, by omega⟩
  simp only [readPacket_of_reads hdepth (hagree _ _ _ (by omega) hv) (hagree _ _ _ (by omega) ht)]
  exact hagain bits' k' hagree (by omega)

theorem readChildren_reproducible {k d c : Nat} {r : Packets × Nat} (ih : ReadersReproducible par bits k)
    (h : readChildren par bits (k + 1) d c = .ok r) :
    Reproducible bits c 12 0 (fun bits' k' => readChildren par bits' k' d c) r := by
  rcases readChildren_eq_ok h with ⟨x, hi, hx, hloop⟩ | ⟨i, x, hi, hi0, hx, hloop⟩
  · obtain ⟨hleast, hend, hagain⟩ := ih.byLength (readAt_eq_some.1 hx).1 hloop
    refine ⟨by omega, hend, fun bits' k' hagree hk => ?_⟩
    obtain ⟨k', rfl⟩ : ∃ j, k' = j + 1 := ⟨k' - 1, by omega⟩
    simp only [readChildren_of_len (hagree _ _ _ (by omega) hi) (hagree _ _ _ (by omega) hx)]
    exact hagain bits' k' hagree (by omega)
  · obtain ⟨hleast, hend, hagain⟩ := ih.byCount (readAt_eq_some.1 hx).1 hloop
    refine ⟨by omega, hend, fun bits' k' hagree hk => ?_⟩
    obtain ⟨k', rfl⟩ : ∃ j, k' = j + 1 := ⟨k' - 1, by omega⟩
    simp only [readChildren_of_count (hagree _ _ _ (by omega) hi) hi0 (hagree _ _ _ (by omega) hx)]
    exact hagain bits' k' hagree (by omega)

theorem readByLength_reproducible {k d target c : Nat} {cs : Packets} {r : Packets × Nat}
    (ih : ReadersReproducible par bits k) (hc : c ≤ bits.length)
    (h : readByLength par bits (k + 1) d target cs c = .ok r) :
    Reproducible bits c 0 1 (fun bits' k' => readByLength par bits' k' d target cs c) r := by
  rcases readByLength_eq_ok h with ⟨hge, rfl⟩ | ⟨hlt, p, c₁, hchild, hin, hrest⟩
  · refine ⟨le_rfl, hc, fun bits' k' _ hk => ?_⟩
    obtain ⟨k', rfl⟩ : ∃ j, k' = j + 1 := ⟨k' - 1, by simp only at hk; omega⟩
    exact readByLength_of_end hge
  · obtain ⟨hleast₁, hend₁, hagain₁⟩ := ih.packet hchild
    obtain ⟨hleast, hend, hagain⟩ := ih.byLength hend₁ hrest
    simp only at hleast₁ hagain₁ hagain
    refine ⟨by omega, hend, fun bits' k' hagree hk => ?_⟩
    obtain ⟨k', rfl⟩ : ∃ j, k' = j + 1 := ⟨k' - 1, by omega⟩
    simp only [readByLength_of_child hlt (hagain₁ bits' k' (hagree.mono (by omega)) (by omega)) hin]
    exact hagain bits' k' hagree (by omega)

theorem readByCount_reproducible {k d n c : Nat} {cs : Packets} {r : Packets × Nat}
    (ih : ReadersReproducible par bits k) (hc : c ≤ bits.length)
    (h : readByCount par bits (k + 1) d n cs c = .ok r) :
    Reproducible bits c 0 1 (fun bits' k' => readByCount par bits' k' d n cs c) r := by
  rcases readByCount_eq_ok h with ⟨rfl, rfl⟩ | ⟨hpos, p, c₁, hchild, hrest⟩
  · refine ⟨le_rfl, hc, fun bits' k' _ hk => ?_⟩
    obtain ⟨k', rfl⟩ : ∃ j, k' = j + 1 := ⟨k' - 1, by simp only at hk; omega⟩
    exact readByCount_of_end
  · obtain ⟨hleast₁, hend₁, hagain₁⟩ := ih.packet hchild
    obtain ⟨hleast, hend, hagain⟩ := ih.byCount hend₁ hrest
    simp only at hleast₁ hagain₁ hagain
    refine ⟨by omega, hend, fun bits' k' hagree hk => ?_⟩
    obtain ⟨k', rfl⟩ : ∃ j, k' = j + 1 := ⟨k' - 1, by omega⟩
    simp only [readByCount_of_child hpos (hagain₁ bits' k' (hagree.mono (by omega)) (by omega))]
    exact hagain bits' k' hagree (by omega)

/-- By induction on the fuel: each reader calls the others with one less. -/
theorem readersReproducible : ∀ k, ReadersReproducible par bits k
  | 0 =>
    { packet := fun h => by simp [readPacket] at h
      children := fun h => by simp [readChildren] at h
      byLength := fun _ h => by simp [readByLength] at h
      byCount := fun _ h => by simp [readByCount] at h }
  | k + 1 =>
    have ih := readersReproducible k
    { packet := readPacket_reproducible ih
      children := readChildren_reproducible ih
      byLength := readByLength_reproducible ih
      byCount := readByCount_reproducible ih }

end Reproducible

/-- Settles O20: the stream's front agrees with the stream up to the packet's end, so the decode reads the same. -/
theorem paddingIsIgnored : Obligations.PaddingIsIgnored := by
  unfold Obligations.PaddingIsIgnored
  intro par bs pad p used h
  obtain ⟨-, hend, hagain⟩ := (readersReproducible (bs.length + 4)).packet h
  refine ⟨hend, hagain (bs.take used ++ pad) _ (agree_take bs pad used) ?_⟩
  simp only [List.length_append, List.length_take, min_eq_left hend]
  omega

/-! ## The fuel of `decodeStream` is enough -/

theorem readLiteral_ne_outOfFuel {par : Params} {bits : Bits} {ver : Version} :
    ∀ {k acc c : Nat}, c ≤ bits.length → bits.length < c + k →
      readLiteral par bits ver k acc c ≠ .error .outOfFuel
  | 0, _, _, hc, hk => by omega
  | k + 1, acc, c, hc, hk => by
    cases hi : readAt bits c 1 with
    | none => simp [readLiteral_of_cut_flag hi]
    | some i =>
      cases hg : readAt bits (c + 1) 4 with
      | none => simp [readLiteral_of_cut_nibble hi hg]
      | some g =>
        cases hfits : fits par (16 * acc + g) with
        | false => simp [readLiteral_of_not_fits hi hg hfits]
        | true =>
          by_cases hi0 : i = 0
          · subst hi0
            simp [readLiteral_of_last hi hg hfits]
          · have hend := (readAt_eq_some.1 hg).1
            rw [readLiteral_of_more hi hi0 hg hfits]
            exact readLiteral_ne_outOfFuel (by omega) (by omega)

/-- The four mutual readers with fuel `k` do not lack it, where `k` covers the bits that are left. -/
structure ReadersFueled (par : Params) (bits : Bits) (k : Nat) : Prop where
  packet : ∀ {d c : Nat}, c ≤ bits.length → bits.length < c + k →
    readPacket par bits k d c ≠ .error .outOfFuel
  children : ∀ {d c : Nat}, c ≤ bits.length → bits.length < c + k →
    readChildren par bits k d c ≠ .error .outOfFuel
  byLength : ∀ {d target c : Nat} {cs : Packets}, c ≤ bits.length → bits.length + 1 < c + k →
    readByLength par bits k d target cs c ≠ .error .outOfFuel
  byCount : ∀ {d n c : Nat} {cs : Packets}, c ≤ bits.length → bits.length + 1 < c + k →
    readByCount par bits k d n cs c ≠ .error .outOfFuel

section Fueled

variable {par : Params} {bits : Bits} {k d c : Nat}

theorem finishOperator_ne_outOfFuel {ver : Version} {op : Opcode} {x : Except ReadStop (Packets × Nat)}
    (h : x ≠ .error .outOfFuel) : finishOperator par ver op x ≠ .error .outOfFuel := by
  match x, h with
  | .error e, h => exact fun heq => h (by rw [finishOperator] at heq; rw [Except.error.inj heq])
  | .ok (cs, c'), _ =>
    simp only [finishOperator, completeOperator]
    split_ifs <;> simp

theorem readPacket_ne_outOfFuel (ih : ReadersFueled par bits k) (hk : bits.length < c + (k + 1)) :
    readPacket par bits (k + 1) d c ≠ .error .outOfFuel := by
  cases hdepth : depthAllowed par d with
  | false => simp [readPacket_of_too_deep hdepth]
  | true =>
    cases hv : readAt bits c 3 with
    | none => simp [readPacket_of_cut_version hdepth hv]
    | some v =>
      cases ht : readAt bits (c + 3) 3 with
      | none => simp [readPacket_of_cut_type hdepth hv ht]
      | some t =>
        have hend := (readAt_eq_some.1 ht).1
        rw [readPacket_of_reads hdepth hv ht]
        cases htid : Opcode.ofTypeId (BitVec.ofNat 3 t) with
        | none =>
          rw [readForm_literal _ htid]
          exact readLiteral_ne_outOfFuel (by omega) (by omega)
        | some op =>
          rw [readForm_operator _ htid]
          exact finishOperator_ne_outOfFuel (ih.children (by omega) (by omega))

theorem readChildren_ne_outOfFuel (ih : ReadersFueled par bits k) (hk : bits.length < c + (k + 1)) :
    readChildren par bits (k + 1) d c ≠ .error .outOfFuel := by
  cases hi : readAt bits c 1 with
  | none => simp [readChildren_of_cut_flag hi]
  | some i =>
    by_cases hi0 : i = 0
    · subst hi0
      cases hx : readAt bits (c + 1) 15 with
      | none => simp [readChildren_of_cut_len hi hx]
      | some x =>
        have hend := (readAt_eq_some.1 hx).1
        rw [readChildren_of_len hi hx]
        exact ih.byLength (by omega) (by omega)
    · cases hx : readAt bits (c + 1) 11 with
      | none => simp [readChildren_of_cut_count hi hi0 hx]
      | some x =>
        have hend := (readAt_eq_some.1 hx).1
        rw [readChildren_of_count hi hi0 hx]
        exact ih.byCount (by omega) (by omega)

theorem readByLength_ne_outOfFuel {target : Nat} {cs : Packets} (ih : ReadersFueled par bits k)
    (hc : c ≤ bits.length) (hk : bits.length + 1 < c + (k + 1)) :
    readByLength par bits (k + 1) d target cs c ≠ .error .outOfFuel := by
  rcases Nat.lt_or_ge c target with hlt | hge
  · match hchild : readPacket par bits k (d + 1) c with
    | .error e =>
      have hfueled := ih.packet (d := d + 1) hc (by omega)
      rw [hchild] at hfueled
      rw [readByLength_of_child_error hlt hchild]
      simpa using hfueled
    | .ok (p, c₁) =>
      obtain ⟨hleast, hend, -⟩ := (readersReproducible k).packet hchild
      rcases Nat.lt_or_ge target c₁ with hover | hin
      · simp [readByLength_of_overshoot hlt hchild hover]
      · rw [readByLength_of_child hlt hchild hin]
        exact ih.byLength hend (by simp only at hleast; omega)
  · simp [readByLength_of_end hge]

theorem readByCount_ne_outOfFuel {n : Nat} {cs : Packets} (ih : ReadersFueled par bits k)
    (hc : c ≤ bits.length) (hk : bits.length + 1 < c + (k + 1)) :
    readByCount par bits (k + 1) d n cs c ≠ .error .outOfFuel := by
  rcases Nat.eq_zero_or_pos n with rfl | hpos
  · simp [readByCount_of_end]
  · match hchild : readPacket par bits k (d + 1) c with
    | .error e =>
      have hfueled := ih.packet (d := d + 1) hc (by omega)
      rw [hchild] at hfueled
      rw [readByCount_of_child_error hpos hchild]
      simpa using hfueled
    | .ok (p, c₁) =>
      obtain ⟨hleast, hend, -⟩ := (readersReproducible k).packet hchild
      rw [readByCount_of_child hpos hchild]
      exact ih.byCount hend (by simp only at hleast; omega)

theorem readersFueled : ∀ k, ReadersFueled par bits k
  | 0 =>
    { packet := fun hc hk => by omega
      children := fun hc hk => by omega
      byLength := fun hc hk => by omega
      byCount := fun hc hk => by omega }
  | k + 1 =>
    have ih := readersFueled k
    { packet := fun _ hk => readPacket_ne_outOfFuel ih hk
      children := fun _ hk => readChildren_ne_outOfFuel ih hk
      byLength := readByLength_ne_outOfFuel ih
      byCount := readByCount_ne_outOfFuel ih }

end Fueled

theorem decodeStream_ne_outOfFuel (par : Params) (bits : Bits) :
    decodeStream par bits ≠ .error .outOfFuel :=
  (readersFueled (bits.length + 4)).packet (Nat.zero_le _) (by omega)

end Sys2Proof.Machine
end

section
/-! The two levels agree (41_packet_decode.md R152): from each state of the decoder the micro-steps reach what the
recursive function answers there. -/

namespace Sys2Proof.Machine

/-! ## Reaching a state -/

/-- Some number of steps leads from one state to another. -/
def Reaches (s t : State) : Prop :=
  ∃ n, runSteps n s = .next t

theorem Reaches.trans {s t u : State} (h : Reaches s t) (h' : Reaches t u) : Reaches s u := by
  obtain ⟨n, hn⟩ := h
  obtain ⟨m, hm⟩ := h'
  exact ⟨n + m, (runSteps_add m hn).trans hm⟩

theorem Reaches.of_step {s t : State} (h : step s = .next t) : Reaches s t :=
  ⟨1, (runSteps_succ_of_step 0 h).trans rfl⟩

/-- From the stack `gs` at index `c` the micro-steps reach what a command-level read answers: the packet on `fs`, or
its error. Without fuel the read says nothing. -/
def Follows (s : State) (gs fs : List Frame) (c : Nat) : Except ReadStop (Packet × Nat) → Prop
  | .ok (p, c') => Reaches (moveTo c gs s) (moveTo c' (.done p :: fs) s)
  | .error (.raised e pos) => ∃ c', Reaches (moveTo c gs s) (raise e pos { s with cursor := c' })
  | .error .outOfFuel => True

section Follows

variable {s : State} {gs gs' fs : List Frame} {c c' : Nat} {r : Except ReadStop (Packet × Nat)}

theorem Follows.of_reaches (h : Reaches (moveTo c gs s) (moveTo c' gs' s)) (h' : Follows s gs' fs c' r) :
    Follows s gs fs c r := by
  match r, h' with
  | .ok (p, c₁), h' => exact h.trans h'
  | .error (.raised e pos), ⟨c₁, h'⟩ => exact ⟨c₁, h.trans h'⟩
  | .error .outOfFuel, _ => exact trivial

/-- A child's read, and what follows it when it has given a packet. -/
theorem Follows.child {rest : Except ReadStop (Packet × Nat)} (h : Follows s gs gs' c r)
    (herr : ∀ e, r = .error e → rest = .error e)
    (hok : ∀ p c₁, r = .ok (p, c₁) → Follows s (.done p :: gs') fs c₁ rest) : Follows s gs fs c rest := by
  match r, h with
  | .ok (p, c₁), h => exact .of_reaches h (hok p c₁ rfl)
  | .error (.raised e pos), h =>
    rw [herr _ rfl]
    exact h
  | .error .outOfFuel, _ =>
    rw [herr _ rfl]
    exact trivial

end Follows

/-- The running DECODE whose states the lemmas below speak of: no host access is coming. -/
structure Running (s : State) : Prop where
  host : s.host = []
  pending : s.pending = some .decode

section Running

variable {s : State} {f : Frame} {gs fs : List Frame} {c c' : Nat}

theorem Running.step_eq (h : Running s) : step (moveTo c gs s) = engineStep (moveTo c gs s) :=
  step_of_host_nil (s := moveTo c gs s) h.host

theorem Running.reaches (h : Running s) {t : State} (hstep : engineStep (moveTo c gs s) = .next t) :
    Reaches (moveTo c gs s) t :=
  .of_step (h.step_eq.trans hstep)

/-- A micro-step that goes on. -/
theorem Running.follows_of_move (h : Running s) {r : Except ReadStop (Packet × Nat)} {gs' : List Frame}
    (hstep : engineStep (moveTo c gs s) = .next (moveTo c' gs' s)) (hrest : Follows s gs' fs c' r) :
    Follows s gs fs c r :=
  .of_reaches (h.reaches hstep) hrest

/-- A micro-step that ends the DECODE with the read's error. -/
theorem Running.follows_of_raise (h : Running s) {e : ErrorClass} {pos : Nat}
    (hstep : engineStep (moveTo c gs s) = .next (raise e pos { s with cursor := c' })) :
    Follows s gs fs c (.error (.raised e pos)) :=
  ⟨c', h.reaches hstep⟩

/-! ## Completing an Operator -/

theorem Running.follows_completeOperator (h : Running s) {v : Version} {op : Opcode} {cs : Packets}
    (hstep : engineStep (moveTo c (f :: fs) s) = .next (completeFrame v op cs fs (moveTo c (f :: fs) s))) :
    Follows s (f :: fs) fs c (completeOperator s.par v op cs c) := by
  unfold completeOperator
  split_ifs with hnil harity
  · rw [completeFrame, if_pos hnil] at hstep
    exact h.follows_of_raise hstep
  · rw [completeFrame, if_neg hnil, moveTo_par, if_pos harity] at hstep
    exact h.follows_of_raise hstep
  · rw [completeFrame, if_neg hnil, moveTo_par, if_neg harity] at hstep
    exact h.reaches hstep

/-! ## A Literal -/

theorem Running.follows_readLiteral (h : Running s) {v : Version} :
    ∀ {k acc c : Nat},
      Follows s (.literalGroupLoop v acc :: fs) fs c (readLiteral s.par s.bits v k acc c)
  | 0, _, _ => trivial
  | k + 1, acc, c => by
    have hstep : engineStep (moveTo c (.literalGroupLoop v acc :: fs) s) =
        .next (literalGroup v acc fs (moveTo c (.literalGroupLoop v acc :: fs) s)) :=
      engineStep_literalGroupLoop h.pending rfl
    cases hi : readAt s.bits c 1 with
    | none =>
      rw [literalGroup_of_cut_flag v acc fs hi] at hstep
      rw [readLiteral_of_cut_flag hi]
      exact h.follows_of_raise hstep
    | some i =>
      cases hg : readAt s.bits (c + 1) 4 with
      | none =>
        rw [literalGroup_of_cut_nibble v acc fs hi hg] at hstep
        rw [readLiteral_of_cut_nibble hi hg]
        exact h.follows_of_raise hstep
      | some g =>
        cases hfits : fits s.par (16 * acc + g) with
        | false =>
          rw [literalGroup_of_not_fits (s := moveTo c _ s) v acc fs hi hg hfits] at hstep
          rw [readLiteral_of_not_fits hi hg hfits]
          exact h.follows_of_raise hstep
        | true =>
          by_cases hi0 : i = 0
          · subst hi0
            rw [literalGroup_of_last (s := moveTo c _ s) v acc fs hi hg hfits] at hstep
            rw [readLiteral_of_last hi hg hfits]
            exact h.reaches hstep
          · rw [literalGroup_of_more (s := moveTo c _ s) v acc fs hi hi0 hg hfits] at hstep
            rw [readLiteral_of_more hi hi0 hg hfits]
            exact h.follows_of_move hstep (h.follows_readLiteral)

/-! ## An Operator -/

/-- The micro-steps follow the four mutual readers with fuel `k`. -/
structure ReadersFollowed (s : State) (k : Nat) : Prop where
  packet : ∀ {fs : List Frame} {c : Nat}, depthAllowed s.par (fs.length + 1) = true →
    Follows s (.readHeader :: fs) fs c (readPacket s.par s.bits k (fs.length + 1) c)
  children : ∀ {fs : List Frame} {c : Nat} (v : Version) (op : Opcode),
    Follows s (.operatorLengthModeSelect v op :: fs) fs c
      (finishOperator s.par v op (readChildren s.par s.bits k (fs.length + 1) c))
  byLength : ∀ {fs : List Frame} {c : Nat} (v : Version) (op : Opcode) (target : Nat) (cs : Packets),
    Follows s (.fixedBitLengthChildrenLoop v op target cs :: fs) fs c
      (finishOperator s.par v op (readByLength s.par s.bits k (fs.length + 1) target cs c))
  byCount : ∀ {fs : List Frame} {c : Nat} (v : Version) (op : Opcode) (n : Nat) (cs : Packets),
    Follows s (.countedChildrenLoop v op n cs :: fs) fs c
      (finishOperator s.par v op (readByCount s.par s.bits k (fs.length + 1) n cs c))

theorem follows_readPacket {k : Nat} (h : Running s) (ih : ReadersFollowed s k)
    (hdepth : depthAllowed s.par (fs.length + 1) = true) :
    Follows s (.readHeader :: fs) fs c (readPacket s.par s.bits (k + 1) (fs.length + 1) c) := by
  have hstep : engineStep (moveTo c (.readHeader :: fs) s) =
      .next (headerStep fs (moveTo c (.readHeader :: fs) s)) :=
    engineStep_readHeader h.pending rfl
  cases hv : readAt s.bits c 3 with
  | none =>
    rw [headerStep_of_cut_version fs hv] at hstep
    rw [readPacket_of_cut_version hdepth hv]
    exact h.follows_of_raise hstep
  | some v =>
    cases ht : readAt s.bits (c + 3) 3 with
    | none =>
      rw [headerStep_of_cut_type fs hv ht] at hstep
      rw [readPacket_of_cut_type hdepth hv ht]
      exact h.follows_of_raise hstep
    | some t =>
      rw [headerStep_of_reads fs hv ht] at hstep
      rw [readPacket_of_reads hdepth hv ht]
      cases htid : Opcode.ofTypeId (BitVec.ofNat 3 t) with
      | none =>
        rw [headerFrame_of_none htid] at hstep
        rw [readForm_literal _ htid]
        exact h.follows_of_move hstep h.follows_readLiteral
      | some op =>
        rw [headerFrame_of_some htid] at hstep
        rw [readForm_operator _ htid]
        exact h.follows_of_move hstep (ih.children _ op)

theorem follows_readChildren {k : Nat} (h : Running s) (ih : ReadersFollowed s k) (v : Version) (op : Opcode) :
    Follows s (.operatorLengthModeSelect v op :: fs) fs c
      (finishOperator s.par v op (readChildren s.par s.bits (k + 1) (fs.length + 1) c)) := by
  have hpending : (moveTo c (.operatorLengthModeSelect v op :: fs) s).pending = some .decode := h.pending
  cases hi : readAt s.bits c 1 with
  | none =>
    rw [readChildren_of_cut_flag hi]
    exact h.follows_of_raise (engineStep_lengthMode_of_cut_flag hpending rfl hi)
  | some i =>
    by_cases hi0 : i = 0
    · subst hi0
      cases hx : readAt s.bits (c + 1) 15 with
      | none =>
        rw [readChildren_of_cut_len hi hx]
        exact h.follows_of_raise (engineStep_lengthMode_of_cut_len hpending rfl hi hx)
      | some x =>
        rw [readChildren_of_len hi hx]
        exact h.follows_of_move (engineStep_lengthMode_of_len hpending rfl hi hx) (ih.byLength v op _ .nil)
    · cases hx : readAt s.bits (c + 1) 11 with
      | none =>
        rw [readChildren_of_cut_count hi hi0 hx]
        exact h.follows_of_raise (engineStep_lengthMode_of_cut_count hpending rfl hi hi0 hx)
      | some x =>
        rw [readChildren_of_count hi hi0 hx]
        exact h.follows_of_move (engineStep_lengthMode_of_count hpending rfl hi hi0 hx)
          (ih.byCount v op x .nil)

/-- A loop that opens a child: the push with its depth check, the child's own read, and then the rest. -/
theorem follows_child {k : Nat} {rest : Except ReadStop (Packet × Nat)} (h : Running s)
    (ih : ReadersFollowed s k)
    (hstep : engineStep (moveTo c (f :: fs) s) = .next (pushChild (moveTo c (f :: fs) s)))
    (herr : ∀ e, readPacket s.par s.bits k (fs.length + 2) c = .error e → rest = .error e)
    (hok : ∀ p c₁, readPacket s.par s.bits k (fs.length + 2) c = .ok (p, c₁) →
      Follows s (.done p :: f :: fs) fs c₁ rest) :
    Follows s (f :: fs) fs c rest := by
  cases hdepth : depthAllowed s.par (fs.length + 2) with
  | true =>
    rw [pushChild_of_allowed (s := moveTo c (f :: fs) s) hdepth] at hstep
    have hchild : Follows s (.readHeader :: f :: fs) (f :: fs) c
        (readPacket s.par s.bits k (fs.length + 2) c) := ih.packet (fs := f :: fs) hdepth
    exact h.follows_of_move (c' := c) hstep (hchild.child herr hok)
  | false =>
    rw [pushChild_of_not_allowed (s := moveTo c (f :: fs) s) hdepth] at hstep
    cases k with
    | zero =>
      rw [herr .outOfFuel (by simp [readPacket])]
      exact trivial
    | succ k =>
      rw [herr _ (readPacket_of_too_deep hdepth)]
      exact h.follows_of_raise hstep

theorem follows_readByLength {k : Nat} (h : Running s) (ih : ReadersFollowed s k) (v : Version) (op : Opcode)
    (target : Nat) (cs : Packets) :
    Follows s (.fixedBitLengthChildrenLoop v op target cs :: fs) fs c
      (finishOperator s.par v op (readByLength s.par s.bits (k + 1) (fs.length + 1) target cs c)) := by
  have hstep : engineStep (moveTo c (.fixedBitLengthChildrenLoop v op target cs :: fs) s) =
      .next (lengthLoop v op target cs fs (moveTo c (.fixedBitLengthChildrenLoop v op target cs :: fs) s)) :=
    engineStep_fixedLoop h.pending rfl
  rcases Nat.lt_or_ge c target with hlt | hge
  · rw [lengthLoop, moveTo_cursor, if_pos hlt] at hstep
    refine follows_child h ih hstep (fun e he => ?_) fun p c₁ hp => ?_
    · rw [readByLength_of_child_error hlt he]
      rfl
    · have hdone : engineStep
          (moveTo c₁ (.done p :: .fixedBitLengthChildrenLoop v op target cs :: fs) s) =
          leaveFrame p (.fixedBitLengthChildrenLoop v op target cs :: fs)
            (moveTo c₁ (.done p :: .fixedBitLengthChildrenLoop v op target cs :: fs) s) :=
        engineStep_done h.pending rfl
      rcases Nat.lt_or_ge target c₁ with hover | hin
      · rw [readByLength_of_overshoot hlt hp hover]
        exact h.follows_of_raise (hdone.trans (if_pos hover))
      · rw [readByLength_of_child hlt hp hin]
        exact h.follows_of_move (hdone.trans (if_neg (Nat.not_lt.2 hin)))
          (ih.byLength v op target (cs.snoc p))
  · rw [lengthLoop, moveTo_cursor, if_neg (Nat.not_lt.2 hge)] at hstep
    rw [readByLength_of_end hge]
    exact h.follows_completeOperator hstep

theorem follows_readByCount {k : Nat} (h : Running s) (ih : ReadersFollowed s k) (v : Version) (op : Opcode)
    (n : Nat) (cs : Packets) :
    Follows s (.countedChildrenLoop v op n cs :: fs) fs c
      (finishOperator s.par v op (readByCount s.par s.bits (k + 1) (fs.length + 1) n cs c)) := by
  have hstep : engineStep (moveTo c (.countedChildrenLoop v op n cs :: fs) s) =
      .next (countLoop v op n cs fs (moveTo c (.countedChildrenLoop v op n cs :: fs) s)) :=
    engineStep_countedLoop h.pending rfl
  rcases Nat.eq_zero_or_pos n with rfl | hpos
  · rw [countLoop, if_neg (Nat.lt_irrefl 0)] at hstep
    rw [readByCount_of_end]
    exact h.follows_completeOperator hstep
  · rw [countLoop, if_pos hpos] at hstep
    refine follows_child h ih hstep (fun e he => ?_) fun p c₁ hp => ?_
    · rw [readByCount_of_child_error hpos he]
      rfl
    · have hdone : engineStep (moveTo c₁ (.done p :: .countedChildrenLoop v op n cs :: fs) s) =
          .next (moveTo c₁ (.countedChildrenLoop v op (n - 1) (cs.snoc p) :: fs) s) :=
        engineStep_done (s := moveTo c₁ _ s) h.pending rfl
      rw [readByCount_of_child hpos hp]
      exact h.follows_of_move hdone (ih.byCount v op (n - 1) (cs.snoc p))

/-- By induction on the fuel: each reader calls the others with one less. -/
theorem readersFollowed (h : Running s) : ∀ k, ReadersFollowed s k
  | 0 =>
    { packet := fun _ => by simp [readPacket, Follows]
      children := fun _ _ => by simp [readChildren, finishOperator, Follows]
      byLength := fun _ _ _ _ => by simp [readByLength, finishOperator, Follows]
      byCount := fun _ _ _ _ => by simp [readByCount, finishOperator, Follows] }
  | k + 1 =>
    have ih := readersFollowed h k
    { packet := follows_readPacket h ih
      children := follows_readChildren h ih
      byLength := follows_readByLength h ih
      byCount := follows_readByCount h ih }

end Running

/-! ## The whole DECODE -/

section Decode

variable {s : State}

/-- What a DECODE whose outermost packet has just been opened reaches. -/
theorem follows_decodeStream (h : s.decoding .readHeader []) (hlegal : s.par.legal = true)
    (hcursor : s.cursor = 0) : Follows s [.readHeader] [] 0 (decodeStream s.par s.bits) ∧
      moveTo 0 [.readHeader] s = s := by
  obtain ⟨hhost, hpending, hframes⟩ := h
  refine ⟨(readersFollowed ⟨hhost, hpending⟩ _).packet (depthAllowed_one_of_legal hlegal), ?_⟩
  rw [← hcursor]
  exact moveTo_self hframes

/-- From the start of the decode phase the work is the stream (41_packet_decode.md R153). -/
theorem workLeft_of_start (h : s.decoding .readHeader []) (hcursor : s.cursor = 0) : workLeft s = s.bitlen := by
  obtain ⟨-, -, hframes⟩ := h
  simp [workLeft, hframes, hcursor, stackWork, Frame.work]

/-- A packet read from the stream completes the DECODE with it. -/
theorem runSteps_of_decodeStream_ok {p : Packet} {used : Nat} (h : s.decoding .readHeader [])
    (hlegal : s.par.legal = true) (hcursor : s.cursor = 0) (hok : decodeStream s.par s.bits = .ok (p, used)) :
    runSteps (s.bitlen + 1) s = .next (completeDecode p { s with cursor := used }) := by
  obtain ⟨hfollows, hself⟩ := follows_decodeStream h hlegal hcursor
  obtain ⟨hhost, hpending, -⟩ := id h
  rw [hok] at hfollows
  have hdone : step (moveTo used [.done p] s) = .next (completeDecode p { s with cursor := used }) :=
    (Running.step_eq ⟨hhost, hpending⟩).trans (engineStep_done (s := moveTo used _ s) hpending rfl)
  have hreach : Reaches (moveTo 0 [.readHeader] s) (moveTo used [.done p] s) := hfollows
  rw [hself] at hreach
  obtain ⟨n, hn⟩ := hreach.trans (.of_step hdone)
  exact runSteps_of_workLeft_lt rfl h (by rw [workLeft_of_start h hcursor]; omega) hn

/-- An error of the command level ends the DECODE with it. -/
theorem runSteps_of_decodeStream_raised {e : ErrorClass} {pos : Nat} (h : s.decoding .readHeader [])
    (hlegal : s.par.legal = true) (hcursor : s.cursor = 0)
    (herr : decodeStream s.par s.bits = .error (.raised e pos)) :
    ∃ c, runSteps (s.bitlen + 1) s = .next (raise e pos { s with cursor := c }) := by
  obtain ⟨hfollows, hself⟩ := follows_decodeStream h hlegal hcursor
  rw [herr] at hfollows
  obtain ⟨c, hreach⟩ := hfollows
  rw [hself] at hreach
  obtain ⟨n, hn⟩ := hreach
  exact ⟨c, runSteps_of_workLeft_lt rfl h (by rw [workLeft_of_start h hcursor]; omega) hn⟩

end Decode

/-- Settles O19: the micro-steps follow the recursive decoder, and the work of the start is BITLEN. -/
theorem microStepsAgreeWithRecursiveDecoder : Obligations.MicroStepsAgreeWithRecursiveDecoder := by
  unfold Obligations.MicroStepsAgreeWithRecursiveDecoder
  intro s hlegal h hcursor
  match hread : decodeStream s.par s.bits with
  | .ok (p, used) =>
    exact ⟨_, used, rfl, runSteps_of_decodeStream_ok h hlegal hcursor hread⟩
  | .error (.raised e pos) =>
    obtain ⟨c, hrun⟩ := runSteps_of_decodeStream_raised h hlegal hcursor hread
    exact ⟨_, c, rfl, hrun⟩
  | .error .outOfFuel => exact absurd hread (decodeStream_ne_outOfFuel s.par s.bits)

end Sys2Proof.Machine
end

section
/-! Assembled packets (30_encoding.md R85): the command level reads the bits of a well-formed one back as its packet,
and with its text, padded and between whitespace, so does the machine. -/

namespace Sys2Proof.Machine

/-! ## Groups -/

theorem fits_mono {par : Params} {n m : Nat} (h : fits par n = true) (hle : m ≤ n) : fits par m = true := by
  unfold fits at h ⊢
  split
  · rfl
  · rename_i w hw
    simp only [hw, decide_eq_true_eq] at h ⊢
    omega

@[simp] theorem groupBits_length : ∀ (g value : Nat), (groupBits g value).length = 5 * g
  | 0, _ => rfl
  | k + 1, value => by
    simp only [groupBits, List.cons_append, List.length_cons, List.length_append, bitsOfNat_length,
      groupBits_length k value]
    omega

/-- The fewest groups do hold the value. -/
theorem lt_pow_fewestGroups (value : Nat) : value < 16 ^ fewestGroups value := by
  unfold fewestGroups
  split
  · omega
  · have hpow : (16 : Nat) ^ (Nat.log2 value / 4 + 1) = 2 ^ (4 * (Nat.log2 value / 4 + 1)) := by
      rw [Nat.pow_mul]
    rw [hpow]
    exact lt_of_lt_of_le Nat.lt_log2_self (Nat.pow_le_pow_right (by decide) (by omega))

theorem fewestGroups_pos (value : Nat) : 0 < fewestGroups value := by
  unfold fewestGroups
  split <;> omega

/-- The groups of a value give it back, from the value of the groups before them (30_encoding.md R74). -/
theorem readLiteral_groups {par : Params} {bits : Bits} {ver : Version} {value : Nat}
    (hfits : fits par value = true) :
    ∀ {g k c : Nat} {rest : Bits}, g < k → bits.drop c = groupBits (g + 1) value ++ rest →
      readLiteral par bits ver k (value / 16 ^ (g + 1)) c = .ok (.lit ver value, c + 5 * (g + 1))
  | g, k + 1, c, rest, hk, hbits => by
    have hahead : bits.drop c =
        decide (0 < g) :: (bitsOfNat 4 (value / 16 ^ g % 16) ++ (groupBits g value ++ rest)) := by
      have hlow : bitsOfNat 4 (value / 16 ^ g % 16) = bitsOfNat 4 (value / 16 ^ g) := by
        have hback := bitsOfNat_natOfBits (bitsOfNat 4 (value / 16 ^ g))
        rwa [bitsOfNat_length, natOfBits_bitsOfNat] at hback
      rw [hbits, groupBits, hlow]
      simp
    have hi := readAt_of_cons hahead
    have hnibble := drop_of_cons hahead
    have hg : readAt bits (c + 1) 4 = some (value / 16 ^ g % 16) :=
      readAt_of_drop (by decide) (Nat.mod_lt _ (by decide)) hnibble
    have hvalue : 16 * (value / 16 ^ (g + 1)) + value / 16 ^ g % 16 = value / 16 ^ g := by
      rw [Nat.pow_succ, ← Nat.div_div_eq_div_mul]
      exact Nat.div_add_mod _ 16
    have hfits' : fits par (16 * (value / 16 ^ (g + 1)) + value / 16 ^ g % 16) = true := by
      rw [hvalue]
      exact fits_mono hfits (Nat.div_le_self _ _)
    cases g with
    | zero =>
      rw [readLiteral_of_last hi hg hfits', hvalue]
      simp
    | succ g =>
      have hrest := drop_of_drop hnibble
      rw [bitsOfNat_length] at hrest
      rw [readLiteral_of_more hi (by simp) hg hfits', hvalue,
        readLiteral_groups hfits (by omega) (c := c + 5) hrest]
      congr 2
      omega

/-! ## Sequences of packets -/

/-- A sequence with the packets of another after it. -/
def Packets.extend : Packets → Packets → Packets
  | cs, .nil => cs
  | cs, .cons p ps => Packets.extend (cs.snoc p) ps

theorem Packets.toList_extend : ∀ cs ps : Packets, (cs.extend ps).toList = cs.toList ++ ps.toList
  | cs, .nil => by simp [Packets.extend, Packets.toList]
  | cs, .cons p ps => by
    rw [Packets.extend, Packets.toList_extend (cs.snoc p) ps, Packets.toList_snoc]
    simp [Packets.toList]

theorem Packets.toList_injective : ∀ {cs ds : Packets}, cs.toList = ds.toList → cs = ds
  | .nil, ds, h => (Packets.toList_eq_nil_iff.1 h.symm).symm
  | .cons p ps, ds, h => by
    obtain ⟨qs, rfl, hqs⟩ := Packets.toList_eq_cons h.symm
    exact congrArg (Packets.cons p) (Packets.toList_injective hqs.symm)

/-- The children collected from none are the sequence itself. -/
theorem Packets.nil_extend (ps : Packets) : Packets.nil.extend ps = ps :=
  Packets.toList_injective (by rw [Packets.toList_extend, Packets.toList, List.nil_append])

theorem Asms.packets_length : ∀ as : Asms, as.packets.length = as.length
  | .nil => rfl
  | .cons a as => by simp [Asms.packets, Asms.length, Packets.length, Asms.packets_length as]

/-! ## The header and the length field in the stream -/

section Fields

variable {par : Params} {bits rest : Bits} {k d c : Nat}

theorem readPacket_header {v : Version} {t : TypeId} (hdepth : depthAllowed par d = true)
    (h : bits.drop c = headerBits v t ++ rest) :
    readPacket par bits (k + 1) d c = readForm par bits v t k d (c + 6) ∧ bits.drop (c + 6) = rest := by
  rw [headerBits, List.append_assoc] at h
  have hv : readAt bits c 3 = some v.toNat := readAt_of_drop (by decide) v.isLt h
  have htail := drop_of_drop h
  rw [bitsOfNat_length] at htail
  have ht : readAt bits (c + 3) 3 = some t.toNat := readAt_of_drop (by decide) t.isLt htail
  have hrest := drop_of_drop htail
  rw [bitsOfNat_length] at hrest
  refine ⟨?_, hrest⟩
  rw [readPacket_of_reads hdepth hv ht]
  simp

theorem readChildren_len_field {l : LenField} (h : bits.drop c = false :: (bitsOfNat 15 l.toNat ++ rest)) :
    readChildren par bits (k + 1) d c = readByLength par bits k d (c + 16 + l.toNat) .nil (c + 16) ∧
      bits.drop (c + 16) = rest := by
  have hi : readAt bits c 1 = some 0 := readAt_of_cons h
  have htail : bits.drop (c + 1) = bitsOfNat 15 l.toNat ++ rest := drop_of_cons h
  have hl : readAt bits (c + 1) 15 = some l.toNat := readAt_of_drop (by decide) l.isLt htail
  have hrest := drop_of_drop htail
  rw [bitsOfNat_length] at hrest
  exact ⟨readChildren_of_len hi hl, hrest⟩

theorem readChildren_count_field {n : CountField} (h : bits.drop c = true :: (bitsOfNat 11 n.toNat ++ rest)) :
    readChildren par bits (k + 1) d c = readByCount par bits k d n.toNat .nil (c + 12) ∧
      bits.drop (c + 12) = rest := by
  have hi : readAt bits c 1 = some 1 := readAt_of_cons h
  have htail : bits.drop (c + 1) = bitsOfNat 11 n.toNat ++ rest := drop_of_cons h
  have hn : readAt bits (c + 1) 11 = some n.toNat := readAt_of_drop (by decide) n.isLt htail
  have hrest := drop_of_drop htail
  rw [bitsOfNat_length] at hrest
  exact ⟨readChildren_of_count hi (by decide) hn, hrest⟩

/-- The end of an Operator over children of a right number (10_state.md R31 (c), (d)). -/
theorem completeOperator_of_arityOk {v : Version} {op : Opcode} {as : Asms}
    (harity : arityOk par op as.length = true) :
    completeOperator par v op as.packets c = .ok (.op v op.code as.packets, c) := by
  simp only [arityOk, Bool.and_eq_true, decide_eq_true_eq] at harity
  obtain ⟨hpos, htwo⟩ := harity
  have hlen := as.packets_length
  have hne : as.packets ≠ .nil := by
    intro hnil
    rw [hnil, Packets.length] at hlen
    omega
  rw [completeOperator, if_neg hne, if_neg]
  rintro ⟨hstage, hcmp, hother⟩
  exact hother (hlen.trans (htwo hstage hcmp))

end Fields

theorem headerBits_length (v : Version) (t : TypeId) : (headerBits v t).length = 6 := by
  simp [headerBits]

theorem Asm.bits_pos (a : Asm) : 0 < a.bits.length := by
  cases a <;> simp [Asm.bits, headerBits, oplBits, opcBits]

/-! ## Reading a packet back -/

section Assembled

variable {par : Params} {bits : Bits}

mutual

/-- The bits of a well-formed packet are read as the packet, at any depth that leaves room for it. -/
theorem readPacket_assembled : ∀ {a : Asm} {k d c : Nat} {rest : Bits}, a.wf par = true →
    depthAllowed par (d + a.depth) = true → bits.drop c = a.bits ++ rest → a.bits.length ≤ k →
    readPacket par bits k (d + 1) c = .ok (a.packet, c + a.bits.length)
  | .lit v value groups, k, d, c, rest, hwf, hdepth, hbits, hk => by
    simp only [Asm.wf, Bool.and_eq_true, decide_eq_true_eq] at hwf
    obtain ⟨hfits, hgroups⟩ := hwf
    obtain ⟨g, hg⟩ : ∃ g, groups.getD (fewestGroups value) = g + 1 :=
      ⟨_, (Nat.succ_pred_eq_of_pos ((fewestGroups_pos value).trans_le hgroups)).symm⟩
    rw [hg] at hgroups
    rw [Asm.bits, hg] at hbits hk ⊢
    rw [List.length_append, headerBits_length, groupBits_length] at hk ⊢
    rw [List.append_assoc] at hbits
    obtain ⟨k, rfl⟩ : ∃ j, k = j + 1 := ⟨k - 1, by omega⟩
    obtain ⟨hread, htail⟩ := readPacket_header (par := par) (k := k) (d := d + 1) hdepth hbits
    have hvalue : value / 16 ^ (g + 1) = 0 := Nat.div_eq_of_lt
      (lt_of_lt_of_le (lt_pow_fewestGroups value) (Nat.pow_le_pow_right (by decide) hgroups))
    have hliteral := readLiteral_groups (ver := v) (k := k) hfits (by omega) htail
    rw [hvalue] at hliteral
    rw [hread, readForm_literal v rfl, hliteral, Asm.packet, Nat.add_assoc]
  | .opl op v len cs, k, d, c, rest, hwf, hdepth, hbits, hk => by
    simp only [Asm.wf, Bool.and_eq_true, decide_eq_true_eq] at hwf
    obtain ⟨⟨⟨harity, hshort⟩, hlen⟩, hcs⟩ := hwf
    obtain ⟨l, hl⟩ : ∃ l, len.getD (BitVec.ofNat 15 cs.bits.length) = l := ⟨_, rfl⟩
    have hfield : l.toNat = cs.bits.length := by
      cases len with
      | none => rw [← hl, Option.getD_none, toNat_ofNat_of_lt hshort]
      | some l' => rw [← hl, Option.getD_some, hlen l' rfl]
    have hdepth' : depthAllowed par (d + 1 + cs.depth) = true :=
      depthAllowed_mono hdepth (by rw [Asm.depth]; omega)
    simp only [Asm.bits, hl, oplBits, List.append_assoc, List.cons_append] at hbits hk ⊢
    simp only [List.length_append, headerBits_length, List.length_cons, bitsOfNat_length] at hk ⊢
    obtain ⟨k, rfl⟩ : ∃ j, k = j + 2 := ⟨k - 2, by omega⟩
    obtain ⟨hread, htail⟩ :=
      readPacket_header (par := par) (k := k + 1) (d := d + 1) (depthAllowed_mono hdepth' (by omega)) hbits
    obtain ⟨hchildren, hbody⟩ := readChildren_len_field (par := par) (k := k) (d := d + 1) htail
    have hloop := readByLength_assembled (k := k) (cs₀ := .nil) hcs hdepth' hbody (by omega)
    rw [hread, readForm_operator v (Opcode.ofTypeId_code op), hchildren, hfield, hloop, Packets.nil_extend,
      finishOperator, completeOperator_of_arityOk harity, Asm.packet]
    congr 2
    omega
  | .opc op v count cs, k, d, c, rest, hwf, hdepth, hbits, hk => by
    simp only [Asm.wf, Bool.and_eq_true, decide_eq_true_eq] at hwf
    obtain ⟨⟨⟨harity, hshort⟩, hcount⟩, hcs⟩ := hwf
    obtain ⟨n, hn⟩ : ∃ n, count.getD (BitVec.ofNat 11 cs.length) = n := ⟨_, rfl⟩
    have hfield : n.toNat = cs.length := by
      cases count with
      | none => rw [← hn, Option.getD_none, toNat_ofNat_of_lt hshort]
      | some n' => rw [← hn, Option.getD_some, hcount n' rfl]
    have hdepth' : depthAllowed par (d + 1 + cs.depth) = true :=
      depthAllowed_mono hdepth (by rw [Asm.depth]; omega)
    simp only [Asm.bits, hn, opcBits, List.append_assoc, List.cons_append] at hbits hk ⊢
    simp only [List.length_append, headerBits_length, List.length_cons, bitsOfNat_length] at hk ⊢
    obtain ⟨k, rfl⟩ : ∃ j, k = j + 2 := ⟨k - 2, by omega⟩
    obtain ⟨hread, htail⟩ :=
      readPacket_header (par := par) (k := k + 1) (d := d + 1) (depthAllowed_mono hdepth' (by omega)) hbits
    obtain ⟨hchildren, hbody⟩ := readChildren_count_field (par := par) (k := k) (d := d + 1) htail
    have hloop := readByCount_assembled (k := k) (cs₀ := .nil) hcs hdepth' hbody (by omega)
    rw [hread, readForm_operator v (Opcode.ofTypeId_code op), hchildren, hfield, hloop, Packets.nil_extend,
      finishOperator, completeOperator_of_arityOk harity, Asm.packet]
    congr 2
    omega

theorem readByLength_assembled : ∀ {as : Asms} {k d c : Nat} {rest : Bits} {cs₀ : Packets}, as.wf par = true →
    depthAllowed par (d + as.depth) = true → bits.drop c = as.bits ++ rest → as.bits.length < k →
    readByLength par bits k d (c + as.bits.length) cs₀ c =
      .ok (cs₀.extend as.packets, c + as.bits.length)
  | .nil, k + 1, d, c, rest, cs₀, _, _, _, _ => readByLength_of_end (Nat.le_refl c)
  | .cons a as, k + 1, d, c, rest, cs₀, hwf, hdepth, hbits, hk => by
    simp only [Asms.wf, Bool.and_eq_true] at hwf
    obtain ⟨ha, has⟩ := hwf
    have hpos := a.bits_pos
    rw [Asms.bits, List.append_assoc] at hbits
    rw [Asms.depth] at hdepth
    rw [Asms.bits, List.length_append] at hk ⊢
    have hchild := readPacket_assembled (k := k) (d := d) ha (depthAllowed_mono hdepth (by omega)) hbits (by omega)
    have hrest := readByLength_assembled (k := k) (d := d) (cs₀ := cs₀.snoc a.packet) has
      (depthAllowed_mono hdepth (by omega)) (drop_of_drop hbits) (by omega)
    rw [readByLength_of_child (by omega) hchild (by omega), ← Nat.add_assoc, hrest, Asms.packets,
      Packets.extend]

theorem readByCount_assembled : ∀ {as : Asms} {k d c : Nat} {rest : Bits} {cs₀ : Packets}, as.wf par = true →
    depthAllowed par (d + as.depth) = true → bits.drop c = as.bits ++ rest → as.bits.length < k →
    readByCount par bits k d as.length cs₀ c = .ok (cs₀.extend as.packets, c + as.bits.length)
  | .nil, k + 1, d, c, rest, cs₀, _, _, _, _ => readByCount_of_end
  | .cons a as, k + 1, d, c, rest, cs₀, hwf, hdepth, hbits, hk => by
    simp only [Asms.wf, Bool.and_eq_true] at hwf
    obtain ⟨ha, has⟩ := hwf
    have hpos := a.bits_pos
    rw [Asms.bits, List.append_assoc] at hbits
    rw [Asms.depth] at hdepth
    rw [Asms.bits, List.length_append] at hk ⊢
    have hchild := readPacket_assembled (k := k) (d := d) ha (depthAllowed_mono hdepth (by omega)) hbits (by omega)
    have hrest := readByCount_assembled (k := k) (d := d) (cs₀ := cs₀.snoc a.packet) has
      (depthAllowed_mono hdepth (by omega)) (drop_of_drop hbits) (by omega)
    rw [Asms.length, readByCount_of_child (Nat.succ_pos _) hchild, Nat.succ_sub_one, hrest, Asms.packets,
      Packets.extend, Nat.add_assoc]

end

end Assembled

/-- The stream of a well-formed packet decodes to it, whatever its padding (41_packet_decode.md R120, R134). -/
theorem decodeStream_assembled {par : Params} {a : Asm} (pad : Option Nat) (hwf : a.wf par = true)
    (hdepth : depthAllowed par a.depth = true) :
    decodeStream par (a.stream pad) = .ok (a.packet, a.bits.length) := by
  have hread := readPacket_assembled (par := par) (bits := a.stream pad) (k := (a.stream pad).length + 4)
    (d := 0) (c := 0) (rest := padBits a.bits.length pad) hwf (by rwa [Nat.zero_add]) rfl
    (by rw [Asm.stream, List.length_append]; omega)
  rwa [Nat.zero_add, Nat.zero_add] at hread

/-! ## The text -/

theorem hexval_hexChar {d : Nat} (h : d < 16) : hexval (hexChar d) = some d := by
  have hall : ∀ d : Fin 16, hexval (hexChar d) = some d.val := by decide
  exact hall ⟨d, h⟩

/-- The character of four bits is the digit that converts back to them. -/
theorem hexval_of_bits (b₃ b₂ b₁ b₀ : Bool) :
    hexval (hexChar (natOfBits [b₃, b₂, b₁, b₀])) = some (natOfBits [b₃, b₂, b₁, b₀]) :=
  hexval_hexChar (natOfBits_lt [b₃, b₂, b₁, b₀])

theorem convertFrom_hexText : ∀ {bs : Bits} {j : Nat}, bs.length % 4 = 0 →
    convertFrom j (hexText bs) = .ok bs
  | [], _, _ => rfl
  | [_], _, h => by simp at h
  | [_, _], _, h => by simp at h
  | [_, _, _], _, h => by simp at h
  | b₃ :: b₂ :: b₁ :: b₀ :: rest, j, h => by
    have hrest : rest.length % 4 = 0 := by
      simp only [List.length_cons] at h
      omega
    rw [hexText, convertFrom_cons_ok (hexval_of_bits b₃ b₂ b₁ b₀) (convertFrom_hexText hrest)]
    exact congrArg (fun front => Except.ok (front ++ rest)) (bitsOfNat_natOfBits [b₃, b₂, b₁, b₀])

theorem hexText_digits : ∀ (bs : Bits), ∀ x ∈ hexText bs, hexval x ≠ none
  | [], x, hx => by simp [hexText] at hx
  | [_], x, hx => by simp [hexText] at hx
  | [_, _], x, hx => by simp [hexText] at hx
  | [_, _, _], x, hx => by simp [hexText] at hx
  | b₃ :: b₂ :: b₁ :: b₀ :: rest, x, hx => by
    rw [hexText] at hx
    rcases List.mem_cons.1 hx with rfl | hx
    · simp [hexval_of_bits b₃ b₂ b₁ b₀]
    · exact hexText_digits rest x hx

/-- Settles O4: the text converts to the stream in one step, and the stream decodes to the packet. -/
theorem assembledPacketDecodesToItself : Obligations.AssembledPacketDecodesToItself := by
  unfold Obligations.AssembledPacketDecodesToItself
  intro s a pad w₁ w₂ hlegal hwf hdepth hwhole hw₁ hw₂ hhost hpending hframes hsnap
  have hconvert : convertInput s.snap = .ok (a.stream pad) := by
    rw [hsnap]
    exact convertInput_of_digits (fun b hb => (isSpace_iff b).2 (hw₁ b hb))
      (fun b hb => (isSpace_iff b).2 (hw₂ b hb)) (hexText_digits (a.stream pad))
      fun j => convertFrom_hexText hwhole
  have hstart : step s = .next { s with bits := a.stream pad, cursor := 0, frames := [.readHeader] } := by
    rw [step_of_host_nil hhost, engineStep_of_command hpending hframes]
    exact congrArg Host.Outcome.next (startDecode_of_ok hconvert)
  rw [runSteps_succ_of_step _ hstart]
  exact runSteps_of_decodeStream_ok
    (s := { s with bits := a.stream pad, cursor := 0, frames := [.readHeader] })
    ⟨hhost, hpending, rfl⟩ hlegal rfl (decodeStream_assembled pad hwf hdepth)

end Sys2Proof.Machine
end

section
/-! Host accesses beside a running command (43_host_commands.md R204, 70_reset_and_hazards.md R273): the engine reads
nothing of what they can change while BUSY, so they and the engine's steps can be put in any order. -/

namespace Sys2Proof.Machine

/-! ## What the host can change while BUSY -/

/-- The state with REJECTED, what the host has read, the draw counter and the host's list as given. -/
def withHostSide (rejected : Bool) (rdata : Option Nat) (draws : Nat) (host : List HostAction) (s : State) :
    State :=
  { s with
    status := { s.status with rejected := rejected }
    rdata := rdata
    draws := draws
    host := host }

/-- A host access other than reset, while BUSY, is a rejection, a read or nothing. -/
theorem HostChange.of_busy {s t : State} {a : HostAction} (h : HostChange s a t)
    (hbusy : s.status.state = .busy) (hreset : a ≠ .reset) :
    ∃ rejected rdata draws, t = withHostSide rejected rdata draws s.host s := by
  cases h with
  | nothing => exact ⟨s.status.rejected, s.rdata, s.draws, rfl⟩
  | rejects => exact ⟨true, s.rdata, s.draws, rfl⟩
  | reads _ r d => exact ⟨s.status.rejected, r, d, rfl⟩
  | accepts _ _ hfree | setsInLen _ _ hfree _ | setsInBuf _ _ _ hfree _ => exact absurd hbusy hfree
  | resets => exact absurd rfl hreset

/-! ## The engine beside it -/

section Commute

variable (rejected : Bool) (rdata : Option Nat) (draws : Nat) (host : List HostAction) (s : State)

theorem headerStep_withHostSide (fs : List Frame) :
    headerStep fs (withHostSide rejected rdata draws host s) =
      withHostSide rejected rdata draws host (headerStep fs s) := by
  cases hv : readAt s.bits s.cursor 3 with
  | none =>
    rw [headerStep_of_cut_version fs hv,
      headerStep_of_cut_version (s := withHostSide rejected rdata draws host s) fs hv]
    rfl
  | some v =>
    cases ht : readAt s.bits (s.cursor + 3) 3 with
    | none =>
      rw [headerStep_of_cut_type fs hv ht,
        headerStep_of_cut_type (s := withHostSide rejected rdata draws host s) fs hv ht]
      rfl
    | some t =>
      rw [headerStep_of_reads fs hv ht,
        headerStep_of_reads (s := withHostSide rejected rdata draws host s) fs hv ht]
      rfl

theorem literalGroup_withHostSide (v : Version) (acc : Nat) (fs : List Frame) :
    literalGroup v acc fs (withHostSide rejected rdata draws host s) =
      withHostSide rejected rdata draws host (literalGroup v acc fs s) := by
  cases hc : readAt s.bits s.cursor 1 with
  | none =>
    rw [literalGroup_of_cut_flag v acc fs hc,
      literalGroup_of_cut_flag (s := withHostSide rejected rdata draws host s) v acc fs hc]
    rfl
  | some c =>
    cases hg : readAt s.bits (s.cursor + 1) 4 with
    | none =>
      rw [literalGroup_of_cut_nibble v acc fs hc hg,
        literalGroup_of_cut_nibble (s := withHostSide rejected rdata draws host s) v acc fs hc hg]
      rfl
    | some g =>
      cases hfits : fits s.par (16 * acc + g) with
      | false =>
        rw [literalGroup_of_not_fits v acc fs hc hg hfits,
          literalGroup_of_not_fits (s := withHostSide rejected rdata draws host s) v acc fs hc hg hfits]
        rfl
      | true =>
        by_cases hc0 : c = 0
        · subst hc0
          rw [literalGroup_of_last v acc fs hc hg hfits,
            literalGroup_of_last (s := withHostSide rejected rdata draws host s) v acc fs hc hg hfits]
          rfl
        · rw [literalGroup_of_more v acc fs hc hc0 hg hfits,
            literalGroup_of_more (s := withHostSide rejected rdata draws host s) v acc fs hc hc0 hg hfits]
          rfl

theorem pushChild_withHostSide :
    pushChild (withHostSide rejected rdata draws host s) =
      withHostSide rejected rdata draws host (pushChild s) := by
  cases hdepth : depthAllowed s.par (s.frames.length + 1) with
  | true =>
    rw [pushChild_of_allowed hdepth, pushChild_of_allowed (s := withHostSide rejected rdata draws host s) hdepth]
    rfl
  | false =>
    rw [pushChild_of_not_allowed hdepth,
      pushChild_of_not_allowed (s := withHostSide rejected rdata draws host s) hdepth]
    rfl

theorem completeFrame_withHostSide (v : Version) (op : Opcode) (cs : Packets) (fs : List Frame) :
    completeFrame v op cs fs (withHostSide rejected rdata draws host s) =
      withHostSide rejected rdata draws host (completeFrame v op cs fs s) := by
  have hpar : (withHostSide rejected rdata draws host s).par = s.par := rfl
  unfold completeFrame
  rw [hpar]
  split_ifs <;> rfl

theorem startDecode_withHostSide :
    startDecode (withHostSide rejected rdata draws host s) =
      withHostSide rejected rdata draws host (startDecode s) := by
  have hsnap : (withHostSide rejected rdata draws host s).snap = s.snap := rfl
  unfold startDecode
  rw [hsnap]
  cases convertInput s.snap <;> rfl

variable {s} {t : State} {f : Frame} {fs : List Frame}

theorem leaveFrame_withHostSide {p : Packet} (h : leaveFrame p fs s = .next t) :
    leaveFrame p fs (withHostSide rejected rdata draws host s) =
      .next (withHostSide rejected rdata draws host t) := by
  rcases leaveFrame_next h with ⟨rfl, rfl⟩ | ⟨v, op, target, cs, gs, rfl, ⟨hlt, rfl⟩ | ⟨hle, rfl⟩⟩ |
    ⟨v, op, n, cs, gs, rfl, rfl⟩
  · rfl
  · exact if_pos hlt
  · exact if_neg (Nat.not_lt.2 hle)
  · rfl

theorem lengthMode_withHostSide {v : Version} {op : Opcode} (hpending : s.pending = some .decode)
    (hframes : s.frames = .operatorLengthModeSelect v op :: fs) (h : engineStep s = .next t) :
    engineStep (withHostSide rejected rdata draws host s) =
      .next (withHostSide rejected rdata draws host t) := by
  have hpending' : (withHostSide rejected rdata draws host s).pending = some .decode := hpending
  have hframes' : (withHostSide rejected rdata draws host s).frames = .operatorLengthModeSelect v op :: fs :=
    hframes
  cases hi : readAt s.bits s.cursor 1 with
  | none =>
    obtain rfl := Host.Outcome.next.inj ((engineStep_lengthMode_of_cut_flag hpending hframes hi).symm.trans h)
    exact engineStep_lengthMode_of_cut_flag hpending' hframes' hi
  | some i =>
    by_cases hi0 : i = 0
    · subst hi0
      cases hx : readAt s.bits (s.cursor + 1) 15 with
      | none =>
        obtain rfl := Host.Outcome.next.inj
          ((engineStep_lengthMode_of_cut_len hpending hframes hi hx).symm.trans h)
        exact engineStep_lengthMode_of_cut_len hpending' hframes' hi hx
      | some x =>
        obtain rfl := Host.Outcome.next.inj
          ((engineStep_lengthMode_of_len hpending hframes hi hx).symm.trans h)
        exact engineStep_lengthMode_of_len hpending' hframes' hi hx
    · cases hx : readAt s.bits (s.cursor + 1) 11 with
      | none =>
        obtain rfl := Host.Outcome.next.inj
          ((engineStep_lengthMode_of_cut_count hpending hframes hi hi0 hx).symm.trans h)
        exact engineStep_lengthMode_of_cut_count hpending' hframes' hi hi0 hx
      | some x =>
        obtain rfl := Host.Outcome.next.inj
          ((engineStep_lengthMode_of_count hpending hframes hi hi0 hx).symm.trans h)
        exact engineStep_lengthMode_of_count hpending' hframes' hi hi0 hx

theorem frameStep_withHostSide (hpending : s.pending = some .decode) (hframes : s.frames = f :: fs)
    (h : engineStep s = .next t) :
    engineStep (withHostSide rejected rdata draws host s) =
      .next (withHostSide rejected rdata draws host t) := by
  have hpending' : (withHostSide rejected rdata draws host s).pending = some .decode := hpending
  have hframes' : (withHostSide rejected rdata draws host s).frames = f :: fs := hframes
  cases f with
  | readHeader =>
    obtain rfl := Host.Outcome.next.inj ((engineStep_readHeader hpending hframes).symm.trans h)
    rw [engineStep_readHeader hpending' hframes', headerStep_withHostSide]
  | literalGroupLoop v acc =>
    obtain rfl := Host.Outcome.next.inj ((engineStep_literalGroupLoop hpending hframes).symm.trans h)
    rw [engineStep_literalGroupLoop hpending' hframes', literalGroup_withHostSide]
  | operatorLengthModeSelect v op =>
    exact lengthMode_withHostSide rejected rdata draws host hpending hframes h
  | fixedBitLengthChildrenLoop v op target cs =>
    obtain rfl := Host.Outcome.next.inj ((engineStep_fixedLoop hpending hframes).symm.trans h)
    have hcursor : (withHostSide rejected rdata draws host s).cursor = s.cursor := rfl
    rw [engineStep_fixedLoop hpending' hframes', lengthLoop, lengthLoop, hcursor, pushChild_withHostSide,
      completeFrame_withHostSide]
    split_ifs <;> rfl
  | countedChildrenLoop v op n cs =>
    obtain rfl := Host.Outcome.next.inj ((engineStep_countedLoop hpending hframes).symm.trans h)
    rw [engineStep_countedLoop hpending' hframes', countLoop, countLoop, pushChild_withHostSide,
      completeFrame_withHostSide]
    split_ifs <;> rfl
  | done p =>
    rw [engineStep_done hpending hframes] at h
    rw [engineStep_done hpending' hframes', leaveFrame_withHostSide rejected rdata draws host h]

theorem query_withHostSide {i : Instr} (hi : i ∈ [Instr.sumVersions, Instr.evaluate]) (h : exec i s = .next t) :
    exec i (withHostSide rejected rdata draws host s) = .next (withHostSide rejected rdata draws host t) := by
  rcases exec_query_cases hi h with ⟨r, rfl, hagain⟩ | ⟨e, pos, rfl, hagain⟩
  · exact hagain _ rfl rfl
  · exact hagain _ rfl rfl

/-- An engine step does the same whatever stands on the host's side. -/
theorem engineStep_withHostSide (h : engineStep s = .next t) :
    engineStep (withHostSide rejected rdata draws host s) =
      .next (withHostSide rejected rdata draws host t) := by
  rcases engineStep_next_cases h with ⟨hpending, rfl⟩ | ⟨f, fs, hpending, hframes, -⟩ |
    ⟨hpending, hframes, rfl⟩ | ⟨hpending, hexec⟩ | ⟨hpending, hexec⟩
  · exact engineStep_of_none hpending
  · exact frameStep_withHostSide rejected rdata draws host hpending hframes h
  · have hcommand := engineStep_of_command (s := withHostSide rejected rdata draws host s) hpending hframes
    rw [hcommand, ← startDecode_withHostSide]
    rfl
  · have hquery := query_withHostSide rejected rdata draws host (i := .sumVersions) (by simp) hexec
    have hpending' : (withHostSide rejected rdata draws host s).pending = some .sumVersions := hpending
    rwa [engineStep, engineTurn, hpending']
  · have hquery := query_withHostSide rejected rdata draws host (i := .evaluate) (by simp) hexec
    have hpending' : (withHostSide rejected rdata draws host s).pending = some .evaluate := hpending
    rwa [engineStep, engineTurn, hpending']

end Commute

/-! ## BUSY only ends -/

/-- An instruction keeps the host's list, and makes nothing BUSY that was not. -/
theorem exec_keeps_host {i : Instr} {s t : State} (h : exec i s = .next t) :
    t.host = s.host ∧ (t.status.state = .busy → s.status.state = .busy) := by
  rcases exec_next_cases h with ⟨c, fs, rfl⟩ | ⟨e, pos, c, rfl⟩ | ⟨bs, -, rfl⟩ | ⟨r, -, rfl⟩
  · exact ⟨rfl, id⟩
  · exact ⟨rfl, by simp⟩
  · exact ⟨rfl, id⟩
  · exact ⟨rfl, by simp⟩

/-- So does every step of the engine. -/
theorem engineStep_keeps_host {s t : State} (h : engineStep s = .next t) :
    t.host = s.host ∧ (t.status.state = .busy → s.status.state = .busy) := by
  rcases engineStep_next_cases h with ⟨-, rfl⟩ | ⟨f, fs, -, -, hmicro⟩ | ⟨-, -, rfl⟩ | ⟨-, hsum⟩ |
    ⟨-, heval⟩
  · exact ⟨rfl, id⟩
  · cases hmicro with
    | advances _ => exact ⟨rfl, id⟩
    | completes p => exact ⟨rfl, by simp⟩
    | raises _ _ _ => exact ⟨rfl, by simp⟩
  · exact exec_keeps_host (i := .decode) rfl
  · exact exec_keeps_host (i := .sumVersions) hsum
  · exact exec_keeps_host (i := .evaluate) heval

theorem runSteps_keeps_host : ∀ {n : Nat} {s u : State}, s.host = [] → runSteps n s = .next u →
    u.host = [] ∧ (u.status.state = .busy → s.status.state = .busy)
  | 0, s, u, hhost, hrun => by
    obtain rfl := Host.Outcome.next.inj hrun
    exact ⟨hhost, id⟩
  | n + 1, s, u, hhost, hrun => by
    obtain ⟨t, ht, hrun'⟩ := runSteps_succ_next hrun
    obtain ⟨hhost', hback⟩ := engineStep_keeps_host ((step_of_host_nil hhost).symm.trans ht)
    obtain ⟨hnil, hback'⟩ := runSteps_keeps_host (hhost'.trans hhost) hrun'
    exact ⟨hnil, fun hbusy => hback (hback' hbusy)⟩

/-! ## Any order -/

/-- Every index the list names exists. -/
def indicesExist (par : Params) (acts : List HostAction) : Prop :=
  ∀ a ∈ acts, ∀ i ∈ a.index par.busMap, i < par.inCap

theorem indicesExist_of_hostOk {s : State} {acts : List HostAction}
    (h : hostOk { s with host := acts } = true) : indicesExist s.par acts := by
  intro a ha i hi
  have hall := List.all_eq_true.1 h a ha
  rw [Option.mem_def] at hi
  simpa [hi] using hall

/-- An `idle` entry is the engine's step, whatever stands on the host's side. -/
theorem step_idle_withHostSide {s t : State} {rejected : Bool} {rdata : Option Nat} {draws : Nat}
    (rest : List HostAction) (h : engineStep s = .next t) :
    step (withHostSide rejected rdata draws (.idle :: rest) s) =
      .next (withHostSide rejected rdata draws rest t) :=
  engineStep_withHostSide rejected rdata draws rest h

/-- Any other entry but reset changes the host's side only. -/
theorem step_access_withHostSide {s : State} {rejected : Bool} {rdata : Option Nat} {draws : Nat}
    {a : HostAction} (rest : List HostAction) (hbusy : s.status.state = .busy) (hidle : a ≠ .idle)
    (hreset : a ≠ .reset) (hexists : ∀ i ∈ a.index s.par.busMap, i < s.par.inCap) :
    ∃ rejected' rdata' draws', step (withHostSide rejected rdata draws (a :: rest) s) =
      .next (withHostSide rejected' rdata' draws' rest s) := by
  have hstep := step_of_hostAccess (s := withHostSide rejected rdata draws (a :: rest) s) rfl hidle hexists
  obtain ⟨rejected', rdata', draws', heq⟩ :=
    (hostChange_hostEffect (withHostSide rejected rdata draws rest s) a).of_busy hbusy hreset
  exact ⟨rejected', rdata', draws', hstep.trans (congrArg Host.Outcome.next heq)⟩

/-- By induction on the list: an access changes the host's side, and an `idle` entry is a step of the run alone. -/
theorem runSteps_withHostSide {u w : State} (hu : u.status.state = .busy) (hw : step u = .next w) :
    ∀ {acts : List HostAction} {s : State} {rejected : Bool} {rdata : Option Nat} {draws : Nat},
      s.host = [] → (∀ a ∈ acts, a ≠ .reset) → indicesExist s.par acts →
      runSteps (acts.count .idle) s = .next u →
      ∃ rejected' rdata' draws',
        runSteps (acts.length + 1) (withHostSide rejected rdata draws (acts ++ [.idle]) s) =
          .next (withHostSide rejected' rdata' draws' [] w)
  | [], s, rejected, rdata, draws, hhost, _, _, hrun => by
    obtain rfl := Host.Outcome.next.inj hrun
    rw [step_of_host_nil hhost] at hw
    exact ⟨rejected, rdata, draws, runSteps_succ_of_step 0 (step_idle_withHostSide [] hw)⟩
  | a :: acts, s, rejected, rdata, draws, hhost, hreset, hexists, hrun => by
    have hbusy := (runSteps_keeps_host hhost hrun).2 hu
    have hreset' : ∀ b ∈ acts, b ≠ .reset := fun b hb => hreset b (List.mem_cons_of_mem a hb)
    have hexists' : indicesExist s.par acts := fun b hb => hexists b (List.mem_cons_of_mem a hb)
    by_cases hidle : a = .idle
    · subst hidle
      rw [List.count_cons_self] at hrun
      obtain ⟨t, ht, hrun'⟩ := runSteps_succ_next hrun
      rw [step_of_host_nil hhost] at ht
      obtain ⟨hhost', -⟩ := engineStep_keeps_host ht
      obtain ⟨rejected', rdata', draws', hrest⟩ :=
        runSteps_withHostSide hu hw (rejected := rejected) (rdata := rdata) (draws := draws)
          (hhost'.trans hhost) hreset' (engineStep_par ht ▸ hexists') hrun'
      exact ⟨rejected', rdata', draws',
        (runSteps_succ_of_step _ (step_idle_withHostSide (acts ++ [.idle]) ht)).trans hrest⟩
    · rw [List.count_cons_of_ne hidle] at hrun
      obtain ⟨r₁, d₁, n₁, hstep⟩ := step_access_withHostSide (rejected := rejected) (rdata := rdata)
        (draws := draws) (acts ++ [.idle]) hbusy hidle (hreset a List.mem_cons_self)
        (hexists a List.mem_cons_self)
      obtain ⟨rejected', rdata', draws', hrest⟩ :=
        runSteps_withHostSide hu hw (rejected := r₁) (rdata := d₁) (draws := n₁) hhost hreset' hexists' hrun
      exact ⟨rejected', rdata', draws', (runSteps_succ_of_step _ hstep).trans hrest⟩

/-- Settles O56: the list's run is the engine's own run with another host's side. -/
theorem hostAccessesDoNotDisturbACommand : Obligations.HostAccessesDoNotDisturbACommand := by
  unfold Obligations.HostAccessesDoNotDisturbACommand
  intro s u w acts _ hreset hhostOk hrun hu hw
  obtain ⟨rejected, rdata, draws, hlist⟩ :=
    runSteps_withHostSide hu hw (s := { s with host := [] }) (rejected := s.status.rejected)
      (rdata := s.rdata) (draws := s.draws) rfl hreset (indicesExist_of_hostOk hhostOk) hrun
  have hnil : w.host = [] := by
    obtain ⟨huhost, -⟩ := runSteps_keeps_host (s := { s with host := [] }) rfl hrun
    rw [step_of_host_nil huhost] at hw
    exact (engineStep_keeps_host hw).1.trans huhost
  refine ⟨rejected, rdata, draws, hlist.trans ?_⟩
  rw [withHostSide, ← hnil]

end Sys2Proof.Machine
end
